-- ==== Sys2Proof/Word.lean ====
section
/-! DEFINITION. The word types of the block: 32-bit register words, 16-bit word addresses, bytes of the channels
(`00_scope.md` R6, `10_state.md` R35, `20_memory.md` R70). Every quantity is unsigned (R6). -/

namespace Sys2Proof

/-- A register word and a command word: 32 bits (R35, R91). -/
abbrev Word := BitVec 32

/-- A word address of the host register space: 16 bits (R35). -/
abbrev Addr := BitVec 16

/-- One byte of the raw input or of the destination (R5, `BYTE_W` = 8). -/
abbrev Byte := BitVec 8

end Sys2Proof
end

