-- ==== Sys2Proof/Config.lean ====
section
/-! DEFINITION. The parameters of `00_scope.md` R5, the entry types of the two tables whose widths they fix
(`10_state.md` R24, R27), and the values the spec leaves open: opaque constants with no body, so that no proof can
see what they are. -/

namespace Sys2Proof

/-- A symbol: 0..255 a byte value, 256 the end-of-stream marker (R5 `NSYM` = 257, R12). -/
abbrev Sym := Fin 257

/-- An index of the node store: 10 bits in 0..512 (R5 `NODE_CAP` = 513, R24). -/
abbrev NodeIdx := Fin 513

/-- A node weight: `WT_W` = 41 bits (R5, R24). -/
abbrev Weight := BitVec 41

/-- One entry of the node store, the tagged variant of R24. -/
inductive Node where
  | leaf (symbol : Sym) (weight : Weight)
  | internal (weight : Weight) (left right : NodeIdx)
  deriving DecidableEq, Repr, Inhabited

/-- One entry of the code table (R27). `len` is the length of `code`, so it is a view and not a field. -/
structure CtEntry where
  present : Bool
  code    : List Bool
  deriving DecidableEq, Repr, Inhabited

namespace CtEntry

/-- The `len` field of a code-table entry: `code` has exactly `len` bits (R27). -/
def len (e : CtEntry) : Nat := e.code.length

/-- The entry GENCODES starts every symbol from: `{present = 0, len = 0, code = ε}` (R140). -/
def absent : CtEntry := ⟨false, []⟩

end CtEntry

namespace Config

/-- `EOS`: the end-of-stream marker symbol, 256 (R5). -/
abbrev eos : Sym := 256

/-- `MAX_LEN`: the longest code in bits, 256 (R5, R144). -/
abbrev maxLen : Nat := 256

/-- `MAX_DEPTH`: most internal nodes open at once while a header is read, 256 (R5, D13). -/
abbrev maxDepth : Nat := 256

/-- `PAD_BIT`: the value of the padding bits this hardware writes, 0 (R5, R68, D17). -/
abbrev padBit : Bool := false

/-- The open part of `MAGIC`: any of the 2^32 - 1 non-zero 32-bit values, less one (D4, U11). -/
opaque magicLessOne : Fin 4294967295

/-- `MAGIC`, the open 32-bit constant of which only `MAGIC ≠ 0` is assumed (R5, R95, R191, D4). -/
def magic : Word := BitVec.ofNat 32 (magicLessOne.val + 1)

/-- What a host read returns where the spec says "an unspecified value" (R36, R264, U6, U7): free for every read. -/
opaque unspecifiedWord : Nat → Word

/-- The contents of a node-store entry after a reset, "unspecified" (R39, U8): free for every reset and index. -/
opaque unspecifiedNode : Nat → NodeIdx → Node

/-- The contents of a code-table entry after a reset, "unspecified" (R39, U8): free for every reset and symbol. -/
opaque unspecifiedEntry : Nat → Sym → CtEntry

end Config

end Sys2Proof
end

