-- ==== Sys2Proof/Machine/Bits.lean ====
section
/-! DEFINITION. Bit sequences: the order of bits in a group and the packing of the bit sequence into bytes
(`00_scope.md` R6, `20_memory.md` R63, R66, R70, R80). A bit sequence is a list, first bit in time first. -/

namespace Sys2Proof.Machine

/-- `bitsMSB(n, v)`: the low-order `n` bits of `v`, most significant first (R6). -/
def bitsMSB : Nat → Nat → List Bool
  | 0, _ => []
  | n + 1, v => v.testBit n :: bitsMSB n v

/-- `valMSB(q)`: the unsigned number whose binary digits are `q`, first bit most significant (R6). -/
def valMSB (q : List Bool) : Nat := q.foldl (fun acc b => 2 * acc + b.toNat) 0

/-- The bit sequence of a byte sequence: the first bit of the stream is bit 7 of byte 0 (R70, R80). -/
def bytesToBits (bs : List Byte) : List Bool := bs.flatMap fun b => bitsMSB 8 b.toNat

/-- The whole bytes of a bit sequence, a partial last byte left out (R38, R70). -/
def wholeBytes : List Bool → List Byte
  | b7 :: b6 :: b5 :: b4 :: b3 :: b2 :: b1 :: b0 :: rest =>
      BitVec.ofNat 8 (valMSB [b7, b6, b5, b4, b3, b2, b1, b0]) :: wholeBytes rest
  | _ => []

/-- How many padding bits bring a length to a multiple of 8: 0 to 7 (R68, R100). -/
def padCount (len : Nat) : Nat := (8 - len % 8) % 8

/-- The symbol of a byte value (R12). -/
def byteSym (b : Byte) : Sym := ⟨b.toNat, by have := b.isLt; omega⟩

end Sys2Proof.Machine
end

