-- ==== Sys2Proof/Syntax.lean ====
section
/-! DEFINITION. The instructions: one constructor for each of the seventeen rows of `opcode_table.json`, the fifteen
commands of format CMDW (`30_encoding.md` R92) and the two header tokens of format HDR (R96). -/

namespace Sys2Proof

/-- The commands and header tokens. No command has an operand (R91); the leaf token carries its 9-bit field `sym9`. -/
inductive Instr where
  | nop
  | sreset
  | ftClr
  | count
  | build
  | gencodes
  | wrMagic
  | wrHeader
  | encPayload
  | closeOut
  | rdMagic
  | rdHeader
  | decPayload
  | compress
  | decompress
  | hdrInternal
  | hdrLeaf (sym9 : BitVec 9)
  deriving DecidableEq, Repr

end Sys2Proof
end

