-- ==== Sys2Proof/WellFormed.lean ====
section
/-! DEFINITION. Well-formed instructions. The only operand is the 9-bit symbol field of the leaf token, whose values
257..511 are reserved (`30_encoding.md` R97, R98). -/

namespace Sys2Proof

/-- A 9-bit field that is a symbol: 0..256 (R98). -/
def legalSym9 (v : BitVec 9) : Bool := decide (v.toNat ≤ 256)

/-- An instruction is well formed when its operand, if it has one, is legal (R91, R98). -/
def Instr.wellFormed : Instr → Bool
  | .hdrLeaf v => legalSym9 v
  | .nop => true
  | .sreset => true
  | .ftClr => true
  | .count => true
  | .build => true
  | .gencodes => true
  | .wrMagic => true
  | .wrHeader => true
  | .encPayload => true
  | .closeOut => true
  | .rdMagic => true
  | .rdHeader => true
  | .decPayload => true
  | .compress => true
  | .decompress => true
  | .hdrInternal => true

end Sys2Proof
end

