-- ==== Sys2Proof/Decode.lean ====
section
/-! DEFINITION. Decoding and encoding (`30_encoding.md` R91 to R93, R96 to R98). A command is one 32-bit word compared
whole; a header token is 1 or 10 bits told apart by its first bit. Every other word and every bit sequence too short is
rejected by name. -/

namespace Sys2Proof

open Sys2Proof.Machine (bitsMSB valMSB)

/-- The header tokens as the reader of a header sees them (R96). -/
inductive HdrToken where
  | internal
  | leaf (sym9 : BitVec 9)
  deriving DecidableEq, Repr

/-- The instruction a header token is. -/
def HdrToken.toInstr : HdrToken → Instr
  | .internal => .hdrInternal
  | .leaf v => .hdrLeaf v

/-- Why a word or a bit sequence is no instruction. -/
inductive DecodeError where
  /-- A command word with a non-zero `RSV` field, bits 31:8 (R91, R93). -/
  | reservedBitsSet
  /-- A command word whose `OPC` is 0x0D..0x0F or 0x12..0xFF (R93). -/
  | unknownOpcode
  /-- No bit where a tag bit is expected (R153 `EOF_TAG`). -/
  | noTagBit
  /-- A tag bit 1 and fewer than 9 bits after it (R153 `EOF_SYMBOL`). -/
  | shortSymbol
  deriving DecidableEq, Repr

/-- What an instruction is read from: a word written to `CMD`, or the input bits where a header token is expected. -/
inductive Encoded where
  | command (w : Word)
  | token (bits : List Bool)
  deriving DecidableEq, Repr

/-- The opcode map of R92: the opcode and the command it starts. -/
def commandRows : List (BitVec 8 × Instr) :=
  [(0x00, .nop), (0x01, .sreset), (0x02, .ftClr), (0x03, .count), (0x04, .build), (0x05, .gencodes),
   (0x06, .wrMagic), (0x07, .wrHeader), (0x08, .encPayload), (0x09, .closeOut), (0x0A, .rdMagic),
   (0x0B, .rdHeader), (0x0C, .decPayload), (0x10, .compress), (0x11, .decompress)]

/-- Decode a command word: `RSV` must be 0 and `OPC` one of the fifteen of R92 (R91, R93). -/
def decodeCommand (w : Word) : Except DecodeError Instr :=
  if w.extractLsb' 8 24 ≠ 0 then .error .reservedBitsSet
  else match commandRows.find? (fun row => row.1 == w.extractLsb' 0 8) with
    | some row => .ok row.2
    | none => .error .unknownOpcode

/-- Decode the header token a bit sequence starts with, and say how many bits it took (R96). -/
def decodeToken : List Bool → Except DecodeError (HdrToken × Nat)
  | [] => .error .noTagBit
  | false :: _ => .ok (.internal, 1)
  | true :: rest =>
      if rest.length < 9 then .error .shortSymbol
      else .ok (.leaf (BitVec.ofNat 9 (valMSB (rest.take 9))), 10)

/-- The whole decoder: a command word, or the token a bit sequence starts with. -/
def decode : Encoded → Except DecodeError Instr
  | .command w => decodeCommand w
  | .token bits => (decodeToken bits).map fun p => p.1.toInstr

/-- The bits of a header token: `0`, or `1` and the nine bits of the symbol field (R96, R97). -/
def encodeToken : HdrToken → List Bool
  | .internal => [false]
  | .leaf v => true :: bitsMSB 9 v.toNat

/-- The word of a command, `zext_32(OPC)` (R92), and the bits of a header token (R96). -/
def encode : Instr → Encoded
  | .nop => .command 0x00000000
  | .sreset => .command 0x00000001
  | .ftClr => .command 0x00000002
  | .count => .command 0x00000003
  | .build => .command 0x00000004
  | .gencodes => .command 0x00000005
  | .wrMagic => .command 0x00000006
  | .wrHeader => .command 0x00000007
  | .encPayload => .command 0x00000008
  | .closeOut => .command 0x00000009
  | .rdMagic => .command 0x0000000A
  | .rdHeader => .command 0x0000000B
  | .decPayload => .command 0x0000000C
  | .compress => .command 0x00000010
  | .decompress => .command 0x00000011
  | .hdrInternal => .token (encodeToken .internal)
  | .hdrLeaf v => .token (encodeToken (.leaf v))

/-- How many bits a header-token row has, from its size in whole bytes: 1 (one byte) or 10 (two bytes) (R96). -/
def tokenRowBits (nbits : Nat) : Nat := if nbits ≤ 8 then 1 else 10

/-- An instruction given as a table row numbers its bits. A row of up to 16 bits is a header token, its pattern read as
one number with the tag bit its highest bit; any longer row is a command word. -/
def encodedOfTableWord (nbits w : Nat) : Encoded :=
  if nbits ≤ 16 then .token (bitsMSB (tokenRowBits nbits) w) else .command (BitVec.ofNat 32 w)

/-- What the decoder reads from an instruction whose bits are `w`, numbered as `opcode_table.json` numbers them. -/
def decodeTableWord (nbits w : Nat) : Option Instr :=
  if nbits ≤ 16 then
    if w < 2 ^ tokenRowBits nbits then (decode (encodedOfTableWord nbits w)).toOption else none
  else
    if w < 2 ^ 32 then (decode (encodedOfTableWord nbits w)).toOption else none

end Sys2Proof
end

