-- ==== Sys2Proof/Machine/State.lean ====
section
/-! DEFINITION. The state of the block and of what it acts on (`10_state.md` R20 to R41), as plain data, its value
after hardware reset (R39), and the two closed lists of reasons for which a step of the model stops. -/

namespace Sys2Proof.Machine

/-- `DWALK.DSTATE`: where the decode walk stands (R30). The coding 0, 1, 2 is `DState.code`. -/
inductive DState where
  | atRoot
  | atInternal
  | done
  deriving DecidableEq, Repr

/-- The register `ERR` (R33): `CODE`, `INFO`, `AUX`. Bits 31:17 of its word read 0 and are no state. -/
structure ErrReg where
  code : BitVec 4
  info : BitVec 4
  aux  : BitVec 9
  deriving DecidableEq, Repr

/-- The input channel (R61): the bits of the stream and the index of the next bit to read. -/
structure InChannel where
  data : List Bool
  pos  : Nat
  deriving DecidableEq, Repr

/-- The output channel (R62): every bit written so far and whether it is closed. -/
structure OutChannel where
  bits   : List Bool
  closed : Bool
  deriving DecidableEq, Repr

/-- The working state of RD_HEADER while a header is being read: the marks `SEEN` (R29) and the stack of open internal
nodes (R153, R157), innermost first. An open node waits for its left subtree (`none`) or, its left child being known,
for its right one. -/
structure HeaderRead where
  seen  : Vector Bool 257
  stack : List (Option NodeIdx)
  deriving DecidableEq, Repr

/-- What the outside does between two commands (R10, R72, R104, R260, R263, R270). -/
inductive HostAction where
  /-- `HostRead(a)`: read the register word at `a`. -/
  | read (a : Addr)
  /-- `HostWrite(a, v)`: write the register word at `a`; a write to `CMD` starts a command. -/
  | write (a : Addr) (v : Word)
  /-- The hardware reset input (R260). -/
  | reset
  /-- The environment supplies a fresh source, at position 0 (R263). -/
  | openSource (bytes : List Byte)
  /-- The environment supplies a fresh destination, empty and open (R62, R263). -/
  | openDestination
  deriving DecidableEq, Repr

/-- One host read and the word it returned, "for the record" (R104). -/
structure ReadRecord where
  addr  : Addr
  value : Word
  deriving DecidableEq, Repr

/-- The whole state. The first group is the block's (R20), the second the environment's (R37), the third the model's
own: the host's pending actions, what its reads returned, and the number of free values used so far. `ERRF` and
`DEC_DONE` are views (`State.errf`, `State.decDone`), `FT[256]` is hardwired, `CMD` stores nothing and `MAGICR` is a
constant, so none of them is a field. -/
structure State where
  /-- `FT[0..255]` (R22). -/
  ft        : Vector Word 256
  /-- `NODE[0..512]` (R24). -/
  node      : Vector Node 513
  /-- `ROOT` (R26). -/
  root      : NodeIdx
  /-- `NCOUNT`, 0..513 (R26). -/
  ncount    : Fin 514
  /-- `CT[0..256]` (R27). -/
  ct        : Vector CtEntry 257
  /-- `PQ`, empty outside BUILD (R28). -/
  pq        : List NodeIdx
  /-- `SEEN` and the stack of open nodes; absent when no header is being read (R29, R39). -/
  hdr       : Option HeaderRead
  /-- `DWALK.DSTATE` (R30). -/
  dstate    : DState
  /-- `DWALK.CUR` (R30). -/
  cur       : NodeIdx
  /-- `STATUS.BUSY` (R32). -/
  busy      : Bool
  /-- `STATUS.DONE` (R32). -/
  done      : Bool
  /-- `STATUS.TREE_VALID` (R32). -/
  treeValid : Bool
  /-- `STATUS.CT_VALID` (R32). -/
  ctValid   : Bool
  /-- `STATUS.OCLOSED` (R32). -/
  oclosed   : Bool
  /-- `ERR` (R33). -/
  err       : ErrReg
  /-- `IN` (R61). -/
  input     : InChannel
  /-- `OUT` (R62). -/
  output    : OutChannel
  /-- The host's and the environment's pending actions, next first (the model's own). -/
  host      : List HostAction
  /-- What the host's reads returned, oldest first (the model's own; R104). -/
  record    : List ReadRecord
  /-- How many times a free value has been drawn (the model's own). -/
  free      : Nat
  deriving DecidableEq, Repr

/-- Why the model stops where the spec rules the state out. No state that satisfies the invariant of
`Sys2Proof.Safety` raises one. -/
inductive Fault where
  /-- Raised by GENCODES and WR_HEADER when `TREE_VALID` = 1 and the node store is no tree, against R25. Safe: the spec
  gives such a state no meaning and no run reaches it. -/
  | treeMalformed
  /-- Raised by BUILD, RD_HEADER, the composites and the header tokens when a node would be allocated at index 513,
  against R132 and R157. Safe: the entry does not exist and no run from a command's start reaches it. -/
  | nodeStoreFull
  /-- Raised by BUILD and COMPRESS when the queue ends empty, against R28 and R132. Safe: no state reaches it. -/
  | queueEmpty
  deriving DecidableEq, Repr

/-- Why the model gives a step no meaning. -/
inductive Refusal where
  /-- Raised by the dispatcher for an instruction that has no meaning yet. Safe: nothing is claimed of it. -/
  | notModelled (mnemonic : String)
  /-- Raised by a command that writes a bit to an output channel that is closed while `OCLOSED` = 0 (R66, U16: "A write
  to a closed channel has no defined effect"). Safe: the run stops where the hardware's effect is undefined. -/
  | writeToClosedOutput
  /-- Raised by CLOSE_OUT and the composites when the output channel is closed already while `OCLOSED` = 0 (R66, U16).
  Safe: the run stops where the hardware's effect is undefined. -/
  | closeOfClosedOutput
  /-- Raised by a header token executed while no header is being read. Safe: a token has a meaning only inside a header
  (R96, R154, R155), and no fetch of the model gives one anywhere else. -/
  | tokenOutsideHeader
  deriving DecidableEq, Repr

/-- The state after hardware reset (R39). `NODE` and `CT`, which the spec leaves unspecified, hold the values of log
entry 2; the channels, which reset does not touch, are those of log entry 3; the model's own fields are empty. -/
def State.reset : State where
  ft := Vector.replicate 256 0
  node := Vector.replicate 513 (.leaf 0 0)
  root := 0
  ncount := 0
  ct := Vector.replicate 257 CtEntry.absent
  pq := []
  hdr := none
  dstate := .atRoot
  cur := 0
  busy := false
  done := false
  treeValid := false
  ctValid := false
  oclosed := false
  err := ⟨0, 0, 0⟩
  input := ⟨[], 0⟩
  output := ⟨[], false⟩
  host := []
  record := []
  free := 0

end Sys2Proof.Machine
end

