-- ==== Sys2Proof/Machine/Operands.lean ====
section
/-! DEFINITION. The operand forms. No command has an operand (`30_encoding.md` R91); what the block reads and writes is
the hardwired frequency table (`10_state.md` R22, R23), bit groups of the channels (`20_memory.md` R63 to R69), and the
table words the host sees (R102, R103). -/

namespace Sys2Proof.Machine

/-- Read `FT[x]`: the stored count of a byte value, and the constant 1 for the marker (R22, R23). -/
def ftRead (s : State) (x : Sym) : Word := if h : x.val < 256 then s.ft[x.val] else 1

/-- Write `FT[x]`: all 32 bits of a byte value's count; a write to the marker's is ignored (R23, R36). -/
def ftWrite (s : State) (x : Sym) (v : Word) : State :=
  if h : x.val < 256 then { s with ft := s.ft.set x.val v } else s

/-- `for s in 0..255: FT[s] <- 0` (R121, R122). -/
def ftClear (s : State) : State := { s with ft := Vector.replicate 256 0 }

/-- The weight of a node (R24). -/
def nodeWeight : Node → Weight
  | .leaf _ w => w
  | .internal w _ _ => w

/-- The coding of `DSTATE` in the `DWALK` word (R30). -/
def DState.code : DState → Nat
  | .atRoot => 0
  | .atInternal => 1
  | .done => 2

/-- Word `k` of a node-store entry (R102, format NODEW). -/
def nodeWord (n : Node) (k : Nat) : Word :=
  match k, n with
  | 0, .leaf x _ => BitVec.ofNat 32 x.val
  | 0, .internal _ _ _ => 0x80000000
  | 1, n => (nodeWeight n).extractLsb' 0 32
  | 2, n => ((nodeWeight n).extractLsb' 32 9).setWidth 32
  | 3, .leaf _ _ => 0
  | 3, .internal _ l r => BitVec.ofNat 32 (l.val + 2 ^ 16 * r.val)
  | _, _ => 0

/-- Thirty-two code bits from bit `32·j` on, most significant first, positions past the end reading 0 (R103). -/
def codeWord (code : List Bool) (j : Nat) : Word :=
  let q := (code.drop (32 * j)).take 32
  BitVec.ofNat 32 (valMSB (q ++ List.replicate (32 - q.length) false))

/-- Word `k` of a code-table entry (R103, format CTW): bit 31 `PRESENT` and bits 8:0 `LEN`, eight code words, zeros. -/
def entryWord (e : CtEntry) (k : Nat) : Word :=
  if k = 0 then BitVec.ofNat 32 (2 ^ 31 * e.present.toNat + e.len % 512)
  else if k ≤ 8 then codeWord e.code (k - 1)
  else 0

end Sys2Proof.Machine
end

