-- ==== Sys2Proof/Machine/Flags.lean ====
section
/-! DEFINITION. The flags of `STATUS` (`10_state.md` R32), the fault codes of `ERR` (`60_exceptions.md` R221) and the
precondition checks over the flags (`46_control.md` R213). -/

namespace Sys2Proof.Machine

/-- `STATUS.ERRF`: 1 exactly when `ERR.CODE ≠ 0` (R32). -/
def State.errf (s : State) : Bool := s.err.code != 0

/-- `STATUS.DEC_DONE`: `DWALK.DSTATE = DONE` (R30, R32). -/
def State.decDone (s : State) : Bool := s.dstate == .done

/-- The three level outputs `busy`, `done`, `err` of the block, equal at all times to the flags (R230). -/
def State.outputs (s : State) : Bool × Bool × Bool := (s.busy, s.done, s.errf)

/-- The word of `STATUS` (R32): bits 0 to 6, bits 31:7 reading 0. -/
def statusWord (s : State) : Word :=
  BitVec.ofNat 32 (s.busy.toNat + 2 * s.done.toNat + 4 * s.errf.toNat + 8 * s.treeValid.toNat
    + 16 * s.ctValid.toNat + 32 * s.decDone.toNat + 64 * s.oclosed.toNat)

/-- The word of `ERR`: `CODE + 16·INFO + 256·AUX` (R33, R221). -/
def errWord (e : ErrReg) : Word := BitVec.ofNat 32 (e.code.toNat + 16 * e.info.toNat + 256 * e.aux.toNat)

/-- The word of `DWALK`: `CUR` in bits 9:0, `DSTATE` in bits 11:10 (R35). -/
def dwalkWord (s : State) : Word := BitVec.ofNat 32 (s.cur.val + 1024 * s.dstate.code)

/-- The faults of the block, with their sub-causes and the value `AUX` takes (R153, R221). -/
inductive BlockFault where
  /-- `BAD_MAGIC`, the value differs (R190, R222). -/
  | badMagic
  /-- `BAD_MAGIC`, fewer than 32 bits in the input (R190, R222). -/
  | shortMagic
  /-- `CORRUPT_HEADER`, the input ended where a tag bit was expected (R153). -/
  | eofTag
  /-- `CORRUPT_HEADER`, fewer than 9 bits after a tag bit 1 (R153). -/
  | eofSymbol
  /-- `CORRUPT_HEADER`, the symbol field holds 257..511 (R153). -/
  | symRange (field : BitVec 9)
  /-- `CORRUPT_HEADER`, the symbol was given to an earlier leaf (R153). -/
  | dupSymbol (sym : Sym)
  /-- `CORRUPT_HEADER`, a tag bit 0 while 256 internal nodes are open (R153). -/
  | tooDeep
  /-- `TRUNCATED_STREAM` (R224). -/
  | truncatedStream
  /-- `ILLEGAL_CMD` (R225). -/
  | illegalCmd
  /-- `BAD_SEQUENCE`, `TREE_VALID` = 0 (R213, R226). -/
  | needTree
  /-- `BAD_SEQUENCE`, `CT_VALID` = 0 (R213, R226). -/
  | needCt
  /-- `BAD_SEQUENCE`, `OCLOSED` = 1 (R213, R226). -/
  | outClosed
  /-- `NO_CODE` (R227). -/
  | noCode (sym : Sym)
  /-- `COUNT_OVERFLOW` (R228). -/
  | countOverflow (byte : Byte)
  /-- `DEGENERATE_TREE` (R229). -/
  | degenerateTree (sym : Sym)
  deriving DecidableEq, Repr

/-- A symbol as the 9-bit `AUX` field (R33). -/
def symAux (x : Sym) : BitVec 9 := BitVec.ofNat 9 x.val

/-- What a fault writes to `ERR`: the table of R221. -/
def BlockFault.toErr : BlockFault → ErrReg
  | .badMagic => ⟨1, 0, 0⟩
  | .shortMagic => ⟨1, 1, 0⟩
  | .eofTag => ⟨2, 0, 0⟩
  | .eofSymbol => ⟨2, 1, 0⟩
  | .symRange v => ⟨2, 2, v⟩
  | .dupSymbol x => ⟨2, 3, symAux x⟩
  | .tooDeep => ⟨2, 4, 0⟩
  | .truncatedStream => ⟨3, 0, 0⟩
  | .illegalCmd => ⟨4, 0, 0⟩
  | .needTree => ⟨5, 1, 0⟩
  | .needCt => ⟨5, 2, 0⟩
  | .outClosed => ⟨5, 3, 0⟩
  | .noCode x => ⟨6, 0, symAux x⟩
  | .countOverflow b => ⟨7, 0, b.setWidth 9⟩
  | .degenerateTree x => ⟨8, 0, symAux x⟩

/-- Which flags a command needs (the columns of R213's table). -/
structure Needs where
  tree : Bool
  ct   : Bool
  out  : Bool
  deriving DecidableEq, Repr

/-- The rows of R213's table. -/
def needsNothing : Needs := ⟨false, false, false⟩
/-- GENCODES (R213). -/
def needsTree : Needs := ⟨true, false, false⟩
/-- WR_MAGIC, CLOSE_OUT, COMPRESS, DECOMPRESS (R213). -/
def needsOut : Needs := ⟨false, false, true⟩
/-- WR_HEADER, DEC_PAYLOAD (R213). -/
def needsTreeOut : Needs := ⟨true, false, true⟩
/-- ENC_PAYLOAD (R213). -/
def needsCtOut : Needs := ⟨false, true, true⟩

/-- The first failing check in the order `TREE_VALID`, `CT_VALID`, `OCLOSED`, if any (R213). -/
def failedNeed (n : Needs) (s : State) : Option BlockFault :=
  if n.tree && !s.treeValid then some .needTree
  else if n.ct && !s.ctValid then some .needCt
  else if n.out && s.oclosed then some .outClosed
  else none

end Sys2Proof.Machine
end

