-- ==== Sys2Proof/Machine/Ops.lean ====
section
/-! DEFINITION. The named operations every command is written over: results of a body, the channel operations
(`20_memory.md` R63 to R68), the allocation of a node, taking a fault and leaving it (`60_exceptions.md` R232, R235,
`46_control.md` R211), and the steps common to every command (R212 to R214). -/

namespace Sys2Proof.Machine

/-- The constant this block compares the magic with (R34). -/
def magic : Word := Config.magic

/-- How a body, or a part of one, ends. -/
inductive Result (α : Type) where
  /-- It ended without a fault. -/
  | ok (a : α)
  /-- `raise f`, in the state the pseudocode had reached (R232). -/
  | raised (f : BlockFault) (s : State)
  /-- The spec gives what it was about to do no effect. -/
  | refused (r : Refusal)
  /-- The state is one the spec rules out. -/
  | stuck (f : Fault)
  deriving DecidableEq, Repr

/-- Sequential composition: a raise stops everything after it (R76, R232). -/
def Result.bind {α β : Type} (r : Result α) (f : α → Result β) : Result β :=
  match r with
  | .ok a => f a
  | .raised b s => .raised b s
  | .refused x => .refused x
  | .stuck x => .stuck x

/-! ## The channels -/

/-- Bits left to read (R63). -/
def bitsLeft (s : State) : Nat := s.input.data.length - s.input.pos

/-- The bits still to be read, first first. -/
def unread (s : State) : List Bool := s.input.data.drop s.input.pos

/-- Move the read position forward by `n`. -/
def advance (n : Nat) (s : State) : State := { s with input := { s.input with pos := s.input.pos + n } }

/-- `InRead(n)`: the next `n` bits as a number, and the position moved; `none` is `EOS_SIGNAL`, which leaves the
position alone (R63, R64). -/
def inRead (n : Nat) (s : State) : Option (Nat × State) :=
  if n ≤ bitsLeft s then some (valMSB ((unread s).take n), advance n s) else none

/-- `InReset()` (R65). -/
def inReset (s : State) : State := { s with input := { s.input with pos := 0 } }

/-- `OutBits(q)`, and `OutWrite(n, v)` with `q = bitsMSB(n, v)`: append `q`. Writing no bit is no write; a write to a
closed channel has no defined effect (R66, R67, U16). -/
def outBits (q : List Bool) (s : State) : Result State :=
  if q = [] then .ok s
  else if s.output.closed then .refused .writeToClosedOutput
  else .ok { s with output := { s.output with bits := s.output.bits ++ q } }

/-- `OutClose()`: pad to a byte boundary with `PAD_BIT` and close (R68). -/
def outClose (s : State) : Result State :=
  if s.output.closed then .refused .closeOfClosedOutput
  else .ok { s with output :=
    ⟨s.output.bits ++ List.replicate (padCount s.output.bits.length) Config.padBit, true⟩ }

/-! ## The node store -/

/-- `i <- NCOUNT ; NODE[i] <- nd ; NCOUNT <- NCOUNT + 1` (R130, R152). -/
def alloc (nd : Node) (s : State) : Result (NodeIdx × State) :=
  if h : s.ncount.val < 513 then
    .ok (⟨s.ncount.val, h⟩,
      { s with node := s.node.set s.ncount.val nd, ncount := ⟨s.ncount.val + 1, by omega⟩ })
  else .stuck .nodeStoreFull

/-! ## Taking a fault, and the only way out of one -/

/-- Fault entry (R232): `ERR` is written, `DONE` and `BUSY` fall, every earlier write stands. What lives only inside a
command (`PQ`, `SEEN`, the open nodes) does not survive it (R28, R29). -/
def enterFault (f : BlockFault) (s : State) : State :=
  { s with err := f.toErr, done := false, busy := false, pq := [], hdr := none }

/-- The code table a reset leaves: unspecified in all three fields, a code of at most 256 bits (R27, R39, U8). -/
def unspecifiedCt (k : Nat) : Vector CtEntry 257 :=
  Vector.ofFn fun x =>
    let e := Config.unspecifiedEntry k x
    ⟨e.present, e.code.take Config.maxLen⟩

/-- The reset state of the block (R39, R211, R261), from hardware reset and from SRESET alike; the only way out of a
fault (R235). The channels are not touched; `NODE` and `CT` come back unspecified. -/
def blockReset (s : State) : State :=
  { State.reset with
    node := Vector.ofFn (Config.unspecifiedNode s.free)
    ct := unspecifiedCt s.free
    input := s.input
    output := s.output
    host := s.host
    record := s.record
    free := s.free + 1 }

/-! ## The steps common to every command -/

/-- Acceptance, step (3): `DONE <- 0`, `BUSY <- 1` (R212). -/
def accept (s : State) : State := { s with done := false, busy := true }

/-- Completion: `BUSY <- 0`, `DONE <- 1`; what lives only inside a command is gone (R214, R28, R29). -/
def complete (s : State) : State := { s with done := true, busy := false, pq := [], hdr := none }

/-- The end of a command whose body ended with `r` (R214, R232). -/
def finish (r : Result State) : Host.Outcome State Fault Refusal :=
  match r with
  | .ok s => .next (complete s)
  | .raised f s => .next (enterFault f s)
  | .refused x => .refused x
  | .stuck x => .fault x

/-- Whether a command other than SRESET is ignored: the block is busy (R31, R264) or has a fault (R212, R236). -/
def ignores (s : State) : Bool := s.busy || s.errf

/-- A command other than SRESET: ignored, or accepted, checked, run and ended (R212 to R214). -/
def runCommand (n : Needs) (body : State → Result State) (s : State) : Host.Outcome State Fault Refusal :=
  if ignores s then .next s
  else match failedNeed n (accept s) with
    | some f => .next (enterFault f (accept s))
    | none => finish (body (accept s))

/-- A write to `CMD` of a word that is no command: ignored like every command, else `ILLEGAL_CMD` (R93, R212, R225). -/
def illegalCommand (s : State) : State := if ignores s then s else enterFault .illegalCmd s

end Sys2Proof.Machine
end

