-- ==== Sys2Proof/Machine/Control.lean ====
section
/-! DEFINITION. The control commands NOP and SRESET (`46_control.md` R210, R211). -/

namespace Sys2Proof.Machine

/-- NOP (R210): nothing beyond the common steps. -/
def execNop (s : State) : Host.Outcome State Fault Refusal := runCommand needsNothing .ok s

/-- SRESET (R211): accepted with or without a fault, it leaves the reset state and does not set `DONE`. -/
def execSreset (s : State) : Host.Outcome State Fault Refusal :=
  if s.busy then .next s else .next (blockReset s)

end Sys2Proof.Machine
end

