-- ==== Sys2Proof/Machine/Tree.lean ====
section
/-! DEFINITION. The tree the node store holds (`10_state.md` R25) and what the commands derive from it: its leaves, its
codes (`42_code_generator.md` R140) and its header (`43_header_codec.md` R150). -/

namespace Sys2Proof.Machine

/-- The shape and the leaf symbols of a tree (R24, R156). -/
inductive Tree where
  | leaf (symbol : Sym)
  | node (left right : Tree)
  deriving DecidableEq, Repr

/-- The tree under index `i`, at most `fuel` levels deep; `none` when the store holds no tree there. -/
def treeAt (node : Vector Node 513) : Nat → NodeIdx → Option Tree
  | 0, _ => none
  | fuel + 1, i =>
    match node[i] with
    | .leaf x _ => some (.leaf x)
    | .internal _ l r =>
      match treeAt node fuel l, treeAt node fuel r with
      | some tl, some tr => some (.node tl tr)
      | _, _ => none

/-- The tree under `ROOT`. A tree of 513 nodes has at most 513 levels (R25). -/
def treeOf (s : State) : Option Tree := treeAt s.node 513 s.root

/-- The leaf symbols, left to right. -/
def Tree.leaves : Tree → List Sym
  | .leaf x => [x]
  | .node l r => l.leaves ++ r.leaves

/-- The code of a symbol: its root-to-leaf path, 0 for left and 1 for right (R99, R140). -/
def Tree.path (x : Sym) : Tree → Option (List Bool)
  | .leaf y => if x = y then some [] else none
  | .node l r =>
    match l.path x with
    | some p => some (false :: p)
    | none =>
      match r.path x with
      | some p => some (true :: p)
      | none => none

/-- The header tokens of a tree in preorder (R96, R150). -/
def Tree.tokens : Tree → List HdrToken
  | .leaf x => [.leaf (BitVec.ofNat 9 x.val)]
  | .node l r => .internal :: (l.tokens ++ r.tokens)

/-- The bits of a list of header tokens, one after the other (R96). -/
def tokenBits (ts : List HdrToken) : List Bool := ts.flatMap encodeToken

/-- The header of a tree: `Ser(ROOT)` (R150). -/
def Tree.header (t : Tree) : List Bool := tokenBits t.tokens

/-- `Walk(i, path)` of R140: store the path at every leaf, left subtree first. -/
def walk : Tree → List Bool → Vector CtEntry 257 → Vector CtEntry 257
  | .leaf x, path, ct => ct.set x.val ⟨true, path⟩
  | .node l r, path, ct => walk r (path ++ [true]) (walk l (path ++ [false]) ct)

end Sys2Proof.Machine
end

