-- ==== Sys2Proof/Machine/CodeGen.lean ====
section
/-! DEFINITION. The code generator command GENCODES (`42_code_generator.md`). -/

namespace Sys2Proof.Machine

/-- The body of GENCODES (R140): every entry absent, then the walk, then `CT_VALID <- 1`. -/
def bodyGencodes (s : State) : Result State :=
  match treeOf s with
  | none => .stuck .treeMalformed
  | some t => .ok { s with ct := walk t [] (Vector.replicate 257 CtEntry.absent), ctValid := true }

/-- GENCODES (R140). -/
def execGencodes (s : State) : Host.Outcome State Fault Refusal := runCommand needsTree bodyGencodes s

end Sys2Proof.Machine
end

