-- ==== Sys2Proof/Machine/Counter.lean ====
section
/-! DEFINITION. The frequency counter commands FT_CLR and COUNT (`40_frequency_counter.md`). -/

namespace Sys2Proof.Machine

/-- The body of FT_CLR (R121). -/
def bodyFtClr (s : State) : Result State := .ok (ftClear s)

/-- FT_CLR (R121). -/
def execFtClr (s : State) : Host.Outcome State Fault Refusal := runCommand needsNothing bodyFtClr s

/-- The largest count, `2^32 - 1` (R122). -/
def maxCount : Word := 0xFFFFFFFF

/-- The scanning loop of R122. The number bounds the passes: one for each whole byte left. -/
def countLoop : Nat → State → Result State
  | 0, s => .ok s
  | k + 1, s =>
    match inRead 8 s with
    | none => .ok s
    | some (r, s1) =>
      let b := BitVec.ofNat 8 r
      if ftRead s1 (byteSym b) = maxCount then .raised (.countOverflow b) s1
      else countLoop k (ftWrite s1 (byteSym b) (ftRead s1 (byteSym b) + 1))

/-- The body of COUNT (R122): clear, scan to exhaustion, reset the input. -/
def bodyCount (s : State) : Result State :=
  (countLoop (bitsLeft s / 8) (ftClear s)).bind fun s1 => .ok (inReset s1)

/-- COUNT (R122). -/
def execCount (s : State) : Host.Outcome State Fault Refusal := runCommand needsNothing bodyCount s

end Sys2Proof.Machine
end

