-- ==== Sys2Proof/Machine/HeaderCodec.lean ====
section
/-! DEFINITION. The header codec: WR_HEADER, RD_HEADER and the two header tokens as read (`43_header_codec.md`).
RD_HEADER is the run of the token machine of R154, R155 with the explicit stack of open nodes R157 allows; `rdNode` is
the recursive pseudocode of R152, kept beside it as the reference it is compared with. -/

namespace Sys2Proof.Machine

/-! ## WR_HEADER -/

/-- The body of WR_HEADER (R150): the preorder listing of the tree. -/
def bodyWrHeader (s : State) : Result State :=
  match treeOf s with
  | none => .stuck .treeMalformed
  | some t => outBits t.header s

/-- WR_HEADER (R150). -/
def execWrHeader (s : State) : Host.Outcome State Fault Refusal := runCommand needsTreeOut bodyWrHeader s

/-! ## The token machine -/

/-- The start of RD_HEADER (R152): flags down, `NCOUNT` 0, `SEEN` clear, no open node. -/
def startHeader (s : State) : State :=
  { s with treeValid := false, ctValid := false, ncount := 0,
           hdr := some ⟨Vector.replicate 257 false, []⟩ }

/-- Read one header token from the input (R152): the tag bit, then nine bits after a 1. A symbol field that is cut
short leaves the tag bit read and nothing else (R64). -/
def fetchToken (s : State) : Except (BlockFault × State) (HdrToken × State) :=
  match decodeToken (unread s) with
  | .ok (t, n) => .ok (t, advance n s)
  | .error .shortSymbol => .error (.eofSymbol, advance 1 s)
  | .error _ => .error (.eofTag, s)

/-- A complete subtree with root `i` is handed to the innermost open node: it becomes the left child, or it closes the
node, which is then constructed and handed on; with no node open it is the root (R152, R154). -/
def closeSubtree (seen : Vector Bool 257) : List (Option NodeIdx) → NodeIdx → State → Result State
  | [], i, s => .ok { s with root := i, treeValid := true, hdr := none }
  | none :: rest, i, s => .ok { s with hdr := some ⟨seen, some i :: rest⟩ }
  | some l :: rest, i, s =>
    (alloc (.internal 0 l i) s).bind fun (j, s1) => closeSubtree seen rest j s1

/-- Token HDR_INTERNAL at depth `|stack|` (R154): refused at depth 256, else one more node is open. -/
def readInternal (h : HeaderRead) (s : State) : Result State :=
  if Config.maxDepth ≤ h.stack.length then .raised .tooDeep s
  else .ok { s with hdr := some { h with stack := none :: h.stack } }

/-- The checks of a leaf's symbol field, in order (R155, R231): its range, then `SEEN`. -/
def checkSymbol (seen : Vector Bool 257) (v : BitVec 9) : Except BlockFault Sym :=
  if h : v.toNat < 257 then
    if seen[v.toNat] then .error (.dupSymbol ⟨v.toNat, h⟩) else .ok ⟨v.toNat, h⟩
  else .error (.symRange v)

/-- Token HDR_LEAF (R155): checks, mark, construct the leaf with weight 0, hand it on. -/
def readLeaf (h : HeaderRead) (v : BitVec 9) (s : State) : Result State :=
  match checkSymbol h.seen v with
  | .error f => .raised f s
  | .ok x =>
    (alloc (.leaf x 0) s).bind fun (i, s1) => closeSubtree (h.seen.set x.val true) h.stack i s1

/-- What a header token does, the token itself being read already (R154, R155). -/
def applyToken (t : HdrToken) (s : State) : Result State :=
  match s.hdr with
  | none => .refused .tokenOutsideHeader
  | some h =>
    match t with
    | .internal => readInternal h s
    | .leaf v => readLeaf h v s

/-- The end of one token step (`step` has moved the input past the token's bits, log entry 8): the header goes on, or RD_HEADER completes, or a fault is taken. -/
def finishToken (r : Result State) : Host.Outcome State Fault Refusal :=
  match r with
  | .ok s => if s.hdr.isSome then .next s else finish (.ok s)
  | r => finish r

/-- HDR_INTERNAL (R154). -/
def execHdrInternal (s : State) : Host.Outcome State Fault Refusal := finishToken (applyToken .internal s)

/-- HDR_LEAF (R155). -/
def execHdrLeaf (v : BitVec 9) (s : State) : Host.Outcome State Fault Refusal := finishToken (applyToken (.leaf v) s)

/-! ## RD_HEADER -/

/-- Read tokens until the header is complete. The number bounds the tokens: each takes at least one of the bits left,
and with no bit left a tag bit is missing (R157). -/
def readTokens : Nat → State → Result State
  | 0, s => .raised .eofTag s
  | k + 1, s =>
    match fetchToken s with
    | .error (f, s1) => .raised f s1
    | .ok (t, s1) =>
      (applyToken t s1).bind fun s2 => if s2.hdr.isSome then readTokens k s2 else .ok s2

/-- The body of RD_HEADER (R152): the run of the token machine from the start to the end of the header. -/
def bodyRdHeader (s : State) : Result State := readTokens (bitsLeft s) (startHeader s)

/-- RD_HEADER (R152). -/
def execRdHeader (s : State) : Host.Outcome State Fault Refusal := runCommand needsNothing bodyRdHeader s

/-! ## The recursive pseudocode of R152 -/

/-- `RdNode(depth)` of R152, by recursion on the number of levels still allowed, `256 - depth`. It answers the index
of the node it constructed and keeps `SEEN` beside the state. -/
def rdNode : Nat → Vector Bool 257 → State → Result (NodeIdx × Vector Bool 257 × State)
  | levels, seen, s =>
    match inRead 1 s with
    | none => .raised .eofTag s
    | some (t, s1) =>
      if t = 1 then
        match inRead 9 s1 with
        | none => .raised .eofSymbol s1
        | some (v, s2) =>
          if h : v < 257 then
            if seen[v] then .raised (.dupSymbol ⟨v, h⟩) s2
            else (alloc (.leaf ⟨v, h⟩ 0) s2).bind fun (i, s3) => .ok (i, seen.set v true, s3)
          else .raised (.symRange (BitVec.ofNat 9 v)) s2
      else
        match levels with
        | 0 => .raised .tooDeep s1
        | d + 1 =>
          (rdNode d seen s1).bind fun (l, seen1, s2) =>
            (rdNode d seen1 s2).bind fun (r, seen2, s3) =>
              (alloc (.internal 0 l r) s3).bind fun (i, s4) => .ok (i, seen2, s4)

/-- The pseudocode of R152 around `RdNode(0)`. -/
def rdHeaderRecursive (s : State) : Result State :=
  (rdNode Config.maxDepth (Vector.replicate 257 false)
      { s with treeValid := false, ctValid := false, ncount := 0, hdr := none }).bind fun (r, _, s1) =>
    .ok { s1 with root := r, treeValid := true }

end Sys2Proof.Machine
end

