-- ==== Sys2Proof/Machine/TreeBuilder.lean ====
section
/-! DEFINITION. The tree builder command BUILD (`41_tree_builder.md`). -/

namespace Sys2Proof.Machine

/-- `TIE_ORDER`: whether index `a` leaves the queue before index `b`, by the key (weight, index) (R28, R131). -/
def keyLess (node : Vector Node 513) (a b : NodeIdx) : Bool :=
  let wa := (nodeWeight node[a]).toNat
  let wb := (nodeWeight node[b]).toNat
  decide (wa < wb) || (wa == wb && decide (a < b))

/-- The index with the smallest key of a first index and the rest. -/
def minIndex (node : Vector Node 513) : NodeIdx → List NodeIdx → NodeIdx
  | m, [] => m
  | m, x :: xs => minIndex node (if keyLess node x m then x else m) xs

/-- `RemoveMin(PQ)` (R131): the index with the smallest key, and the queue without it; `none` of an empty queue. -/
def removeMin (node : Vector Node 513) : List NodeIdx → Option (NodeIdx × List NodeIdx)
  | [] => none
  | x :: xs => some (minIndex node x xs, (x :: xs).erase (minIndex node x xs))

/-- Allocate a node and put its index into the queue (R130). -/
def enqueue (nd : Node) (s : State) : Result State :=
  (alloc nd s).bind fun (i, s1) => .ok { s1 with pq := s1.pq ++ [i] }

/-- The first loop of R130: a leaf for each symbol with a non-zero count, in the order given. -/
def buildLeaves : List Sym → State → Result State
  | [], s => .ok s
  | x :: xs, s =>
    if ftRead s x = 0 then buildLeaves xs s
    else (enqueue (.leaf x ((ftRead s x).setWidth 41)) s).bind (buildLeaves xs)

/-- The second loop of R130, `while |PQ| > 1`. The number bounds the rounds, each of which shortens the queue. -/
def combineLoop : Nat → State → Result State
  | 0, s => .ok s
  | k + 1, s =>
    match removeMin s.node s.pq with
    | none => .ok s
    | some (a, q1) =>
      match removeMin s.node q1 with
      | none => .ok s
      | some (b, q2) =>
        (enqueue (.internal (nodeWeight s.node[a] + nodeWeight s.node[b]) a b) { s with pq := q2 }).bind
          (combineLoop k)

/-- The end of R130: `ROOT <- the one element of PQ`, `TREE_VALID <- 1`; `NCOUNT` has been counted up with `n`. -/
def takeRoot (s : State) : Result State :=
  match s.pq with
  | [] => .stuck .queueEmpty
  | r :: _ => .ok { s with root := r, treeValid := true, pq := [] }

/-- The body of BUILD (R130). -/
def bodyBuild (s : State) : Result State :=
  (buildLeaves (List.finRange 257) { s with ctValid := false, ncount := 0, pq := [] }).bind fun s1 =>
    (combineLoop s1.pq.length s1).bind takeRoot

/-- BUILD (R130). -/
def execBuild (s : State) : Host.Outcome State Fault Refusal := runCommand needsNothing bodyBuild s

end Sys2Proof.Machine
end

