-- ==== Sys2Proof/Machine/Encoder.lean ====
section
/-! DEFINITION. The bitstream encoder: WR_MAGIC, ENC_PAYLOAD, CLOSE_OUT, COMPRESS (`44_bitstream_encoder.md`). The
bodies take `MAGIC` as an argument (`00_scope.md` R5); the meanings give them the block's constant. -/

namespace Sys2Proof.Machine

/-- The body of WR_MAGIC (R170): `OutWrite(32, MAGIC)`. -/
def bodyWrMagic (m : Word) (s : State) : Result State := outBits (bitsMSB 32 m.toNat) s

/-- WR_MAGIC (R170). -/
def execWrMagic (s : State) : Host.Outcome State Fault Refusal := runCommand needsOut (bodyWrMagic magic) s

/-- `if CT[x].present = 0: raise NO_CODE` and `OutBits(CT[x].code)` (R171). -/
def writeCode (x : Sym) (s : State) : Result State :=
  if (s.ct[x]).present then outBits (s.ct[x]).code s else .raised (.noCode x) s

/-- The emitting loop of R171. The number bounds the passes: one for each whole byte of the input. -/
def encLoop : Nat → State → Result State
  | 0, s => .ok s
  | k + 1, s =>
    match inRead 8 s with
    | none => .ok s
    | some (r, s1) => (writeCode (byteSym (BitVec.ofNat 8 r)) s1).bind (encLoop k)

/-- The body of ENC_PAYLOAD (R171): every byte's code, then the marker's. -/
def bodyEncPayload (s : State) : Result State :=
  (encLoop (s.input.data.length / 8) (inReset s)).bind (writeCode Config.eos)

/-- ENC_PAYLOAD (R171). -/
def execEncPayload (s : State) : Host.Outcome State Fault Refusal := runCommand needsCtOut bodyEncPayload s

/-- The body of CLOSE_OUT (R173): `OutClose()`, then `OCLOSED <- 1`. -/
def bodyCloseOut (s : State) : Result State :=
  (outClose s).bind fun s1 => .ok { s1 with oclosed := true }

/-- CLOSE_OUT (R173). -/
def execCloseOut (s : State) : Host.Outcome State Fault Refusal := runCommand needsOut bodyCloseOut s

/-- The body of COMPRESS (R174): the bodies of the seven steps in order. DESIGN CHOICE (log entry 19): started at
`IN.pos` ≠ 0, which R263 rules out of a call, it still runs these bodies as written, and ENC_PAYLOAD may then meet a
byte COUNT did not see and raise `NO_CODE`, which R174, R176, R177 and R221 leave out. -/
def bodyCompress (m : Word) (s : State) : Result State :=
  (bodyCount s).bind fun s => (bodyBuild s).bind fun s => (bodyGencodes s).bind fun s =>
    (bodyWrMagic m s).bind fun s => (bodyWrHeader s).bind fun s => (bodyEncPayload s).bind bodyCloseOut

/-- COMPRESS (R174). -/
def execCompress (s : State) : Host.Outcome State Fault Refusal := runCommand needsOut (bodyCompress magic) s

end Sys2Proof.Machine
end

