-- ==== Sys2Proof/Machine/Decoder.lean ====
section
/-! DEFINITION. The bitstream decoder: RD_MAGIC, DEC_PAYLOAD, DECOMPRESS (`45_bitstream_decoder.md`). -/

namespace Sys2Proof.Machine

/-- The body of RD_MAGIC (R190). -/
def bodyRdMagic (m : Word) (s : State) : Result State :=
  match inRead 32 s with
  | none => .raised .shortMagic s
  | some (r, s1) => if r = m.toNat then .ok s1 else .raised .badMagic s1

/-- RD_MAGIC (R190). -/
def execRdMagic (s : State) : Host.Outcome State Fault Refusal := runCommand needsNothing (bodyRdMagic magic) s

/-- `CUR <- ROOT ; DSTATE <- AT_ROOT` (R192). -/
def toRoot (s : State) : State := { s with cur := s.root, dstate := .atRoot }

/-- The walk arrives at node `c` (R193): an internal node, the marker's leaf, or a byte's leaf, which is emitted. -/
def arrive (c : NodeIdx) (s : State) : Result State :=
  match s.node[c] with
  | .internal _ _ _ => .ok { s with cur := c, dstate := .atInternal }
  | .leaf x _ =>
    if x = Config.eos then .ok { s with cur := c, dstate := .done }
    else (outBits (bitsMSB 8 x.val) s).bind fun s1 => .ok (toRoot s1)

/-- One step of the decode walk (R193): from an internal node it takes one bit and goes to a child; from a leaf, which
it stands at only when the root is one, it takes none (R194). -/
def decStep (s : State) : Result State :=
  match s.node[s.cur] with
  | .internal _ l r =>
    match inRead 1 s with
    | none => .raised .truncatedStream s
    | some (b, s1) => arrive (if b = 0 then l else r) s1
  | .leaf x _ =>
    if x = Config.eos then .ok { s with dstate := .done } else .raised (.degenerateTree x) s

/-- The run of the decode walk until `DONE` or a fault (R192, R193). The number bounds the bits left. -/
def decRun : Nat → State → Result State
  | 0, s => decStep s
  | k + 1, s => (decStep s).bind fun s1 => if s1.decDone then .ok s1 else decRun k s1

/-- The body of DEC_PAYLOAD (R192). -/
def bodyDecPayload (s : State) : Result State := decRun (bitsLeft s) (toRoot s)

/-- DEC_PAYLOAD (R192). -/
def execDecPayload (s : State) : Host.Outcome State Fault Refusal := runCommand needsTreeOut bodyDecPayload s

/-- The body of DECOMPRESS (R195): the bodies of the four steps in order. -/
def bodyDecompress (m : Word) (s : State) : Result State :=
  (bodyRdMagic m s).bind fun s => (bodyRdHeader s).bind fun s => (bodyDecPayload s).bind bodyCloseOut

/-- DECOMPRESS (R195). -/
def execDecompress (s : State) : Host.Outcome State Fault Refusal := runCommand needsOut (bodyDecompress magic) s

end Sys2Proof.Machine
end

