-- ==== Sys2Proof/Machine/RegSpace.lean ====
section
/-! DEFINITION. The host's register space (`10_state.md` R35, R36, `20_memory.md` R72), what the host and the
environment do between commands (`70_reset_and_hazards.md` R260, R263, R270), and what a step runs next. -/

namespace Sys2Proof.Machine

/-- The word at a register address; `none` is "an unspecified value" (R35, R36, R264). Every address R35 does not list
reads 0. While `BUSY` = 1 only `STATUS` has a value. -/
def regWord (s : State) (addr : Addr) : Option Word :=
  let a := addr.toNat
  if a = 1 then some (statusWord s)
  else if s.busy then none
  else if a = 2 then some (errWord s.err)
  else if a = 3 then some (BitVec.ofNat 32 s.root.val)
  else if a = 4 then some (BitVec.ofNat 32 s.ncount.val)
  else if a = 5 then some (dwalkWord s)
  else if a = 6 then some magic
  else if a < 0x100 then some 0
  else if h : a - 0x100 < 257 then some (ftRead s ⟨a - 0x100, h⟩)
  else if a < 0x1000 then some 0
  else if h : (a - 0x1000) / 4 < 513 then
    if s.treeValid && decide ((a - 0x1000) / 4 < s.ncount.val) then
      some (nodeWord s.node[(a - 0x1000) / 4] ((a - 0x1000) % 4))
    else none
  else if a < 0x2000 then some 0
  else if h : (a - 0x2000) / 16 < 257 then
    if s.ctValid then some (entryWord s.ct[(a - 0x2000) / 16] ((a - 0x2000) % 16)) else none
  else some 0

/-- `HostRead(a)`: the word goes to the record; nothing else changes, but for the free value an unspecified read
draws (R36, R72, R104). -/
def hostRead (addr : Addr) (s : State) : State :=
  match regWord s addr with
  | some v => { s with record := s.record ++ [⟨addr, v⟩] }
  | none => { s with record := s.record ++ [⟨addr, Config.unspecifiedWord s.free⟩], free := s.free + 1 }

/-- `HostWrite(a, v)` to an address other than `CMD`: `FT[0..255]` is written; every other write, and any write while
`BUSY` = 1, is ignored (R35, R36, R264). -/
def hostWrite (addr : Addr) (v : Word) (s : State) : State :=
  let a := addr.toNat
  if s.busy then s
  else if h : 0x100 ≤ a ∧ a - 0x100 < 257 then ftWrite s ⟨a - 0x100, h.2⟩ v
  else s

/-- The word address of `CMD` (R31). -/
def cmdAddr : Addr := 0

/-- What a step is to do. -/
inductive Fetched where
  /-- Run this instruction in this state. -/
  | instr (i : Instr) (s : State)
  /-- No instruction: an event whose effect is this state. -/
  | event (s : State)
  deriving DecidableEq, Repr

/-- A word written to `CMD`: the command it encodes, or `ILLEGAL_CMD` (R212). -/
def fetchCommand (w : Word) (s : State) : Fetched :=
  match decodeCommand w with
  | .ok i => .instr i s
  | .error _ => .event (illegalCommand s)

/-- One action of the host or of the environment (R270). -/
def fetchHost (a : HostAction) (s : State) : Fetched :=
  match a with
  | .read addr => .event (hostRead addr s)
  | .write addr v => if addr = cmdAddr then fetchCommand v s else .event (hostWrite addr v s)
  | .reset => .event (blockReset s)
  | .openSource bytes => .event { s with input := ⟨bytesToBits bytes, 0⟩ }
  | .openDestination => .event { s with output := ⟨[], false⟩ }

/-- What runs next: the next header token while a header is being read (the finer machine of R154, R155), else the
host's next action, else nothing, the block being idle (R239, R260). -/
def fetch (s : State) : Fetched :=
  match s.hdr with
  | some _ =>
    match fetchToken s with
    | .ok (t, s1) => .instr t.toInstr s1
    | .error (f, s1) => .event (enterFault f s1)
  | none =>
    match s.host with
    | [] => .event s
    | a :: rest => fetchHost a { s with host := rest }

/-- What a reader of the destination sees: the whole bytes written, a partial last byte being held back until the
channel is closed (R38, R77, R268). -/
def destination (s : State) : List Byte := wholeBytes s.output.bits

/-- Put an instruction where the next step finds it: a command word as the host's next write to `CMD`, the block not
busy; a header token as the next bits of the input, filled up to whole bytes with zeros, a header having just been
started. -/
def placeWord (s : State) (nbits w : Nat) : State :=
  match encodedOfTableWord nbits w with
  | .command v => { s with host := .write cmdAddr v :: s.host, busy := false, hdr := none }
  | .token bits =>
    startHeader { s with
      input := ⟨bits ++ List.replicate (padCount bits.length) false, 0⟩
      done := false
      busy := true }

end Sys2Proof.Machine
end

