-- ==== Sys2Proof/Machine/Dispatch.lean ====
section
/-! DEFINITION. The dispatcher: one arm for each instruction. -/

namespace Sys2Proof.Machine

def exec (i : Instr) (s : State) : Host.Outcome State Fault Refusal :=
  match i with
  | .nop => Sys2Proof.Machine.execNop s
  | .sreset => Sys2Proof.Machine.execSreset s
  | .ftClr => Sys2Proof.Machine.execFtClr s
  | .count => Sys2Proof.Machine.execCount s
  | .build => Sys2Proof.Machine.execBuild s
  | .gencodes => Sys2Proof.Machine.execGencodes s
  | .wrMagic => Sys2Proof.Machine.execWrMagic s
  | .wrHeader => Sys2Proof.Machine.execWrHeader s
  | .encPayload => Sys2Proof.Machine.execEncPayload s
  | .closeOut => Sys2Proof.Machine.execCloseOut s
  | .rdMagic => Sys2Proof.Machine.execRdMagic s
  | .rdHeader => Sys2Proof.Machine.execRdHeader s
  | .decPayload => Sys2Proof.Machine.execDecPayload s
  | .compress => Sys2Proof.Machine.execCompress s
  | .decompress => Sys2Proof.Machine.execDecompress s
  | .hdrInternal => Sys2Proof.Machine.execHdrInternal s
  | .hdrLeaf v => Sys2Proof.Machine.execHdrLeaf v s

end Sys2Proof.Machine
end

