-- ==== Sys2Proof/Machine/Step.lean ====
section
/-! DEFINITION. One step: run what is fetched next (`00_scope.md` R8, `20_memory.md` R76). -/

namespace Sys2Proof.Machine

/-- One step of the machine: one command, one host access, one event of the environment, or, inside a header that is
being read, one header token. -/
def step (s : State) : Host.Outcome State Fault Refusal :=
  match fetch s with
  | .instr i s1 => exec i s1
  | .event s1 => .next s1

/-- `s` with the instruction of a table row placed where the next step fetches it. -/
def State.withFetchWord (s : State) (nbits w : Nat) : State := placeWord s nbits w

end Sys2Proof.Machine
end

