-- ==== Sys2Proof/Safety.lean ====
section
/-! DEFINITION. The terms in which claims about runs are stated: what the validity flags vouch for (`10_state.md` R25,
R27), the invariant of the machine between two commands, when a command runs, and when a call has succeeded
(`70_reset_and_hazards.md` R271). -/

namespace Sys2Proof

open Sys2Proof.Machine

/-! ## When a command runs -/

/-- No command is running and nothing that lives only inside one is there (R28, R29, R39). -/
def Idle (s : State) : Prop := s.busy = false ∧ s.pq = [] ∧ s.hdr = none

/-- The block is idle and without a fault, so that a command written to `CMD` is accepted (R212). -/
def Ready (s : State) : Prop := Idle s ∧ s.err.code = 0

/-- The instructions that are commands, as against header tokens (R92, R96). -/
def Instr.isCommand : Instr → Bool
  | .hdrInternal => false
  | .hdrLeaf _ => false
  | .nop => true
  | .sreset => true
  | .ftClr => true
  | .count => true
  | .build => true
  | .gencodes => true
  | .wrMagic => true
  | .wrHeader => true
  | .encPayload => true
  | .closeOut => true
  | .rdMagic => true
  | .rdHeader => true
  | .decPayload => true
  | .compress => true
  | .decompress => true

/-- Commands run one after the other, stopping where the model stops (R76, R104). -/
def execSeq : List Instr → State → Host.Outcome State Fault Refusal
  | [], s => .next s
  | i :: rest, s =>
    match exec i s with
    | .next t => execSeq rest t
    | .fault f => .fault f
    | .refused r => .refused r

/-- A call has succeeded: `DONE` = 1, `ERRF` = 0 and `OCLOSED` = 1 (R271). -/
def CallSucceeded (s : State) : Prop := s.done = true ∧ s.errf = false ∧ s.oclosed = true

/-! ## The reset state -/

/-- The block's part of the table of R39: everything the spec gives a value after a reset. -/
structure BlockIsReset (s : State) : Prop where
  byte_counts : ∀ x : Sym, x.val < 256 → ftRead s x = 0
  marker_count : ftRead s Config.eos = 1
  root_zero : s.root = 0
  ncount_zero : s.ncount = 0
  walk_at_root : s.dstate = .atRoot ∧ s.cur = 0
  status_zero : statusWord s = 0
  err_zero : s.err = ⟨0, 0, 0⟩
  magic_constant : regWord s 6 = some magic
  no_working_state : s.pq = [] ∧ s.hdr = none

/-! ## The tree -/

/-- Whether index `i` is a child of a node. -/
def isChild (n : Node) (i : NodeIdx) : Prop :=
  match n with
  | .leaf _ _ => False
  | .internal _ l r => l = i ∨ r = i

/-- Tree well-formedness, R25 (a) to (f). `NCOUNT ≤ 513` and the ranges of symbols and indices hold by type. -/
structure TreeWf (s : State) : Prop where
  /-- (a) -/
  count_pos : 1 ≤ s.ncount.val
  /-- (a) -/
  count_odd : s.ncount.val % 2 = 1
  /-- (b) -/
  root_last : s.root.val + 1 = s.ncount.val
  /-- (c) -/
  children_below : ∀ (i : NodeIdx) (w : Weight) (l r : NodeIdx), i.val < s.ncount.val →
    s.node[i] = .internal w l r → l < i ∧ r < i ∧ l ≠ r
  /-- (d) -/
  one_parent : ∀ i : NodeIdx, i.val < s.ncount.val → i ≠ s.root →
    ∃! j : NodeIdx, j.val < s.ncount.val ∧ isChild s.node[j] i
  /-- (d) -/
  root_no_parent : ∀ j : NodeIdx, j.val < s.ncount.val → ¬ isChild s.node[j] s.root
  /-- (e) -/
  leaves_distinct : ∀ (i j : NodeIdx) (x : Sym) (w w' : Weight), i.val < s.ncount.val → j.val < s.ncount.val →
    s.node[i] = .leaf x w → s.node[j] = .leaf x w' → i = j
  /-- (e) -/
  has_leaf : ∃ (i : NodeIdx) (x : Sym) (w : Weight), i.val < s.ncount.val ∧ s.node[i] = .leaf x w
  /-- (f) -/
  weight_sum : ∀ (i : NodeIdx) (w : Weight) (l r : NodeIdx), i.val < s.ncount.val →
    s.node[i] = .internal w l r → w.toNat = (nodeWeight s.node[l]).toNat + (nodeWeight s.node[r]).toNat

/-- The number of symbols with a non-zero count, `L` of R132. -/
def symbolCount (s : State) : Nat := (List.finRange 257).countP fun x => ftRead s x != 0

/-- The sum of all 257 counts (R133). -/
def totalCount (s : State) : Nat := ((List.finRange 257).map fun x => (ftRead s x).toNat).sum

/-- The weighted code length of a tree whose root is at depth `d`: the sum over leaves of count times depth (R134). -/
def Machine.Tree.weightedLength (count : Sym → Nat) : Nat → Tree → Nat
  | d, .leaf x => count x * d
  | d, .node l r => l.weightedLength count (d + 1) + r.weightedLength count (d + 1)

/-! ## The code table -/

/-- The code-table entry a tree gives a symbol: its path if it is a leaf, else absent (R27). -/
def entryOf (t : Tree) (x : Sym) : CtEntry :=
  match t.path x with
  | some p => ⟨true, p⟩
  | none => CtEntry.absent

/-- What `CT_VALID` vouches for (R27): the table was generated from the tree in the node store. -/
def CtWf (s : State) : Prop := ∃ t : Tree, treeOf s = some t ∧ ∀ x : Sym, s.ct[x] = entryOf t x

/-- The codes of a byte sequence in a tree, one after the other; `none` if a byte is no leaf (R94, R99). -/
def codesOf (t : Tree) : List Byte → Option (List Bool)
  | [] => some []
  | b :: bs =>
    match t.path (byteSym b), codesOf t bs with
    | some p, some q => some (p ++ q)
    | _, _ => none

/-- The node a bit sequence leads to from node `i`, 0 to the left child and 1 to the right; `none` if it goes on past a
leaf (R99, R193). -/
def nodeAlong (node : Vector Node 513) : List Bool → NodeIdx → Option NodeIdx
  | [], i => some i
  | b :: q, i =>
    match node[i] with
    | .leaf _ _ => none
    | .internal _ l r => nodeAlong node q (if b then r else l)

/-- How often each byte value occurs, as the stored counts (R123). -/
def countsOf (bs : List Byte) : Vector Word 256 :=
  Vector.ofFn fun i => BitVec.ofNat 32 (bs.count (BitVec.ofNat 8 i.val))

/-! ## Preconditions as a table -/

/-- The rows of R213's table: needs `TREE_VALID` = 1, needs `CT_VALID` = 1, needs `OCLOSED` = 0. -/
def needFlags : Instr → Bool × Bool × Bool
  | .nop => (false, false, false)
  | .sreset => (false, false, false)
  | .ftClr => (false, false, false)
  | .count => (false, false, false)
  | .build => (false, false, false)
  | .rdMagic => (false, false, false)
  | .rdHeader => (false, false, false)
  | .gencodes => (true, false, false)
  | .wrMagic => (false, false, true)
  | .wrHeader => (true, false, true)
  | .encPayload => (false, true, true)
  | .closeOut => (false, false, true)
  | .decPayload => (true, false, true)
  | .compress => (false, false, true)
  | .decompress => (false, false, true)
  | .hdrInternal => (false, false, false)
  | .hdrLeaf _ => (false, false, false)

/-- `INFO` of the first check that fails, in the order tree, table, output (R213). -/
def firstFailed (i : Instr) (s : State) : Option (BitVec 4) :=
  if (needFlags i).1 = true ∧ s.treeValid = false then some 1
  else if (needFlags i).2.1 = true ∧ s.ctValid = false then some 2
  else if (needFlags i).2.2 = true ∧ s.oclosed = true then some 3
  else none

/-! ## The invariant -/

/-- What holds between any two steps of a run that starts at reset. -/
structure Inv (s : State) : Prop where
  /-- Commands are atomic: none is seen running (R8, R264). -/
  idle : Idle s
  /-- Never both `DONE` and `ERRF` (R271). -/
  done_no_fault : s.done = true → s.err.code = 0
  /-- `ERR` is 0 or one of the values of R221's table (U10). -/
  err_listed : s.err = ⟨0, 0, 0⟩ ∨ ∃ f : BlockFault, s.err = f.toErr
  /-- `TREE_VALID` vouches for R25. -/
  tree : s.treeValid = true → TreeWf s
  /-- `CT_VALID` = 1 implies `TREE_VALID` = 1 (R213). -/
  ct_needs_tree : s.ctValid = true → s.treeValid = true
  /-- `CT_VALID` vouches for R27. -/
  ct : s.ctValid = true → CtWf s
  /-- A code has at most `MAX_LEN` = 256 bits (R27, R144). -/
  code_len : ∀ x : Sym, (s.ct[x]).len ≤ 256
  /-- The source is a byte stream (R61). -/
  in_bytes : s.input.data.length % 8 = 0
  /-- The position is inside the source (R61). -/
  in_pos : s.input.pos ≤ s.input.data.length
  /-- A closed destination is a whole number of bytes (R62). -/
  out_bytes : s.output.closed = true → s.output.bits.length % 8 = 0

end Sys2Proof
end

