-- ==== Sys2Proof/Certificates/Slice0/Obligations.lean ====
section
/-! DEFINITION. The statements for the provers. Each docstring names the rules of the spec it formalises. `Ready s`
says that the block is idle and without a fault (R212); `Idle s` alone allows a fault. -/

open Sys2Proof Sys2Proof.Machine

/-! ## Reset and the invariant -/

/-- R39, R261: the reset state, SRESET from any state in which the block is not busy, and the hardware reset all leave
the block as the table says, and neither reset touches the channels. -/
def Obligations.ResetsLeaveTheResetTable : Prop :=
  BlockIsReset State.reset ∧
  (∀ s : State, s.busy = false → ∃ t, exec .sreset s = .next t ∧ BlockIsReset t ∧
    t.input = s.input ∧ t.output = s.output ∧ t.host = s.host ∧ t.record = s.record) ∧
  (∀ (s : State) (rest : List HostAction), s.hdr = none → s.host = .reset :: rest →
    ∃ t, step s = .next t ∧ BlockIsReset t ∧
      t.input = s.input ∧ t.output = s.output ∧ t.host = rest ∧ t.record = s.record)

/-- The invariant holds at reset (the empty channels of reset are log entry 3's choice). -/
def Obligations.InvariantHoldsAtReset : Prop := Inv State.reset

/-- Every step keeps the invariant: no command is seen running, `DONE` and `ERRF` exclude each other (R271), `ERR` holds
a listed value (R221), `TREE_VALID` vouches for R25 and `CT_VALID` for R27, no code is longer than 256 bits (R144), and
the channels keep their shape (R61, R62). -/
def Obligations.StepKeepsInvariant : Prop := ∀ s t : State, Inv s → step s = .next t → Inv t

/-- R273, R132, R157: in a state that satisfies the invariant no command gets stuck, and a command is refused only for a
closed output channel that `OCLOSED` does not show (U16). -/
def Obligations.CommandsNeverGetStuck : Prop :=
  ∀ (s : State) (i : Instr), Inv s → i.isCommand = true →
    (∃ t, exec i s = .next t) ∨ (s.output.closed = true ∧ s.oclosed = false ∧ ∃ r, exec i s = .refused r)

/-! ## Decoding and the step -/

/-- R92, R96: words written out from the opcode map and tokens from the token format. -/
def Obligations.WordsOfTheSpecDecode : Prop :=
  decodeCommand 0x00000000 = .ok .nop ∧ decodeCommand 0x00000001 = .ok .sreset ∧
  decodeCommand 0x00000004 = .ok .build ∧ decodeCommand 0x0000000C = .ok .decPayload ∧
  decodeCommand 0x00000010 = .ok .compress ∧ decodeCommand 0x00000011 = .ok .decompress ∧
  decodeCommand 0x00000104 = .error .reservedBitsSet ∧ decodeCommand 0x0000000D = .error .unknownOpcode ∧
  decodeToken [false, true] = .ok (.internal, 1) ∧
  decodeToken [true, false, false, true, false, false, false, false, false, true, true] = .ok (.leaf 65, 10)

/-- R91, R92, R96, R97: decoding an encoded instruction gives it back, a token with whatever bits follow it; and a word
decodes to a command only if it is that command's word. -/
def Obligations.DecodingInvertsEncoding : Prop :=
  (∀ i : Instr, i.wellFormed = true → decode (encode i) = .ok i) ∧
  (∀ (k : HdrToken) (rest : List Bool), decodeToken (encodeToken k ++ rest) = .ok (k, (encodeToken k).length)) ∧
  (∀ (w : Word) (i : Instr), decodeCommand w = .ok i → encode i = .command w)

/-- R31, R212: a step whose next host action writes a command word to `CMD` runs that command, the action being taken
off the host's list. -/
def Obligations.StepRunsTheCommandWritten : Prop :=
  ∀ (s : State) (w : Word) (rest : List HostAction) (i : Instr),
    s.hdr = none → s.host = .write 0x0000 w :: rest → decodeCommand w = .ok i →
    step s = exec i { s with host := rest }

/-- The model's finer machine (log entry 8, DESIGN CHOICE; by R8 RD_HEADER as a whole is one transition): while a header
is being read, a step runs the token at the input's position, having moved past it. -/
def Obligations.StepRunsTheHeaderToken : Prop :=
  ∀ (s : State) (h : HeaderRead) (k : HdrToken) (n : Nat),
    s.hdr = some h → decodeToken (s.input.data.drop s.input.pos) = .ok (k, n) →
    step s = exec k.toInstr { s with input := ⟨s.input.data, s.input.pos + n⟩ }

/-- R93, R225: a word is not one of the fifteen exactly if it has a bit above bit 7 set or an opcode 0x0D to 0x0F or 0x12
to 0xFF; writing it raises `ILLEGAL_CMD`. That `DONE` falls with it, as R232 says of every raise, where R212 says that
nothing else changes, is the model's reading (log entry 17). -/
def Obligations.OtherWordsRaiseIllegalCmd : Prop :=
  ∀ w : Word,
    ((∀ i : Instr, encode i ≠ .command w) ↔
      w.toNat / 256 ≠ 0 ∨ (0x0D ≤ w.toNat % 256 ∧ w.toNat % 256 ≤ 0x0F) ∨ 0x12 ≤ w.toNat % 256) ∧
    ∀ (s : State) (rest : List HostAction),
      Ready s → s.host = .write 0x0000 w :: rest → (∀ i : Instr, encode i ≠ .command w) →
      step s = .next { s with host := rest, err := ⟨4, 0, 0⟩, done := false }

/-! ## Acceptance and preconditions -/

/-- R236: while `ERR.CODE ≠ 0` every write to `CMD` except the SRESET word is ignored: no state changes. -/
def Obligations.FaultedBlockIgnoresCommands : Prop :=
  ∀ (s : State) (w : Word) (rest : List HostAction),
    s.hdr = none → s.err.code ≠ 0 → w ≠ 0x00000001 → s.host = .write 0x0000 w :: rest →
    step s = .next { s with host := rest }

/-- R31, R264: a host write to any address while `BUSY` = 1 is ignored. -/
def Obligations.BusyBlockIgnoresHostWrites : Prop :=
  ∀ (s : State) (a : Addr) (v : Word) (rest : List HostAction),
    s.hdr = none → s.busy = true → s.host = .write a v :: rest → step s = .next { s with host := rest }

/-- R213: a command raises `BAD_SEQUENCE` exactly when a flag it needs fails, `INFO` naming the first that fails, with
nothing read or written. -/
def Obligations.PreconditionsAreChecked : Prop :=
  ∀ (s : State) (i : Instr), Ready s → i.isCommand = true →
    match firstFailed i s with
    | some k => exec i s = .next { s with err := ⟨5, k, 0⟩, done := false }
    | none => ∀ t, exec i s = .next t → t.err.code ≠ 5

/-- R235: a fault is left only by SRESET or hardware reset, which clear `ERR` and all flags and leave the channels;
otherwise `ERR` keeps the first fault. -/
def Obligations.OnlyAResetLeavesAFault : Prop :=
  ∀ s t : State, s.hdr = none → s.err.code ≠ 0 → step s = .next t →
    t.err = s.err ∨
    (t.err = ⟨0, 0, 0⟩ ∧ statusWord t = 0 ∧ t.input = s.input ∧ t.output = s.output ∧ ∃ rest, s.host = .reset :: rest ∨ s.host = .write 0x0000 0x00000001 :: rest)

/-- R214, R232, R271: a command that ran is over with `BUSY` = 0 and exactly one of `DONE` = 1 and `ERRF` = 1; SRESET
alone ends with both 0. -/
def Obligations.CommandEndsDoneOrFaulted : Prop :=
  ∀ (s t : State) (i : Instr), Ready s → i.isCommand = true → exec i s = .next t →
    t.busy = false ∧ (i ≠ .sreset → (t.done = true ↔ t.errf = false)) ∧
    (i = .sreset → t.done = false ∧ t.errf = false)

/-! ## Control -/

/-- R210: NOP sets `DONE` and changes nothing else; with a fault it is ignored. -/
def Obligations.NopOnlySetsDone : Prop :=
  (∀ s : State, Ready s → exec .nop s = .next { s with done := true }) ∧
  (∀ s : State, s.err.code ≠ 0 → exec .nop s = .next s)

/-! ## Frequency counter -/

/-- R121: FT_CLR sets every byte count to zero, leaves the marker's count 1, and changes nothing else but `DONE`. -/
def Obligations.FtClrClearsTheByteCounts : Prop :=
  ∀ s : State, Ready s → ∃ t, exec .ftClr s = .next t ∧
    t = { s with ft := t.ft, done := true } ∧
    (∀ x : Sym, x.val < 256 → ftRead t x = 0) ∧ ftRead t Config.eos = 1

/-- R122, R123: COUNT, started at any position with whole bytes `b` and a tail of fewer than 8 bits left to read, stores
how often each byte value occurs in `b` and resets the input; it completes exactly if no count passes `2^32 - 1`. -/
def Obligations.CountCountsTheBytes : Prop :=
  ∀ (s : State) (b : List Byte) (tail : List Bool), Ready s →
    s.input.data.drop s.input.pos = bytesToBits b ++ tail → tail.length < 8 →
    ((∀ x : Byte, b.count x < 2 ^ 32) →
      exec .count s = .next
        { s with ft := countsOf b, input := ⟨s.input.data, 0⟩, done := true } ∧
      (∀ x : Byte, ((countsOf b)[x.toNat]'x.isLt).toNat = b.count x) ∧
      (∀ x : Byte, (countsOf b)[x.toNat]'x.isLt ≠ 0 ↔ x ∈ b) ∧
      ((countsOf b).toList.map BitVec.toNat).sum = b.length) ∧
    (∀ t : State, exec .count s = .next t → t.errf = false → ∀ x : Byte, b.count x < 2 ^ 32)

/-- R228: a byte that occurs once more than `2^32 - 1` times raises `COUNT_OVERFLOW`; the counts are those of the bytes
before it, the position is after it, and the input is not reset. -/
def Obligations.CountOverflowIsReported : Prop :=
  ∀ (s : State) (b : List Byte) (x : Byte) (rest : List Bool), Ready s →
    s.input.data.drop s.input.pos = bytesToBits (b ++ [x]) ++ rest →
    (∀ y : Byte, b.count y < 2 ^ 32) → b.count x = 2 ^ 32 - 1 →
    exec .count s = .next
      { s with ft := countsOf b, input := ⟨s.input.data, s.input.pos + 8 * (b.length + 1)⟩,
               err := ⟨7, 0, x.setWidth 9⟩, done := false }

/-! ## Tree builder -/

/-- R131: `RemoveMin` takes out the one index whose key (weight, index) is smallest. -/
def Obligations.RemoveMinTakesTheSmallestKey : Prop :=
  ∀ (node : Vector Node 513) (pq : List NodeIdx), pq ≠ [] → pq.Nodup →
    ∃ i rest, removeMin node pq = some (i, rest) ∧ (i :: rest).Perm pq ∧
      ∀ j ∈ rest, (nodeWeight node[i]).toNat < (nodeWeight node[j]).toNat ∨
        ((nodeWeight node[i]).toNat = (nodeWeight node[j]).toNat ∧ i < j)

/-- R130, R132: BUILD always completes, with `NCOUNT = 2·L - 1` and `ROOT = 2·L - 2` for the `L` symbols with a non-zero
count; it writes only `NODE`, `NCOUNT`, `ROOT`, `TREE_VALID`, `CT_VALID` and `DONE`. -/
def Obligations.BuildAllocatesTwoLMinusOneNodes : Prop :=
  ∀ s : State, Ready s → ∃ t, exec .build s = .next t ∧
    t = { s with node := t.node, ncount := t.ncount, root := t.root,
                 treeValid := true, ctValid := false, done := true } ∧
    t.ncount.val = 2 * symbolCount s - 1 ∧ t.root.val = 2 * symbolCount s - 2

/-- R130, R25: BUILD leaves a well-formed tree whose leaves, in ascending symbol order from index 0, are exactly the
symbols with a non-zero count, each with its count as weight. -/
def Obligations.BuildEstablishesTheTree : Prop :=
  ∀ s t : State, Ready s → exec .build s = .next t →
    TreeWf t ∧
    (∀ (i : NodeIdx) (x : Sym) (w : Weight), i.val < t.ncount.val → t.node[i] = .leaf x w →
      ftRead s x ≠ 0 ∧ w.toNat = (ftRead s x).toNat ∧
      i.val = (List.finRange 257).countP fun y => ftRead s y != 0 && decide (y < x)) ∧
    (∀ x : Sym, ftRead s x ≠ 0 → ∃ (i : NodeIdx) (w : Weight), i.val < t.ncount.val ∧ t.node[i] = .leaf x w)

/-- R133: weights are exact: the root's weight is the sum of all 257 counts, which is below `2^41`. -/
def Obligations.BuildRootWeighsTheTotal : Prop :=
  ∀ s t : State, Ready s → exec .build s = .next t →
    (nodeWeight t.node[t.root]).toNat = totalCount s ∧ totalCount s < 2 ^ 41

/-- R134: the tree is optimal: its total weighted code length is minimal among all binary prefix codes for the
frequency table. -/
def Obligations.BuildTreeIsOptimal : Prop :=
  ∀ s t : State, Ready s → exec .build s = .next t →
    ∃ T : Tree, treeOf t = some T ∧
      ∀ c : Sym → List Bool,
        (∀ x y : Sym, x ≠ y → ftRead s x ≠ 0 → ftRead s y ≠ 0 → ¬ c x <+: c y) →
        T.weightedLength (fun x => (ftRead s x).toNat) 0 ≤
          ((List.finRange 257).map fun x => (ftRead s x).toNat * (c x).length).sum

/-! ## Code generator -/

/-- R140: on a well-formed tree GENCODES completes and stores for every leaf its root-to-leaf path, every other entry
absent; it writes only `CT`, `CT_VALID` and `DONE`. Without a tree it raises `BAD_SEQUENCE` with `INFO` = 1. -/
def Obligations.GencodesStoresThePaths : Prop :=
  ∀ s : State, Ready s →
    (s.treeValid = true → TreeWf s → ∃ T : Tree, treeOf s = some T ∧
      exec .gencodes s = .next { s with ct := Vector.ofFn (entryOf T), ctValid := true, done := true }) ∧
    (s.treeValid = false → exec .gencodes s = .next { s with err := ⟨5, 1, 0⟩, done := false })

/-- R143, R144: after GENCODES no code is a prefix of another's and none is longer than 256 bits. -/
def Obligations.GencodesMakesAPrefixCode : Prop :=
  ∀ s t : State, Ready s → s.treeValid = true → TreeWf s → exec .gencodes s = .next t →
    (∀ x y : Sym, x ≠ y → (t.ct[x]).present = true → (t.ct[y]).present = true →
      ¬ (t.ct[x]).code <+: (t.ct[y]).code) ∧
    (∀ x : Sym, (t.ct[x]).len ≤ 256)

/-- R141: the tree of a single leaf gives that leaf's symbol a present entry with an empty code, and writing an empty
code writes nothing. -/
def Obligations.SingleLeafHasAnEmptyCode : Prop :=
  ∀ (s : State) (x : Sym) (w : Weight), Ready s → s.treeValid = true → s.node[s.root] = .leaf x w →
    exec .gencodes s = .next
      { s with ct := (Vector.replicate 257 CtEntry.absent).set x.val ⟨true, []⟩, ctValid := true, done := true } ∧
    ∀ u : State, outBits [] u = .ok u

/-! ## Header codec -/

/-- R150 (and the length of R151): on a well-formed tree WR_HEADER appends the preorder token listing, `11·L - 1` bits
for `L` leaves, and writes nothing else but `DONE`; without a tree, or after the output was closed, it raises
`BAD_SEQUENCE`. -/
def Obligations.WrHeaderAppendsTheHeader : Prop :=
  ∀ s : State, Ready s →
    (s.treeValid = true → s.oclosed = false → s.output.closed = false → TreeWf s →
      ∃ T : Tree, treeOf s = some T ∧
        exec .wrHeader s = .next { s with output := ⟨s.output.bits ++ T.header, false⟩, done := true } ∧
        T.header.length = 11 * T.leaves.length - 1 ∧ s.ncount.val = 2 * T.leaves.length - 1) ∧
    (s.treeValid = false → exec .wrHeader s = .next { s with err := ⟨5, 1, 0⟩, done := false }) ∧
    (s.treeValid = true → s.oclosed = true → exec .wrHeader s = .next { s with err := ⟨5, 3, 0⟩, done := false })

/-- R156: RD_HEADER on an input that starts with the header of a tree with distinct symbols reads exactly the header and
leaves a well-formed tree of the same shape and symbols, every weight 0, the root last; the rest of the state, but for
the flags R152 names, is as before. -/
def Obligations.RdHeaderReadsTheHeaderBack : Prop :=
  ∀ (s : State) (T : Tree) (rest : List Bool), Ready s → T.leaves.Nodup →
    s.input.data.drop s.input.pos = T.header ++ rest →
    ∃ t, exec .rdHeader s = .next t ∧
      t = { s with node := t.node, ncount := t.ncount, root := t.root, treeValid := true, ctValid := false,
                   done := true, input := ⟨s.input.data, s.input.pos + T.header.length⟩ } ∧
      treeOf t = some T ∧ TreeWf t ∧ t.ncount.val = 2 * T.leaves.length - 1 ∧
      (∀ i : NodeIdx, i.val < t.ncount.val → nodeWeight t.node[i] = 0)

/-- R156, the other direction: if RD_HEADER accepts, the bits it read are exactly the header of the tree it made. -/
def Obligations.AcceptedHeaderIsTheTreesHeader : Prop :=
  ∀ s t : State, Ready s → exec .rdHeader s = .next t → t.errf = false →
    ∃ T : Tree, treeOf t = some T ∧
      s.input.data.drop s.input.pos = T.header ++ t.input.data.drop t.input.pos

/-- R157, R223: RD_HEADER always ends, with a well-formed tree or with `CORRUPT_HEADER` and both flags down; it never
gets stuck, and it writes nothing to the output, the frequency table, the code table or the walk register. -/
def Obligations.RdHeaderAlwaysEnds : Prop :=
  ∀ s : State, Ready s → ∃ t, exec .rdHeader s = .next t ∧
    t = { s with node := t.node, ncount := t.ncount, root := t.root, treeValid := t.treeValid, ctValid := false,
                 done := t.done, err := t.err, input := ⟨s.input.data, t.input.pos⟩ } ∧
    ((t.err = s.err ∧ t.treeValid = true ∧ t.done = true ∧ TreeWf t) ∨
     (t.err.code = 2 ∧ t.err.info.toNat ≤ 4 ∧ t.treeValid = false ∧ t.done = false))

/-- R152, R153, R157: the run of the token machine with an explicit stack is the recursive pseudocode: the same result,
or the same fault in the same state, the open nodes apart. -/
def Obligations.TokenMachineIsTheRecursion : Prop :=
  ∀ s : State, s.hdr = none →
    (∀ t, bodyRdHeader s = .ok t ↔ rdHeaderRecursive s = .ok t) ∧
    (∀ (f : BlockFault) (t : State), bodyRdHeader s = .raised f t →
      rdHeaderRecursive s = .raised f { t with hdr := none }) ∧
    (∀ (f : BlockFault) (u : State), rdHeaderRecursive s = .raised f u → ∃ t, bodyRdHeader s = .raised f t)

/-- The model's finer machine (log entry 8, DESIGN CHOICE: tokens as steps over an explicit stack), with the depth check
of R154: the token HDR_INTERNAL opens a node while fewer than 256 are open, and raises `TOO_DEEP` at depth 256. -/
def Obligations.InternalTokenOpensANode : Prop :=
  ∀ (s : State) (h : HeaderRead), s.hdr = some h →
    (h.stack.length < 256 →
      exec .hdrInternal s = .next { s with hdr := some ⟨h.seen, none :: h.stack⟩ }) ∧
    (h.stack.length = 256 →
      exec .hdrInternal s = .next
        { s with err := ⟨2, 4, 0⟩, done := false, busy := false, pq := [], hdr := none })

/-- The model's finer machine (log entry 8, DESIGN CHOICE: tokens as steps over an explicit stack), with the checks and
the constructions of R155 and R154: the token HDR_LEAF checks its field, then constructs a leaf with weight 0 at
`NCOUNT`. It closes every open node on top of the stack whose left child is known, each constructed at the next index,
and the last node made becomes the left child of the next open node, or the root, and the header ends. A token that
would construct a node at index 513 stops by name (log entry 11). -/
def Obligations.LeafTokenConstructsALeaf : Prop :=
  ∀ (s : State) (seen : Vector Bool 257) (stack : List (Option NodeIdx)) (v : BitVec 9) (n : Nat),
    s.hdr = some ⟨seen, stack⟩ → s.ncount.val = n →
    (256 < v.toNat → exec (.hdrLeaf v) s = .next
      { s with err := ⟨2, 2, v⟩, done := false, busy := false, pq := [], hdr := none }) ∧
    (∀ x : Sym, x.val = v.toNat → seen[x] = true → exec (.hdrLeaf v) s = .next
      { s with err := ⟨2, 3, v⟩, done := false, busy := false, pq := [], hdr := none }) ∧
    (∀ (x : Sym) (lefts : List NodeIdx), x.val = v.toNat → seen[x] = false →
      (∀ hm : n + lefts.length < 513, ∃ node : Vector Node 513,
        node[n] = .leaf x 0 ∧
        (∀ (j : Nat) (hj : j < lefts.length),
          node[n + 1 + j] = .internal 0 lefts[j] ⟨n + j, by omega⟩) ∧
        (∀ i : NodeIdx, i.val < n ∨ n + lefts.length < i.val → node[i] = s.node[i]) ∧
        (stack = lefts.map some → exec (.hdrLeaf v) s = .next
          { s with node := node, ncount := Fin.ofNat 514 (n + lefts.length + 1), root := ⟨n + lefts.length, hm⟩,
                   treeValid := true, done := true, busy := false, pq := [], hdr := none }) ∧
        (∀ below, stack = lefts.map some ++ none :: below → exec (.hdrLeaf v) s = .next
          { s with node := node, ncount := Fin.ofNat 514 (n + lefts.length + 1),
                   hdr := some ⟨seen.set x.val true, some ⟨n + lefts.length, hm⟩ :: below⟩ })) ∧
      (513 ≤ n + lefts.length →
        (stack = lefts.map some ∨ ∃ below, stack = lefts.map some ++ none :: below) →
        exec (.hdrLeaf v) s = .fault .nodeStoreFull))

/-- The model's finer machine (log entry 8, DESIGN CHOICE: a step in the middle of a header), with the two
end-of-input causes of R153, `EOF_TAG` and `EOF_SYMBOL`; the cut symbol leaves its tag bit read (R64). -/
def Obligations.HeaderEndOfInputIsReported : Prop :=
  ∀ (s : State) (h : HeaderRead), s.hdr = some h →
    (s.input.data.drop s.input.pos = [] → step s = .next
      { s with err := ⟨2, 0, 0⟩, done := false, busy := false, pq := [], hdr := none }) ∧
    (∀ q : List Bool, s.input.data.drop s.input.pos = true :: q → q.length < 9 → step s = .next
      { s with err := ⟨2, 1, 0⟩, done := false, busy := false, pq := [], hdr := none,
               input := ⟨s.input.data, s.input.pos + 1⟩ })

/-- R153: a header whose first 257 bits are all 0 raises `TOO_DEEP` at the 257th, which is read; a header of at most 256
zero bits and nothing more raises `EOF_TAG`. `ROOT` and the node store are untouched and `NCOUNT` is 0. -/
def Obligations.DeepHeaderIsRefused : Prop :=
  ∀ s : State, Ready s →
    (∀ rest : List Bool, s.input.data.drop s.input.pos = List.replicate 257 false ++ rest →
      exec .rdHeader s = .next
        { s with ncount := 0, treeValid := false, ctValid := false, done := false, err := ⟨2, 4, 0⟩,
                 input := ⟨s.input.data, s.input.pos + 257⟩ }) ∧
    (∀ n : Nat, n ≤ 256 → s.input.data.drop s.input.pos = List.replicate n false →
      exec .rdHeader s = .next
        { s with ncount := 0, treeValid := false, ctValid := false, done := false, err := ⟨2, 0, 0⟩,
                 input := ⟨s.input.data, s.input.pos + n⟩ })

/-! ## Encoder -/

/-- R170: WR_MAGIC appends the 32 bits of `MAGIC`, which is not 0 (R95), wherever the output stands, and changes nothing
else but `DONE`; after the output was closed it raises `BAD_SEQUENCE` with `INFO` = 3. -/
def Obligations.WrMagicAppendsTheMagic : Prop :=
  magic ≠ 0 ∧
  ∀ s : State, Ready s →
    (s.oclosed = false → s.output.closed = false → exec .wrMagic s = .next
      { s with output := ⟨s.output.bits ++ bitsMSB 32 magic.toNat, false⟩, done := true }) ∧
    (s.oclosed = true → exec .wrMagic s = .next { s with err := ⟨5, 3, 0⟩, done := false })

/-- R171: ENC_PAYLOAD, its table covering every byte of the input and the marker, appends the codes of the bytes from
the start of the input in order, then the marker's code once, and leaves the position after the last whole byte. -/
def Obligations.EncPayloadAppendsTheCodes : Prop :=
  ∀ (s : State) (b : List Byte) (tail : List Bool), Ready s →
    s.ctValid = true → s.oclosed = false → s.output.closed = false →
    s.input.data = bytesToBits b ++ tail → tail.length < 8 →
    (∀ x ∈ b, (s.ct[byteSym x]).present = true) → (s.ct[Config.eos]).present = true →
    exec .encPayload s = .next
      { s with input := ⟨s.input.data, 8 * b.length⟩, done := true,
               output := ⟨s.output.bits ++ b.flatMap (fun x => (s.ct[byteSym x]).code)
                           ++ (s.ct[Config.eos]).code, false⟩ }

/-- R227: the first byte without a code, or the marker without one, raises `NO_CODE`; the codes before it are written
and the position is after the byte, or after the last whole byte for the marker. -/
def Obligations.MissingCodeIsReported : Prop :=
  ∀ (s : State) (b : List Byte), Ready s → s.ctValid = true → s.oclosed = false → s.output.closed = false →
    (∀ x ∈ b, (s.ct[byteSym x]).present = true) →
    (∀ (x : Byte) (rest : List Bool), s.input.data = bytesToBits (b ++ [x]) ++ rest →
      (s.ct[byteSym x]).present = false →
      exec .encPayload s = .next
        { s with input := ⟨s.input.data, 8 * (b.length + 1)⟩, err := ⟨6, 0, x.setWidth 9⟩, done := false,
                 output := ⟨s.output.bits ++ b.flatMap (fun y => (s.ct[byteSym y]).code), false⟩ }) ∧
    (∀ tail : List Bool, s.input.data = bytesToBits b ++ tail → tail.length < 8 →
      (s.ct[Config.eos]).present = false →
      exec .encPayload s = .next
        { s with input := ⟨s.input.data, 8 * b.length⟩, err := ⟨6, 0, 256⟩, done := false,
                 output := ⟨s.output.bits ++ b.flatMap (fun y => (s.ct[byteSym y]).code), false⟩ })

/-- R173, R68: CLOSE_OUT appends 0 to 7 zero bits up to a multiple of 8, closes the output and sets `OCLOSED`. -/
def Obligations.CloseOutPadsAndCloses : Prop :=
  ∀ s : State, Ready s → s.oclosed = false → s.output.closed = false →
    ∃ p : Nat, p ≤ 7 ∧ (s.output.bits.length + p) % 8 = 0 ∧
      exec .closeOut s = .next
        { s with output := ⟨s.output.bits ++ List.replicate p false, true⟩, oclosed := true, done := true }

/-- U16 (R66): on a closed channel that `OCLOSED` does not show, what would write or close is refused by name, the spec
giving it no effect. -/
def Obligations.ClosedChannelIsRefused : Prop :=
  ∀ s : State, Ready s → s.oclosed = false → s.output.closed = true →
    exec .wrMagic s = .refused .writeToClosedOutput ∧ exec .closeOut s = .refused .closeOfClosedOutput ∧
    (s.treeValid = true → TreeWf s → exec .wrHeader s = .refused .writeToClosedOutput)

/-- R105, R174: COMPRESS is its seven steps in order, stopping at the first fault. -/
def Obligations.CompressIsItsSevenSteps : Prop :=
  ∀ s : State, Ready s → s.oclosed = false →
    exec .compress s =
      execSeq [.count, .build, .gencodes, .wrMagic, .wrHeader, .encPayload, .closeOut] s

/-- R175: the blob COMPRESS produces, bit for bit, with its lengths, and the state it leaves. -/
def Obligations.CompressProducesTheBlob : Prop :=
  ∀ (s : State) (b : List Byte), Ready s → s.oclosed = false → s.output = ⟨[], false⟩ →
    s.input = ⟨bytesToBits b, 0⟩ → b.length < 2 ^ 32 →
    ∃ (t : State) (T : Tree) (q e : List Bool) (p : Nat),
      exec .compress s = .next t ∧ treeOf t = some T ∧ codesOf T b = some q ∧
      T.path Config.eos = some e ∧
      t.output = ⟨bitsMSB 32 magic.toNat ++ T.header ++ q ++ e ++ List.replicate p false, true⟩ ∧
      p = (8 - (32 + T.header.length + (q ++ e).length) % 8) % 8 ∧
      T.header.length = 11 * (b.dedup.length + 1) - 1 ∧
      (q ++ e).length = T.weightedLength (fun x => (ftRead t x).toNat) 0 ∧
      t = { s with ft := countsOf b, node := t.node, ncount := t.ncount, root := t.root, ct := t.ct,
                   treeValid := true, ctValid := true, oclosed := true, done := true,
                   input := ⟨s.input.data, s.input.data.length⟩, output := t.output } ∧
      TreeWf t ∧ CtWf t ∧
      (b = [] → t.output.bits = bitsMSB 32 magic.toNat ++
        [true, true, false, false, false, false, false, false, false, false] ++ List.replicate 6 false)

/-! ## Decoder -/

/-- R190, R191, R222: RD_MAGIC completes exactly on `MAGIC`; another value, zero among them, or a short input raises
`BAD_MAGIC`. -/
def Obligations.RdMagicChecksTheMagic : Prop :=
  ∀ s : State, Ready s →
    (∀ rest : List Bool, s.input.data.drop s.input.pos = bitsMSB 32 magic.toNat ++ rest →
      exec .rdMagic s = .next { s with input := ⟨s.input.data, s.input.pos + 32⟩, done := true }) ∧
    (∀ (w : Word) (rest : List Bool), s.input.data.drop s.input.pos = bitsMSB 32 w.toNat ++ rest →
      w = 0 ∨ w ≠ magic →
      exec .rdMagic s = .next
        { s with input := ⟨s.input.data, s.input.pos + 32⟩, err := ⟨1, 0, 0⟩, done := false }) ∧
    ((s.input.data.drop s.input.pos).length < 32 →
      exec .rdMagic s = .next { s with err := ⟨1, 1, 0⟩, done := false })

/-- R192, R197: DEC_PAYLOAD on the codes of bytes followed by the marker's code appends those bytes, stops just after
the marker's code with `DWALK` at the marker's leaf, and reads nothing that follows. -/
def Obligations.DecPayloadDecodesTheCodes : Prop :=
  ∀ (s : State) (T : Tree) (b : List Byte) (q e rest : List Bool), Ready s →
    s.treeValid = true → s.oclosed = false → s.output.closed = false → treeOf s = some T →
    codesOf T b = some q → T.path Config.eos = some e →
    s.input.data.drop s.input.pos = q ++ e ++ rest →
    ∃ (c : NodeIdx) (w : Weight), nodeAlong s.node e s.root = some c ∧ s.node[c] = .leaf Config.eos w ∧
      exec .decPayload s = .next
        { s with input := ⟨s.input.data, s.input.pos + q.length + e.length⟩,
                 output := ⟨s.output.bits ++ bytesToBits b, false⟩,
                 dstate := .done, cur := c, done := true }

/-- R198, R224: an input that ends between two codes or inside one raises `TRUNCATED_STREAM`; the bytes decoded before
stay, and `DWALK` shows where the walk stood: at the node the bits `r` of the unfinished code lead to from the root. -/
def Obligations.TruncatedPayloadIsReported : Prop :=
  ∀ (s : State) (T : Tree) (b : List Byte) (q p r : List Bool) (x : Sym), Ready s →
    s.treeValid = true → s.oclosed = false → s.output.closed = false → treeOf s = some T →
    codesOf T b = some q → T.path x = some p → r <+: p → r ≠ p → s.input.pos ≤ s.input.data.length →
    s.input.data.drop s.input.pos = q ++ r →
    ∃ c : NodeIdx,
      nodeAlong s.node r s.root = some c ∧ (∃ w l k, s.node[c] = .internal w l k) ∧
      exec .decPayload s = .next
        { s with input := ⟨s.input.data, s.input.data.length⟩,
                 output := ⟨s.output.bits ++ bytesToBits b, false⟩,
                 dstate := if r = [] then .atRoot else .atInternal, cur := c,
                 err := ⟨3, 0, 0⟩, done := false }

/-- R194, R229: a single byte-valued leaf raises `DEGENERATE_TREE` with nothing read or written; the marker's single
leaf ends in `DONE` at once. -/
def Obligations.SingleLeafDecodesAtOnce : Prop :=
  ∀ (s : State) (x : Sym) (w : Weight), Ready s → s.treeValid = true → s.oclosed = false →
    s.node[s.root] = .leaf x w →
    (x ≠ Config.eos → exec .decPayload s = .next
      { s with dstate := .atRoot, cur := s.root, err := ⟨8, 0, BitVec.ofNat 9 x.val⟩, done := false }) ∧
    (x = Config.eos → exec .decPayload s = .next
      { s with dstate := .done, cur := s.root, done := true })

/-- R105, R195: DECOMPRESS is its four steps in order, stopping at the first fault. -/
def Obligations.DecompressIsItsFourSteps : Prop :=
  ∀ s : State, Ready s → s.oclosed = false →
    exec .decompress s = execSeq [.rdMagic, .rdHeader, .decPayload, .closeOut] s

/-- R195, R192, R156: DECOMPRESS of a magic, the header of a tree with distinct symbols, the codes of bytes and the
marker's code, whatever follows, completes with exactly those bytes in the output, closed. -/
def Obligations.DecompressDecodesABlob : Prop :=
  ∀ (s : State) (T : Tree) (b : List Byte) (q e rest : List Bool), Ready s → s.oclosed = false →
    s.output = ⟨[], false⟩ → T.leaves.Nodup → codesOf T b = some q → T.path Config.eos = some e →
    s.input.data.drop s.input.pos = bitsMSB 32 magic.toNat ++ T.header ++ q ++ e ++ rest →
    ∃ t, exec .decompress s = .next t ∧
      t = { s with node := t.node, ncount := t.ncount, root := t.root, dstate := .done, cur := t.cur,
                   treeValid := true, ctValid := false, oclosed := true, done := true,
                   input := ⟨s.input.data, s.input.pos + 32 + T.header.length + q.length + e.length⟩,
                   output := ⟨bytesToBits b, true⟩ } ∧
      treeOf t = some T ∧ nodeAlong t.node e t.root = some t.cur

/-- R196, the round trip, for this hardware's tie order and padding: what COMPRESS writes, DECOMPRESS turns back into
the same bytes, and both calls succeed. -/
def Obligations.DecompressInvertsCompress : Prop :=
  ∀ (s u : State) (b : List Byte), b.length < 2 ^ 32 →
    Ready s → s.oclosed = false → s.input = ⟨bytesToBits b, 0⟩ → s.output = ⟨[], false⟩ →
    Ready u → u.oclosed = false → u.output = ⟨[], false⟩ →
    ∃ t, exec .compress s = .next t ∧ CallSucceeded t ∧ t.output.closed = true ∧
      (u.input = ⟨bytesToBits (destination t), 0⟩ →
        ∃ v, exec .decompress u = .next v ∧ CallSucceeded v ∧ v.output.closed = true ∧ destination v = b)

/-! ## What no instruction changes -/

/-- R22, R24, R26, R27, R30, R32: which commands write which table and its flag; `OCLOSED` falls only by SRESET. -/
def Obligations.TablesHaveOnlyTheirWriters : Prop :=
  ∀ (s t : State) (i : Instr), i.isCommand = true → exec i s = .next t →
    (i ∉ [.sreset, .ftClr, .count, .compress] → t.ft = s.ft) ∧
    (i ∉ [.sreset, .build, .rdHeader, .compress, .decompress] →
      t.node = s.node ∧ t.ncount = s.ncount ∧ t.root = s.root ∧ t.treeValid = s.treeValid) ∧
    (i ∉ [.sreset, .gencodes, .compress] → t.ct = s.ct) ∧
    (i ∉ [.sreset, .build, .rdHeader, .gencodes, .compress, .decompress] → t.ctValid = s.ctValid) ∧
    (i ∈ [.build, .rdHeader, .decompress] → t.ctValid = true → s.ctValid = true) ∧
    (i = .gencodes → s.ctValid = true → t.ctValid = true) ∧
    (i ∉ [.sreset, .decPayload, .decompress] → t.dstate = s.dstate ∧ t.cur = s.cur) ∧
    (i ∉ [.sreset, .closeOut, .compress, .decompress] → t.oclosed = s.oclosed) ∧
    (i ≠ .sreset → s.oclosed = true → t.oclosed = true)

/-- R40, R60, R76: no instruction changes the input's data, takes a bit of the output back, or writes to an output
channel that is closed; NOP, SRESET, FT_CLR, BUILD and GENCODES, to which R69 gives no channel, leave both as they are.
R69, R154 and R155 have a header token read 1 or 10 bits; that `exec` of HDR_INTERNAL and HDR_LEAF leaves the input as it
is is the model's choice (log entry 8, DESIGN CHOICE): `step` moves the position past the token before `exec` runs it. -/
def Obligations.ChannelsOnlyMoveForward : Prop :=
  ∀ (s t : State) (i : Instr), exec i s = .next t →
    t.input.data = s.input.data ∧ s.output.bits <+: t.output.bits ∧
    (s.output.closed = true → t.output = s.output) ∧
    (i ∈ [.nop, .sreset, .ftClr, .build, .gencodes, .hdrInternal] ∨ (∃ v, i = .hdrLeaf v) →
      t.input = s.input ∧ t.output = s.output) ∧
    (i ∈ [.wrMagic, .wrHeader, .closeOut] → t.input = s.input) ∧
    (i ∈ [.count, .rdMagic, .rdHeader] → t.output = s.output)

/-- R234: a command that faults does not close the output: `OUT.closed` and `OCLOSED` stay as they were. -/
def Obligations.AFaultLeavesTheOutputOpen : Prop :=
  ∀ (s t : State) (i : Instr), s.errf = false → exec i s = .next t → t.errf = true →
    t.output.closed = s.output.closed ∧ t.oclosed = s.oclosed

/-! ## The host's register space -/

/-- R35, R36, R102, R103: what a host read returns at each address while no command runs. -/
def Obligations.HostReadsTheRegisterMap : Prop :=
  ∀ (s : State) (a : Addr) (v : Word) (rest : List HostAction), s.hdr = none → s.busy = false →
    s.host = .read a :: rest →
    (a = 0x0000 ∧ v = 0 ∨ a = 0x0001 ∧ v = statusWord s ∨ a = 0x0002 ∧ v = errWord s.err ∨
     a = 0x0003 ∧ v = BitVec.ofNat 32 s.root.val ∨ a = 0x0004 ∧ v = BitVec.ofNat 32 s.ncount.val ∨
     a = 0x0005 ∧ v = dwalkWord s ∨ a = 0x0006 ∧ v = magic ∨
     (∃ x : Sym, a.toNat = 0x0100 + x.val ∧ v = ftRead s x) ∨
     (∃ (i : NodeIdx) (k : Fin 4), a.toNat = 0x1000 + 4 * i.val + k.val ∧ s.treeValid = true ∧
       i.val < s.ncount.val ∧ v = nodeWord s.node[i] k.val) ∨
     (∃ (x : Sym) (k : Fin 16), a.toNat = 0x2000 + 16 * x.val + k.val ∧ s.ctValid = true ∧
       v = entryWord s.ct[x] k.val) ∨
     ((0x0007 ≤ a.toNat ∧ a.toNat < 0x0100 ∨ 0x0201 ≤ a.toNat ∧ a.toNat < 0x1000 ∨
       0x1804 ≤ a.toNat ∧ a.toNat < 0x2000 ∨ 0x3010 ≤ a.toNat) ∧ v = 0)) →
    step s = .next { s with host := rest, record := s.record ++ [⟨a, v⟩] }

/-- R36, R264, R72: a host read, at any address and in any state between commands, returns some word and changes nothing
of the block or its channels; where the spec gives the word no value (U6) it is free (`Config.unspecifiedWord`). -/
def Obligations.HostReadsHaveNoSideEffect : Prop :=
  ∀ (s : State) (a : Addr) (rest : List HostAction), s.hdr = none → s.host = .read a :: rest →
    ∃ (v : Word) (k : Nat), step s = .next { s with host := rest, record := s.record ++ [⟨a, v⟩], free := k }

/-- R23, R36, R35: a host write stores all 32 bits in `FT[0..255]`, with no flag changed, and is ignored at every other
address but that of `CMD`; `FT[256]` reads 1 whatever is written. -/
def Obligations.HostWritesOnlyTheByteCounts : Prop :=
  ∀ (s : State) (a : Addr) (v : Word) (rest : List HostAction), s.hdr = none → s.busy = false →
    s.host = .write a v :: rest → a ≠ 0x0000 →
    (∀ x : Sym, x.val < 256 → a.toNat = 0x0100 + x.val →
      ∃ t, step s = .next t ∧ t = { s with host := rest, ft := t.ft } ∧
        ∀ y : Sym, ftRead t y = if y = x then v else ftRead s y) ∧
    ((∀ x : Sym, x.val < 256 → a.toNat ≠ 0x0100 + x.val) → step s = .next { s with host := rest }) ∧
    ftRead s Config.eos = 1

/-- R102: word 0 is `KIND` in bit 31 and a leaf's `SYMBOL` in bits 8:0, words 1 and 2 are the weight, word 3 is `LEFT` in
bits 9:0 and `RIGHT` in bits 25:16 of an internal node, every other bit 0; so the four words tell the entry whole. -/
def Obligations.NodeWordsTellTheNode : Prop :=
  (∀ (x : Sym) (w : Weight),
    (nodeWord (.leaf x w) 0).getLsbD 31 = false ∧ ((nodeWord (.leaf x w) 0).extractLsb' 0 9).toNat = x.val ∧
    (nodeWord (.leaf x w) 0).extractLsb' 9 22 = 0 ∧ nodeWord (.leaf x w) 3 = 0) ∧
  (∀ (w : Weight) (l r : NodeIdx),
    (nodeWord (.internal w l r) 0).getLsbD 31 = true ∧ (nodeWord (.internal w l r) 0).extractLsb' 0 31 = 0 ∧
    ((nodeWord (.internal w l r) 3).extractLsb' 0 10).toNat = l.val ∧
    ((nodeWord (.internal w l r) 3).extractLsb' 16 10).toNat = r.val ∧
    (nodeWord (.internal w l r) 3).extractLsb' 10 6 = 0 ∧ (nodeWord (.internal w l r) 3).extractLsb' 26 6 = 0) ∧
  (∀ n : Node,
    nodeWord n 1 = (nodeWeight n).extractLsb' 0 32 ∧
    (nodeWord n 2).extractLsb' 0 9 = (nodeWeight n).extractLsb' 32 9 ∧ (nodeWord n 2).extractLsb' 9 23 = 0) ∧
  (∀ m n : Node, (∀ k < 4, nodeWord m k = nodeWord n k) → m = n)

/-- R103: bit `j` of a code is bit `31 - (j mod 32)` of word `1 + j / 32`, every position past the end reads 0, word 0
holds `PRESENT` and `LEN`, and words 9 to 15 read 0. -/
def Obligations.CodeWordsHoldTheCode : Prop :=
  ∀ e : CtEntry, e.code.length ≤ 256 →
    (∀ j < 256, (entryWord e (1 + j / 32)).getLsbD (31 - j % 32) = (e.code[j]?).getD false) ∧
    (entryWord e 0).toNat = 2 ^ 31 * e.present.toNat + e.code.length ∧
    (∀ k, 9 ≤ k → k ≤ 15 → entryWord e k = 0)

/-- R32, R33, R35: the fields of the words of `STATUS`, `ERR` and `DWALK`, `ERRF` and `DEC_DONE` as R32 ties them to `ERR`
and `DWALK`, and the coding of `DSTATE` (R30); every other bit reads 0. -/
def Obligations.RegisterWordsHoldTheFields : Prop :=
  (∀ (s : State) (k : Nat), (statusWord s).getLsbD k =
    [s.busy, s.done, decide (s.err.code ≠ 0), s.treeValid, s.ctValid, decide (s.dstate = .done), s.oclosed].getD k
      false) ∧
  (∀ e : ErrReg, (errWord e).extractLsb' 0 4 = e.code ∧ (errWord e).extractLsb' 4 4 = e.info ∧
    (errWord e).extractLsb' 8 9 = e.aux ∧ (errWord e).extractLsb' 17 15 = 0) ∧
  (∀ s : State, ((dwalkWord s).extractLsb' 0 10).toNat = s.cur.val ∧
    (s.dstate = .atRoot → (dwalkWord s).extractLsb' 10 2 = 0) ∧
    (s.dstate = .atInternal → (dwalkWord s).extractLsb' 10 2 = 1) ∧
    (s.dstate = .done → (dwalkWord s).extractLsb' 10 2 = 2) ∧
    (dwalkWord s).extractLsb' 12 20 = 0)

/-- R62, R263 (as events in the host's list, log entries 6 and 15): a fresh source is the bytes' bits at position 0, a
fresh destination is empty and open, and nothing else changes; with nothing left to do the block is idle (R239). -/
def Obligations.EnvironmentSuppliesFreshChannels : Prop :=
  ∀ s : State, s.hdr = none →
    (∀ (bytes : List Byte) (rest : List HostAction), s.host = .openSource bytes :: rest →
      step s = .next { s with host := rest, input := ⟨bytesToBits bytes, 0⟩ }) ∧
    (∀ rest : List HostAction, s.host = .openDestination :: rest →
      step s = .next { s with host := rest, output := ⟨[], false⟩ }) ∧
    (s.host = [] → step s = .next s)
end

