-- ==== Sys2Proof/Laws/Bits.lean ====
section
/-! SUPPORT. The laws of bit groups and of their packing into bytes (`00_scope.md` R6, `20_memory.md` R63, R66, R70,
R80, R81). -/

namespace Sys2Proof.Machine

@[simp] theorem bitsMSB_length (n v : Nat) : (bitsMSB n v).length = n := by
  induction n with
  | zero => rfl
  | succ n ih => simp [bitsMSB, ih]

/-- The value of a sequence read after an accumulator. -/
theorem foldl_valMSB (q : List Bool) (a : Nat) :
    q.foldl (fun acc b => 2 * acc + b.toNat) a = a * 2 ^ q.length + valMSB q := by
  induction q generalizing a with
  | nil => simp [valMSB]
  | cons b q ih =>
    simp only [List.foldl_cons, List.length_cons, valMSB]
    rw [ih, ih (2 * 0 + b.toNat)]
    ring

theorem valMSB_cons (b : Bool) (q : List Bool) : valMSB (b :: q) = b.toNat * 2 ^ q.length + valMSB q := by
  have := foldl_valMSB q (2 * 0 + b.toNat)
  simpa [valMSB] using this

theorem valMSB_lt (q : List Bool) : valMSB q < 2 ^ q.length := by
  induction q with
  | nil => simp [valMSB]
  | cons b q ih =>
    rw [valMSB_cons, List.length_cons, pow_succ]
    cases b <;> simp <;> omega

/-- Reading back the low-order `n` bits of a number (R6). -/
theorem valMSB_bitsMSB (n v : Nat) : valMSB (bitsMSB n v) = v % 2 ^ n := by
  induction n with
  | zero => simp [bitsMSB, valMSB, Nat.mod_one]
  | succ n ih =>
    rw [bitsMSB, valMSB_cons, bitsMSB_length, ih, Nat.mod_pow_succ, Nat.testBit_eq_decide_div_mod_eq]
    rcases Nat.mod_two_eq_zero_or_one (v / 2 ^ n) with h | h <;> simp [h, Nat.add_comm]

/-- A number written in exactly as many bits as it was read from gives the same bits. -/
theorem bitsMSB_valMSB (q : List Bool) : bitsMSB q.length (valMSB q) = q := by
  induction q with
  | nil => rfl
  | cons b q ih =>
    have hlow : ∀ (n a v : Nat), bitsMSB n (a * 2 ^ n + v) = bitsMSB n v := by
      intro n
      induction n with
      | zero => intros; rfl
      | succ n ihn =>
        intro a v
        have e : a * 2 ^ (n + 1) + v = (2 * a) * 2 ^ n + v := by ring
        simp only [bitsMSB]
        rw [e, ihn]
        congr 1
        rw [Nat.testBit_eq_decide_div_mod_eq, Nat.testBit_eq_decide_div_mod_eq,
          Nat.add_comm, Nat.add_mul_div_right _ _ (Nat.two_pow_pos n)]
        congr 1
        simp [Nat.add_mod]
    rw [valMSB_cons, List.length_cons, bitsMSB, hlow, ih]
    congr 1
    rw [Nat.testBit_eq_decide_div_mod_eq, Nat.add_comm, Nat.add_mul_div_right _ _ (Nat.two_pow_pos _),
      Nat.div_eq_of_lt (valMSB_lt q)]
    cases b <;> simp

@[simp] theorem bytesToBits_nil : bytesToBits [] = [] := rfl

@[simp] theorem bytesToBits_cons (b : Byte) (bs : List Byte) :
    bytesToBits (b :: bs) = bitsMSB 8 b.toNat ++ bytesToBits bs := by simp [bytesToBits]

@[simp] theorem bytesToBits_append (a b : List Byte) :
    bytesToBits (a ++ b) = bytesToBits a ++ bytesToBits b := by simp [bytesToBits]

@[simp] theorem bytesToBits_length (bs : List Byte) : (bytesToBits bs).length = 8 * bs.length := by
  induction bs with
  | nil => rfl
  | cons b bs ih => simp [ih]; omega

/-- Eight bits written from a byte read as that byte (R80). -/
theorem byte_valMSB_bitsMSB (b : Byte) : BitVec.ofNat 8 (valMSB (bitsMSB 8 b.toNat)) = b := by
  rw [valMSB_bitsMSB, Nat.mod_eq_of_lt (by have := b.isLt; omega)]
  simp

/-- The bytes of a byte sequence's bits are those bytes; a tail of fewer than 8 bits is not seen (R38, R70). -/
theorem wholeBytes_bytesToBits (bs : List Byte) (tail : List Bool) (h : tail.length < 8) :
    wholeBytes (bytesToBits bs ++ tail) = bs := by
  induction bs with
  | nil =>
    match tail, h with
    | [], _ => rfl
    | [_], _ => rfl
    | [_, _], _ => rfl
    | [_, _, _], _ => rfl
    | [_, _, _, _], _ => rfl
    | [_, _, _, _, _], _ => rfl
    | [_, _, _, _, _, _], _ => rfl
    | [_, _, _, _, _, _, _], _ => rfl
  | cons b bs ih =>
    simp only [bytesToBits_cons, bitsMSB, List.cons_append, List.nil_append, wholeBytes]
    rw [ih]
    exact congrArg (· :: bs) (byte_valMSB_bitsMSB b)

/-- A bit sequence is the bits of its whole bytes and a tail of fewer than 8 bits (R70, R73). -/
theorem exists_bytes (q : List Bool) : ∃ (bs : List Byte) (tail : List Bool),
    q = bytesToBits bs ++ tail ∧ tail.length < 8 := by
  induction hn : q.length using Nat.strong_induction_on generalizing q with
  | _ n ih =>
    by_cases h : q.length < 8
    · exact ⟨[], q, rfl, h⟩
    · have hlen : (q.take 8).length = 8 := by simp; omega
      obtain ⟨bs, tail, he, ht⟩ := ih (q.drop 8).length (by simp; omega) (q.drop 8) rfl
      refine ⟨BitVec.ofNat 8 (valMSB (q.take 8)) :: bs, tail, ?_, ht⟩
      have hv : valMSB (q.take 8) < 256 := by have := valMSB_lt (q.take 8); rw [hlen] at this; omega
      rw [bytesToBits_cons, List.append_assoc, ← he]
      have : bitsMSB 8 (BitVec.ofNat 8 (valMSB (q.take 8))).toNat = q.take 8 := by
        rw [BitVec.toNat_ofNat, Nat.mod_eq_of_lt hv]
        have := bitsMSB_valMSB (q.take 8)
        rwa [hlen] at this
      rw [this, List.take_append_drop]

/-- Padding reaches a byte boundary with at most 7 bits (R68). -/
theorem padCount_spec (n : Nat) : padCount n ≤ 7 ∧ (n + padCount n) % 8 = 0 := by
  unfold padCount; omega

end Sys2Proof.Machine
end

