-- ==== Sys2Proof/Laws/State.lean ====
section
/-! SUPPORT. What each shared update of the state leaves unchanged and what it writes, field by field, so that no later
proof unfolds a record update. -/

namespace Sys2Proof.Machine

/-! ## The frequency table -/

@[simp] theorem ftClear_fields (s : State) :
    (ftClear s).ft = Vector.replicate 256 0 ∧ (ftClear s).node = s.node ∧ (ftClear s).root = s.root ∧
    (ftClear s).ncount = s.ncount ∧ (ftClear s).ct = s.ct ∧ (ftClear s).pq = s.pq ∧ (ftClear s).hdr = s.hdr ∧
    (ftClear s).dstate = s.dstate ∧ (ftClear s).cur = s.cur ∧ (ftClear s).busy = s.busy ∧
    (ftClear s).done = s.done ∧ (ftClear s).treeValid = s.treeValid ∧ (ftClear s).ctValid = s.ctValid ∧
    (ftClear s).oclosed = s.oclosed ∧ (ftClear s).err = s.err ∧ (ftClear s).input = s.input ∧
    (ftClear s).output = s.output ∧ (ftClear s).host = s.host ∧ (ftClear s).record = s.record ∧
    (ftClear s).free = s.free := by
  simp [ftClear]

/-- A write of the frequency table touches the table only. -/
theorem ftWrite_eq (s : State) (x : Sym) (v : Word) :
    ftWrite s x v = { s with ft := (ftWrite s x v).ft } := by
  unfold ftWrite; split <;> rfl

@[simp] theorem ftWrite_fields (s : State) (x : Sym) (v : Word) :
    (ftWrite s x v).node = s.node ∧ (ftWrite s x v).root = s.root ∧ (ftWrite s x v).ncount = s.ncount ∧
    (ftWrite s x v).ct = s.ct ∧ (ftWrite s x v).pq = s.pq ∧ (ftWrite s x v).hdr = s.hdr ∧
    (ftWrite s x v).dstate = s.dstate ∧ (ftWrite s x v).cur = s.cur ∧ (ftWrite s x v).busy = s.busy ∧
    (ftWrite s x v).done = s.done ∧ (ftWrite s x v).treeValid = s.treeValid ∧
    (ftWrite s x v).ctValid = s.ctValid ∧ (ftWrite s x v).oclosed = s.oclosed ∧ (ftWrite s x v).err = s.err ∧
    (ftWrite s x v).input = s.input ∧ (ftWrite s x v).output = s.output ∧ (ftWrite s x v).host = s.host ∧
    (ftWrite s x v).record = s.record ∧ (ftWrite s x v).free = s.free := by
  rw [ftWrite_eq]; simp

/-- Read after write of the frequency table: a byte value's count is stored, the marker's stays 1 (R22, R23). -/
theorem ftRead_ftWrite (s : State) (x y : Sym) (v : Word) :
    ftRead (ftWrite s x v) y = if y = x ∧ x.val < 256 then v else ftRead s y := by
  unfold ftRead ftWrite
  by_cases hx : x.val < 256
  · by_cases hy : y.val < 256
    · by_cases he : y = x
      · subst he; simp [hx]
      · have : x.val ≠ y.val := fun h => he (Fin.ext h.symm)
        simp [hx, hy, he, this]
    · have : y ≠ x := fun h => hy (h ▸ hx)
      simp [hx, hy, this]
  · simp [hx]

/-- The marker's count is 1 in every state (R23). -/
@[simp] theorem ftRead_eos (s : State) : ftRead s Config.eos = 1 := by
  simp [ftRead, Config.eos]

/-- A read of the frequency table depends on the table alone. -/
theorem ftRead_congr {s t : State} (h : s.ft = t.ft) (x : Sym) : ftRead s x = ftRead t x := by
  simp [ftRead, h]

/-! ## The channels -/

@[simp] theorem advance_fields (n : Nat) (s : State) :
    (advance n s).input = ⟨s.input.data, s.input.pos + n⟩ ∧ (advance n s).ft = s.ft ∧
    (advance n s).node = s.node ∧ (advance n s).root = s.root ∧ (advance n s).ncount = s.ncount ∧
    (advance n s).ct = s.ct ∧ (advance n s).pq = s.pq ∧ (advance n s).hdr = s.hdr ∧
    (advance n s).dstate = s.dstate ∧ (advance n s).cur = s.cur ∧ (advance n s).busy = s.busy ∧
    (advance n s).done = s.done ∧ (advance n s).treeValid = s.treeValid ∧ (advance n s).ctValid = s.ctValid ∧
    (advance n s).oclosed = s.oclosed ∧ (advance n s).err = s.err ∧ (advance n s).output = s.output ∧
    (advance n s).host = s.host ∧ (advance n s).record = s.record ∧ (advance n s).free = s.free := by
  simp [advance]

@[simp] theorem inReset_fields (s : State) :
    (inReset s).input = ⟨s.input.data, 0⟩ ∧ (inReset s).ft = s.ft ∧ (inReset s).node = s.node ∧
    (inReset s).root = s.root ∧ (inReset s).ncount = s.ncount ∧ (inReset s).ct = s.ct ∧
    (inReset s).pq = s.pq ∧ (inReset s).hdr = s.hdr ∧ (inReset s).dstate = s.dstate ∧
    (inReset s).cur = s.cur ∧ (inReset s).busy = s.busy ∧ (inReset s).done = s.done ∧
    (inReset s).treeValid = s.treeValid ∧ (inReset s).ctValid = s.ctValid ∧
    (inReset s).oclosed = s.oclosed ∧ (inReset s).err = s.err ∧ (inReset s).output = s.output ∧
    (inReset s).host = s.host ∧ (inReset s).record = s.record ∧ (inReset s).free = s.free := by
  simp [inReset]

/-! ## The common steps and the faults -/

@[simp] theorem accept_fields (s : State) :
    (accept s).busy = true ∧ (accept s).done = false ∧ (accept s).ft = s.ft ∧ (accept s).node = s.node ∧
    (accept s).root = s.root ∧ (accept s).ncount = s.ncount ∧ (accept s).ct = s.ct ∧ (accept s).pq = s.pq ∧
    (accept s).hdr = s.hdr ∧ (accept s).dstate = s.dstate ∧ (accept s).cur = s.cur ∧
    (accept s).treeValid = s.treeValid ∧ (accept s).ctValid = s.ctValid ∧ (accept s).oclosed = s.oclosed ∧
    (accept s).err = s.err ∧ (accept s).input = s.input ∧ (accept s).output = s.output ∧
    (accept s).host = s.host ∧ (accept s).record = s.record ∧ (accept s).free = s.free := by
  simp [accept]

@[simp] theorem complete_fields (s : State) :
    (complete s).busy = false ∧ (complete s).done = true ∧ (complete s).pq = [] ∧ (complete s).hdr = none ∧
    (complete s).ft = s.ft ∧ (complete s).node = s.node ∧ (complete s).root = s.root ∧
    (complete s).ncount = s.ncount ∧ (complete s).ct = s.ct ∧ (complete s).dstate = s.dstate ∧
    (complete s).cur = s.cur ∧ (complete s).treeValid = s.treeValid ∧ (complete s).ctValid = s.ctValid ∧
    (complete s).oclosed = s.oclosed ∧ (complete s).err = s.err ∧ (complete s).input = s.input ∧
    (complete s).output = s.output ∧ (complete s).host = s.host ∧ (complete s).record = s.record ∧
    (complete s).free = s.free := by
  simp [complete]

@[simp] theorem enterFault_fields (f : BlockFault) (s : State) :
    (enterFault f s).err = f.toErr ∧ (enterFault f s).busy = false ∧ (enterFault f s).done = false ∧
    (enterFault f s).pq = [] ∧ (enterFault f s).hdr = none ∧ (enterFault f s).ft = s.ft ∧
    (enterFault f s).node = s.node ∧ (enterFault f s).root = s.root ∧ (enterFault f s).ncount = s.ncount ∧
    (enterFault f s).ct = s.ct ∧ (enterFault f s).dstate = s.dstate ∧ (enterFault f s).cur = s.cur ∧
    (enterFault f s).treeValid = s.treeValid ∧ (enterFault f s).ctValid = s.ctValid ∧
    (enterFault f s).oclosed = s.oclosed ∧ (enterFault f s).input = s.input ∧
    (enterFault f s).output = s.output ∧ (enterFault f s).host = s.host ∧
    (enterFault f s).record = s.record ∧ (enterFault f s).free = s.free := by
  simp [enterFault]

@[simp] theorem blockReset_fields (s : State) :
    (blockReset s).ft = Vector.replicate 256 0 ∧ (blockReset s).root = 0 ∧ (blockReset s).ncount = 0 ∧
    (blockReset s).pq = [] ∧ (blockReset s).hdr = none ∧ (blockReset s).dstate = .atRoot ∧
    (blockReset s).cur = 0 ∧ (blockReset s).busy = false ∧ (blockReset s).done = false ∧
    (blockReset s).treeValid = false ∧ (blockReset s).ctValid = false ∧ (blockReset s).oclosed = false ∧
    (blockReset s).err = ⟨0, 0, 0⟩ ∧ (blockReset s).input = s.input ∧ (blockReset s).output = s.output ∧
    (blockReset s).host = s.host ∧ (blockReset s).record = s.record ∧ (blockReset s).free = s.free + 1 := by
  simp [blockReset, State.reset]

/-- No fault leaves `CODE` = 0: taking a fault always raises `ERRF` (R221, R232). -/
theorem toErr_code_ne_zero (f : BlockFault) : f.toErr.code ≠ 0 := by
  cases f <;> simp [BlockFault.toErr]

/-- `ERRF` after a fault (R232). -/
@[simp] theorem enterFault_errf (f : BlockFault) (s : State) : (enterFault f s).errf = true := by
  simpa [State.errf] using toErr_code_ne_zero f

@[simp] theorem startHeader_fields (s : State) :
    (startHeader s).treeValid = false ∧ (startHeader s).ctValid = false ∧ (startHeader s).ncount = 0 ∧
    (startHeader s).hdr = some ⟨Vector.replicate 257 false, []⟩ ∧ (startHeader s).ft = s.ft ∧
    (startHeader s).node = s.node ∧ (startHeader s).root = s.root ∧ (startHeader s).ct = s.ct ∧
    (startHeader s).pq = s.pq ∧ (startHeader s).dstate = s.dstate ∧ (startHeader s).cur = s.cur ∧
    (startHeader s).busy = s.busy ∧ (startHeader s).done = s.done ∧ (startHeader s).oclosed = s.oclosed ∧
    (startHeader s).err = s.err ∧ (startHeader s).input = s.input ∧ (startHeader s).output = s.output ∧
    (startHeader s).host = s.host ∧ (startHeader s).record = s.record ∧ (startHeader s).free = s.free := by
  simp [startHeader]

@[simp] theorem toRoot_fields (s : State) :
    (toRoot s).cur = s.root ∧ (toRoot s).dstate = .atRoot ∧ (toRoot s).ft = s.ft ∧ (toRoot s).node = s.node ∧
    (toRoot s).root = s.root ∧ (toRoot s).ncount = s.ncount ∧ (toRoot s).ct = s.ct ∧ (toRoot s).pq = s.pq ∧
    (toRoot s).hdr = s.hdr ∧ (toRoot s).busy = s.busy ∧ (toRoot s).done = s.done ∧
    (toRoot s).treeValid = s.treeValid ∧ (toRoot s).ctValid = s.ctValid ∧ (toRoot s).oclosed = s.oclosed ∧
    (toRoot s).err = s.err ∧ (toRoot s).input = s.input ∧ (toRoot s).output = s.output ∧
    (toRoot s).host = s.host ∧ (toRoot s).record = s.record ∧ (toRoot s).free = s.free := by
  simp [toRoot]

end Sys2Proof.Machine
end

