-- ==== Sys2Proof/Laws/Ops.lean ====
section
/-! SUPPORT. What each shared operation can do, said once: sequencing, the channels, allocation, and the steps common to
every command. -/

namespace Sys2Proof.Machine

/-! ## Sequencing -/

@[simp] theorem ok_bind {α β : Type} (a : α) (f : α → Result β) : (Result.ok a).bind f = f a := rfl
@[simp] theorem raised_bind {α β : Type} (b : BlockFault) (s : State) (f : α → Result β) :
    (Result.raised b s : Result α).bind f = .raised b s := rfl
@[simp] theorem refused_bind {α β : Type} (r : Refusal) (f : α → Result β) :
    (Result.refused r : Result α).bind f = .refused r := rfl
@[simp] theorem stuck_bind {α β : Type} (x : Fault) (f : α → Result β) :
    (Result.stuck x : Result α).bind f = .stuck x := rfl

theorem bind_assoc {α β γ : Type} (r : Result α) (f : α → Result β) (g : β → Result γ) :
    (r.bind f).bind g = r.bind fun a => (f a).bind g := by cases r <;> rfl

theorem bind_eq_ok {α β : Type} {r : Result α} {f : α → Result β} {b : β} :
    r.bind f = .ok b ↔ ∃ a, r = .ok a ∧ f a = .ok b := by cases r <;> simp

theorem bind_eq_raised {α β : Type} {r : Result α} {f : α → Result β} {x : BlockFault} {t : State} :
    r.bind f = .raised x t ↔ r = .raised x t ∨ ∃ a, r = .ok a ∧ f a = .raised x t := by cases r <;> simp

theorem bind_eq_stuck {α β : Type} {r : Result α} {f : α → Result β} {x : Fault} :
    r.bind f = .stuck x ↔ r = .stuck x ∨ ∃ a, r = .ok a ∧ f a = .stuck x := by cases r <;> simp

theorem bind_eq_refused {α β : Type} {r : Result α} {f : α → Result β} {x : Refusal} :
    r.bind f = .refused x ↔ r = .refused x ∨ ∃ a, r = .ok a ∧ f a = .refused x := by cases r <;> simp

/-! ## The channels -/

theorem bitsLeft_eq (s : State) : bitsLeft s = (unread s).length := by simp [bitsLeft, unread]

theorem unread_advance (n : Nat) (s : State) : unread (advance n s) = (unread s).drop n := by
  simp [unread, advance, List.drop_drop]

/-- `InRead(n)` on at least `n` bits (R63). -/
theorem inRead_append {n : Nat} {s : State} {q rest : List Bool} (h : unread s = q ++ rest) (hn : q.length = n) :
    inRead n s = some (valMSB q, advance n s) := by
  subst hn
  simp [inRead, bitsLeft_eq, h]

/-- `InRead(n)` on fewer than `n` bits is `EOS_SIGNAL` (R64). -/
theorem inRead_short {n : Nat} {s : State} (h : (unread s).length < n) : inRead n s = none := by
  simp [inRead, bitsLeft_eq, h]

/-- `InRead(n)` takes exactly `n` bits off the front, or signals the end (R63, R64). -/
theorem inRead_cases (n : Nat) (s : State) :
    (inRead n s = none ∧ (unread s).length < n) ∨
    ∃ q, q.length = n ∧ unread s = q ++ unread (advance n s) ∧ inRead n s = some (valMSB q, advance n s) := by
  by_cases h : (unread s).length < n
  · exact .inl ⟨inRead_short h, h⟩
  · refine .inr ⟨(unread s).take n, by simp; omega, ?_, ?_⟩
    · rw [unread_advance, List.take_append_drop]
    · exact inRead_append (rest := (unread s).drop n) (by rw [List.take_append_drop]) (by simp; omega)

/-- What a write to an open channel does (R66, R67). -/
theorem outBits_open {s : State} (q : List Bool) (h : s.output.closed = false) :
    outBits q s = .ok { s with output := ⟨s.output.bits ++ q, false⟩ } := by
  unfold outBits
  split
  · subst_vars
    cases s with | mk => rename_i out _ _ _; cases out; simp_all
  · simp [h]

/-- A write appends and nothing else; it is refused only of a closed channel and a non-empty sequence (R66, R67). -/
theorem outBits_cases (q : List Bool) (s : State) :
    (outBits q s = .ok { s with output := ⟨s.output.bits ++ q, s.output.closed⟩ } ∧
      (q = [] ∨ s.output.closed = false)) ∨
    (outBits q s = .refused .writeToClosedOutput ∧ q ≠ [] ∧ s.output.closed = true) := by
  cases hc : s.output.closed
  · exact .inl ⟨outBits_open q hc, .inr rfl⟩
  · by_cases hq : q = []
    · left
      subst hq
      refine ⟨?_, .inl rfl⟩
      cases s with | mk => rename_i out _ _ _; cases out; simp_all [outBits]
    · right; simp [outBits, hq, hc]

theorem outBits_nil (s : State) : outBits [] s = .ok s := by simp [outBits]

/-- Closing an open channel (R68). -/
theorem outClose_open {s : State} (h : s.output.closed = false) :
    outClose s = .ok { s with output :=
      ⟨s.output.bits ++ List.replicate (padCount s.output.bits.length) false, true⟩ } := by
  simp [outClose, h, Config.padBit]

/-! ## Allocation -/

/-- Allocating a node while the store has room (R130, R152). -/
theorem alloc_room {s : State} (nd : Node) (h : s.ncount.val < 513) :
    alloc nd s = .ok (⟨s.ncount.val, h⟩,
      { s with node := s.node.set s.ncount.val nd, ncount := ⟨s.ncount.val + 1, by omega⟩ }) := by
  simp [alloc, h]

/-- Allocation writes the entry at `NCOUNT` and counts it; only a full store stops it. -/
theorem alloc_cases (nd : Node) (s : State) :
    (∃ h : s.ncount.val < 513, alloc nd s = .ok (⟨s.ncount.val, h⟩,
      { s with node := s.node.set s.ncount.val nd, ncount := ⟨s.ncount.val + 1, by omega⟩ })) ∨
    (s.ncount.val = 513 ∧ alloc nd s = .stuck .nodeStoreFull) := by
  by_cases h : s.ncount.val < 513
  · exact .inl ⟨h, alloc_room nd h⟩
  · exact .inr ⟨by omega, by simp [alloc, h]⟩

/-! ## The common steps -/

theorem ready_not_ignored {s : State} (h : Ready s) : ignores s = false := by
  obtain ⟨⟨hb, -, -⟩, he⟩ := h
  simp [ignores, hb, State.errf, he]

theorem ignored_of_fault {s : State} (h : s.err.code ≠ 0) : ignores s = true := by
  have h' : ¬ s.err.code = 0#4 := h
  simp [ignores, State.errf, h']

/-- A command on a ready block whose checks pass is its body, accepted and ended (R212 to R214). -/
theorem runCommand_ready {n : Needs} {body : State → Result State} {s : State} (h : Ready s)
    (hn : failedNeed n s = none) : runCommand n body s = finish (body (accept s)) := by
  have : failedNeed n (accept s) = none := by simpa [failedNeed] using hn
  simp [runCommand, ready_not_ignored h, this]

/-- A command on a ready block whose checks fail raises `BAD_SEQUENCE` (R213). -/
theorem runCommand_failed {n : Needs} {body : State → Result State} {s : State} {f : BlockFault} (h : Ready s)
    (hn : failedNeed n s = some f) : runCommand n body s = .next (enterFault f (accept s)) := by
  have : failedNeed n (accept s) = some f := by simpa [failedNeed] using hn
  simp [runCommand, ready_not_ignored h, this]

/-- A command on a busy or faulted block is ignored (R31, R236, R264). -/
theorem runCommand_ignored {n : Needs} {body : State → Result State} {s : State} (h : ignores s = true) :
    runCommand n body s = .next s := by simp [runCommand, h]

/-- Everything a command can do. -/
theorem runCommand_cases (n : Needs) (body : State → Result State) (s : State) :
    (ignores s = true ∧ runCommand n body s = .next s) ∨
    (ignores s = false ∧ ∃ f, failedNeed n s = some f ∧ runCommand n body s = .next (enterFault f (accept s))) ∨
    (ignores s = false ∧ failedNeed n s = none ∧ runCommand n body s = finish (body (accept s))) := by
  have e : failedNeed n (accept s) = failedNeed n s := by simp [failedNeed]
  cases hi : ignores s
  · cases hf : failedNeed n s with
    | none => right; right; simp [runCommand, hi, e, hf]
    | some f => right; left; simp [runCommand, hi, e, hf]
  · left; simp [runCommand, hi]

/-- How a command that answers a next state ended (R214, R232). -/
theorem finish_eq_next {r : Result State} {t : State} :
    finish r = .next t ↔ (∃ s, r = .ok s ∧ t = complete s) ∨ ∃ f s, r = .raised f s ∧ t = enterFault f s := by
  cases r <;> simp [finish, eq_comm]

end Sys2Proof.Machine
end

