-- ==== Sys2Proof/Laws/Exec.lean ====
section
/-! SUPPORT. Every command but SRESET is one body inside the common steps; what a step fetches. Proofs over all
commands go through `exec_command`, proofs over steps through `step_host` and `step_token`. -/

namespace Sys2Proof.Machine

/-- The checks of a command, as the meanings give them to `runCommand`. -/
def needsOf : Instr → Needs
  | .gencodes => needsTree
  | .wrMagic => needsOut
  | .wrHeader => needsTreeOut
  | .encPayload => needsCtOut
  | .closeOut => needsOut
  | .decPayload => needsTreeOut
  | .compress => needsOut
  | .decompress => needsOut
  | .nop => needsNothing
  | .sreset => needsNothing
  | .ftClr => needsNothing
  | .count => needsNothing
  | .build => needsNothing
  | .rdMagic => needsNothing
  | .rdHeader => needsNothing
  | .hdrInternal => needsNothing
  | .hdrLeaf _ => needsNothing

/-- The body of a command, as the meanings give it to `runCommand`. -/
def bodyOf : Instr → State → Result State
  | .nop => .ok
  | .sreset => .ok
  | .ftClr => bodyFtClr
  | .count => bodyCount
  | .build => bodyBuild
  | .gencodes => bodyGencodes
  | .wrMagic => bodyWrMagic magic
  | .wrHeader => bodyWrHeader
  | .encPayload => bodyEncPayload
  | .closeOut => bodyCloseOut
  | .rdMagic => bodyRdMagic magic
  | .rdHeader => bodyRdHeader
  | .decPayload => bodyDecPayload
  | .compress => bodyCompress magic
  | .decompress => bodyDecompress magic
  | .hdrInternal => .ok
  | .hdrLeaf _ => .ok

/-- Every command but SRESET is its body inside the common steps. -/
theorem exec_command {i : Instr} (hc : i.isCommand = true) (hi : i ≠ .sreset) (s : State) :
    exec i s = runCommand (needsOf i) (bodyOf i) s := by
  cases i <;> first | rfl | contradiction

/-- SRESET: the reset state, unless the block is busy (R211). -/
theorem exec_sreset (s : State) : exec .sreset s = if s.busy then .next s else .next (blockReset s) := rfl

/-- A command on a ready block whose checks pass. -/
theorem exec_ready {i : Instr} (hc : i.isCommand = true) (hi : i ≠ .sreset) {s : State} (h : Ready s)
    (hn : failedNeed (needsOf i) s = none) : exec i s = finish (bodyOf i (accept s)) := by
  rw [exec_command hc hi, runCommand_ready h hn]

/-- Every command but SRESET is ignored by a busy or faulted block (R31, R236, R264). -/
theorem exec_ignored {i : Instr} (hc : i.isCommand = true) (hi : i ≠ .sreset) {s : State}
    (h : ignores s = true) : exec i s = .next s := by
  rw [exec_command hc hi, runCommand_ignored h]

/-- A command word decodes to a command (R92). -/
theorem decodeCommand_isCommand {w : Word} {i : Instr} (h : decodeCommand w = .ok i) : i.isCommand = true := by
  unfold decodeCommand at h
  split at h
  · cases h
  · split at h
    · rename_i row hrow
      have hm := List.mem_of_find?_eq_some hrow
      cases h
      revert hm
      have : ∀ row ∈ commandRows, row.2.isCommand = true := by decide
      exact this row
    · cases h

/-- What a step does with the host's next action. -/
theorem step_host {s : State} {a : HostAction} {rest : List HostAction} (hh : s.hdr = none)
    (hr : s.host = a :: rest) :
    step s = match fetchHost a { s with host := rest } with
      | .instr i s1 => exec i s1
      | .event s1 => .next s1 := by
  unfold step fetch
  rw [hh, hr]
  all_goals rfl

/-- A step of an idle block with nothing to do (R239, R260). -/
theorem step_nothing {s : State} (hh : s.hdr = none) (hr : s.host = []) : step s = .next s := by
  simp [step, fetch, hh, hr]

/-- A step inside a header (R152). -/
theorem step_token {s : State} {h : HeaderRead} (hh : s.hdr = some h) :
    step s = match fetchToken s with
      | .ok (k, s1) => exec k.toInstr s1
      | .error (f, s1) => .next (enterFault f s1) := by
  simp only [step, fetch, hh]
  all_goals (cases fetchToken s <;> rfl)

/-- The state in which a ready block's command ends, if its body touches no common field: `BUSY` is 0 again. -/
theorem complete_accept {s : State} (h : Ready s) : complete (accept s) = { s with done := true } := by
  obtain ⟨⟨hb, hp, hh⟩, -⟩ := h
  cases s; simp_all [complete, accept]

/-- A fault of a ready block before its body (R213, R232). -/
theorem enterFault_accept {s : State} (h : Ready s) (f : BlockFault) :
    enterFault f (accept s) = { s with err := f.toErr, done := false } := by
  obtain ⟨⟨hb, hp, hh⟩, -⟩ := h
  cases s; simp_all [enterFault, accept]

end Sys2Proof.Machine
end

