-- ==== Sys2Proof/Laws/Bodies.lean ====
section
/-! SUPPORT. What each body can do: the fields it may write, whether it completes or faults, which faults it raises. A
body never touches `BUSY`, `DONE`, `ERR`, the host's list, the record or the count of free values; those equations are
part of each lemma, since each names the written fields and no other. -/

namespace Sys2Proof.Machine

/-- A result meets `p` if it is `ok` and `q` if it is `raised`. -/
def Result.Meets {α : Type} (r : Result α) (p : α → Prop) (q : BlockFault → State → Prop) : Prop :=
  match r with
  | .ok a => p a
  | .raised f s => q f s
  | .refused _ => True
  | .stuck _ => True

@[simp] theorem ok_meets {α : Type} (a : α) (p : α → Prop) (q : BlockFault → State → Prop) :
    (Result.ok a).Meets p q = p a := rfl
@[simp] theorem raised_meets {α : Type} (f : BlockFault) (s : State) (p : α → Prop)
    (q : BlockFault → State → Prop) : (Result.raised f s : Result α).Meets p q = q f s := rfl
@[simp] theorem refused_meets {α : Type} (r : Refusal) (p : α → Prop) (q : BlockFault → State → Prop) :
    (Result.refused r : Result α).Meets p q = True := rfl
@[simp] theorem stuck_meets {α : Type} (r : Fault) (p : α → Prop) (q : BlockFault → State → Prop) :
    (Result.stuck r : Result α).Meets p q = True := rfl

theorem Result.Meets.of_ok {α : Type} {r : Result α} {p : α → Prop} {q : BlockFault → State → Prop}
    (h : r.Meets p q) {a : α} (e : r = .ok a) : p a := by subst e; exact h

theorem Result.Meets.of_raised {α : Type} {r : Result α} {p : α → Prop} {q : BlockFault → State → Prop}
    (h : r.Meets p q) {f : BlockFault} {s : State} (e : r = .raised f s) : q f s := by subst e; exact h

theorem Result.Meets.imp {α : Type} {r : Result α} {p p' : α → Prop} {q q' : BlockFault → State → Prop}
    (h : r.Meets p q) (hp : ∀ a, p a → p' a) (hq : ∀ f s, q f s → q' f s) : r.Meets p' q' := by
  cases r with
  | ok a => exact hp _ h
  | raised f s => exact hq _ _ h
  | refused => trivial
  | stuck => trivial

/-- The rule of sequencing. -/
theorem Result.Meets.bind {α β : Type} {r : Result α} {f : α → Result β} {p : α → Prop} {p' : β → Prop}
    {q q' : BlockFault → State → Prop} (h : r.Meets p q) (hq : ∀ b s, q b s → q' b s)
    (hf : ∀ a, p a → (f a).Meets p' q') : (r.bind f).Meets p' q' := by
  cases r with
  | ok a => exact hf _ h
  | raised b s => exact hq _ _ h
  | refused => trivial
  | stuck => trivial

/-! ## Frequency counter -/

/-- The counting loop writes the frequency table and the read position. -/
theorem countLoop_frame (k : Nat) (s : State) : (countLoop k s).Meets
    (fun t => t = { s with ft := t.ft, input := ⟨s.input.data, t.input.pos⟩ })
    (fun f t => (∃ b, f = .countOverflow b) ∧ t = { s with ft := t.ft, input := ⟨s.input.data, t.input.pos⟩ }) := by
  induction k generalizing s with
  | zero => simp [countLoop]
  | succ k ih =>
    simp only [countLoop]
    rcases inRead_cases 8 s with ⟨h, -⟩ | ⟨q, -, -, h⟩ <;> simp only [h]
    · rfl
    · split
      · simp only [raised_meets]; exact ⟨⟨_, rfl⟩, rfl⟩
      · refine (ih _).imp (fun t ht => ?_) (fun f t ht => ⟨ht.1, ?_⟩)
        · rw [ht, ftWrite_eq]; simp [advance]
        · rw [ht.2, ftWrite_eq]; simp [advance]

/-- COUNT writes the frequency table and the read position, which it resets when it completes (R122). -/
theorem bodyCount_frame (s : State) : (bodyCount s).Meets
    (fun t => t = { s with ft := t.ft, input := ⟨s.input.data, 0⟩ })
    (fun f t => (∃ b, f = .countOverflow b) ∧ t = { s with ft := t.ft, input := ⟨s.input.data, t.input.pos⟩ }) := by
  refine (countLoop_frame _ _).bind (fun f t ht => ⟨ht.1, ?_⟩) (fun t ht => ?_)
  · rw [ht.2]; simp [ftClear]
  · simp only [ok_meets]; rw [ht]; simp [ftClear, inReset]

/-! ## Tree builder -/

/-- What BUILD's loops may write. -/
def buildWrites (s t : State) : Prop := t = { s with node := t.node, ncount := t.ncount, pq := t.pq }

theorem buildWrites.trans {s t u : State} (h : buildWrites s t) (h' : buildWrites t u) : buildWrites s u := by
  unfold buildWrites at *; rw [h', h]

theorem enqueue_frame (nd : Node) (s : State) :
    (enqueue nd s).Meets (buildWrites s) (fun _ _ => False) := by
  unfold enqueue
  rcases alloc_cases nd s with ⟨h, e⟩ | ⟨-, e⟩ <;> simp [e, buildWrites]

theorem buildLeaves_frame (xs : List Sym) (s : State) :
    (buildLeaves xs s).Meets (buildWrites s) (fun _ _ => False) := by
  induction xs generalizing s with
  | nil => simp [buildLeaves, buildWrites]
  | cons x xs ih =>
    simp only [buildLeaves]
    split
    · exact ih s
    · exact (enqueue_frame _ s).bind (fun _ _ h => h) fun t ht => (ih t).imp (fun u hu => ht.trans hu) fun _ _ h => h

theorem combineLoop_frame (k : Nat) (s : State) :
    (combineLoop k s).Meets (buildWrites s) (fun _ _ => False) := by
  induction k generalizing s with
  | zero => simp [combineLoop, buildWrites]
  | succ k ih =>
    simp only [combineLoop]
    split
    · simp [buildWrites]
    · split
      · simp [buildWrites]
      · rename_i q2 _
        refine (enqueue_frame _ _).bind (fun _ _ h => h) fun t ht => (ih t).imp (fun u hu => ?_) fun _ _ h => h
        exact buildWrites.trans (t := { s with pq := q2 }) rfl (ht.trans hu)

/-- BUILD raises no fault and writes the tree, `TREE_VALID` and `CT_VALID` (R130). -/
theorem bodyBuild_frame (s : State) : (bodyBuild s).Meets
    (fun t => t = { s with node := t.node, ncount := t.ncount, root := t.root, treeValid := true, ctValid := false,
                           pq := [] })
    (fun _ _ => False) := by
  refine (buildLeaves_frame _ _).bind (fun _ _ h => h) fun t ht => ?_
  refine (combineLoop_frame _ _).bind (fun _ _ h => h) fun u hu => ?_
  unfold takeRoot
  split
  · trivial
  · have := ht.trans hu
    unfold buildWrites at this
    simp only [ok_meets]; rw [this]

/-! ## Code generator and header writer -/

/-- GENCODES raises no fault and writes the code table and its flag (R140). -/
theorem bodyGencodes_frame (s : State) : (bodyGencodes s).Meets
    (fun t => t = { s with ct := t.ct, ctValid := true }) (fun _ _ => False) := by
  unfold bodyGencodes; split <;> simp

/-- A write raises no fault and appends to the output (R66, R67). -/
theorem outBits_frame (q : List Bool) (s : State) : (outBits q s).Meets
    (fun t => t = { s with output := ⟨s.output.bits ++ q, s.output.closed⟩ } ∧ (q = [] ∨ s.output.closed = false))
    (fun _ _ => False) := by
  rcases outBits_cases q s with ⟨h, h'⟩ | ⟨h, -, -⟩ <;> simp [h]
  exact h'

/-- WR_HEADER raises no fault and appends to the output (R150). -/
theorem bodyWrHeader_frame (s : State) : (bodyWrHeader s).Meets
    (fun t => ∃ q, t = { s with output := ⟨s.output.bits ++ q, s.output.closed⟩ } ∧
      (q = [] ∨ s.output.closed = false)) (fun _ _ => False) := by
  unfold bodyWrHeader
  split
  · trivial
  · exact (outBits_frame _ s).imp (fun t ht => ⟨_, ht⟩) fun _ _ h => h

/-! ## Header reader -/

/-- The faults of a header read (R153). -/
def isHeaderFault : BlockFault → Prop
  | .eofTag | .eofSymbol | .symRange _ | .dupSymbol _ | .tooDeep => True
  | _ => False

/-- What reading a header may write while it goes on. -/
def headerWrites (s t : State) : Prop :=
  t = { s with node := t.node, ncount := t.ncount, root := t.root, treeValid := t.treeValid, hdr := t.hdr,
               input := t.input } ∧ t.input.data = s.input.data

theorem headerWrites.refl (s : State) : headerWrites s s := ⟨rfl, rfl⟩

theorem headerWrites.trans {s t u : State} (h : headerWrites s t) (h' : headerWrites t u) : headerWrites s u := by
  refine ⟨?_, h'.2.trans h.2⟩
  have h1 := h.1
  have h2 := h'.1
  rw [h2, h1]

theorem headerWrites_advance (n : Nat) (s : State) : headerWrites s (advance n s) := ⟨rfl, rfl⟩

theorem headerWrites_alloc (s : State) (nd : Vector Node 513) (n : Fin 514) :
    headerWrites s { s with node := nd, ncount := n } := ⟨rfl, rfl⟩

theorem headerWrites_hdr (s : State) (h : Option HeaderRead) : headerWrites s { s with hdr := h } := ⟨rfl, rfl⟩

theorem headerWrites_root (s : State) (i : NodeIdx) :
    headerWrites s { s with root := i, treeValid := true, hdr := none } := ⟨rfl, rfl⟩

/-- Fetching a token moves the position and nothing else; it faults only at the end of the input (R152, R153). -/
theorem fetchToken_frame (s : State) :
    (∃ k n, 1 ≤ n ∧ n ≤ bitsLeft s ∧ fetchToken s = .ok (k, advance n s)) ∨
    (bitsLeft s = 0 ∧ fetchToken s = .error (.eofTag, s)) ∨
    (bitsLeft s ≠ 0 ∧ fetchToken s = .error (.eofSymbol, advance 1 s)) := by
  rw [bitsLeft_eq]
  unfold fetchToken
  cases h : unread s with
  | nil => simp [decodeToken]
  | cons b q =>
    cases b
    · exact .inl ⟨.internal, 1, by omega, by simp, by simp [decodeToken]⟩
    · by_cases hq : q.length < 9
      · simp [decodeToken, hq]
      · exact .inl ⟨.leaf (BitVec.ofNat 9 (valMSB (q.take 9))), 10, by omega, by simp; omega, by simp [decodeToken, hq]⟩

/-- Handing on the node `i`, just constructed, over open nodes whose left children `lefts` are known closes them all, one
after the other at the next indices, and hands the last one on to what is left of the stack (R152, R154). -/
theorem closeSubtree_lefts (seen : Vector Bool 257) (lefts : List NodeIdx) (rest : List (Option NodeIdx)) (i : NodeIdx)
    (s : State) (hn : s.ncount.val = i.val + 1) :
    (∀ hm : i.val + lefts.length < 513, ∃ node : Vector Node 513,
      (∀ (j : Nat) (hj : j < lefts.length),
        node[i.val + 1 + j] = .internal 0 lefts[j] ⟨i.val + j, by omega⟩) ∧
      (∀ k : NodeIdx, k.val ≤ i.val ∨ i.val + lefts.length < k.val → node[k] = s.node[k]) ∧
      closeSubtree seen (lefts.map some ++ rest) i s = closeSubtree seen rest ⟨i.val + lefts.length, hm⟩
        { s with node := node, ncount := Fin.ofNat 514 (i.val + lefts.length + 1) }) ∧
    (513 ≤ i.val + lefts.length → closeSubtree seen (lefts.map some ++ rest) i s = .stuck .nodeStoreFull) := by
  induction lefts generalizing i s with
  | nil =>
    refine ⟨fun hm => ⟨s.node, by simp, by simp, ?_⟩, fun h => by have := i.isLt; simp at h; omega⟩
    have : Fin.ofNat 514 (i.val + 1) = s.ncount := Fin.ext (by have := i.isLt; simp [Fin.ofNat]; omega)
    simp only [List.map_nil, List.nil_append, List.length_nil, Nat.add_zero, this]
  | cons l lefts ih =>
    simp only [List.map_cons, List.cons_append, closeSubtree]
    rcases alloc_cases (.internal 0 l i) s with ⟨h, e⟩ | ⟨h, e⟩
    · rw [e, ok_bind]
      obtain ⟨h1, h2⟩ := ih ⟨s.ncount.val, h⟩
        { s with node := s.node.set s.ncount.val (.internal 0 l i), ncount := ⟨s.ncount.val + 1, by omega⟩ } rfl
      refine ⟨fun hm => ?_, fun hm => h2 (by simp at hm ⊢; omega)⟩
      obtain ⟨node, made, kept, next⟩ := h1 (by simp at hm ⊢; omega)
      refine ⟨node, fun j hj => ?_, fun k hk => ?_, ?_⟩
      · cases j with
        | zero => simpa [hn] using kept ⟨s.ncount.val, h⟩ (.inl (by simp))
        | succ j =>
          have := made j (by simp at hj; omega)
          simp only [hn] at this
          simp only [List.getElem_cons_succ, show i.val + 1 + (j + 1) = i.val + 1 + 1 + j by omega, this]
          congr 1
          exact Fin.ext (by simp; omega)
      · rw [kept k (by simp at hk ⊢; omega)]
        simp only [Fin.getElem_fin]
        rw [Vector.getElem_set_ne]
        simp at hk; omega
      · simp only [next, show s.ncount.val + lefts.length = i.val + (l :: lefts).length by simp; omega]
    · rw [e]
      exact ⟨fun hm => by simp at hm; omega, fun _ => rfl⟩

theorem closeSubtree_frame (seen : Vector Bool 257) (stack : List (Option NodeIdx)) (i : NodeIdx) (s : State) :
    (closeSubtree seen stack i s).Meets (fun t => headerWrites s t ∧ t.input = s.input ∧
      (t.hdr = none → t.treeValid = true) ∧ (∀ h, t.hdr = some h → t.treeValid = s.treeValid))
      (fun _ _ => False) := by
  induction stack generalizing i s with
  | nil =>
    unfold closeSubtree
    exact ⟨headerWrites_root s i, rfl, fun _ => rfl, fun h e => nomatch e⟩
  | cons o rest ih =>
    cases o with
    | none =>
      unfold closeSubtree
      exact ⟨headerWrites_hdr s _, rfl, fun e => (nomatch e), fun _ _ => rfl⟩
    | some l =>
      unfold closeSubtree
      rcases alloc_cases (.internal 0 l i) s with ⟨h, e⟩ | ⟨-, e⟩ <;> rw [e]
      · rw [ok_bind]
        exact (ih _ _).imp (fun t ht => ⟨(headerWrites_alloc s _ _).trans ht.1, ht.2⟩) fun _ _ h => h
      · trivial

theorem applyToken_frame (k : HdrToken) (s : State) :
    (applyToken k s).Meets
      (fun t => headerWrites s t ∧ t.input = s.input ∧ (t.hdr = none → t.treeValid = true) ∧
        (∀ h, t.hdr = some h → t.treeValid = s.treeValid))
      (fun f t => isHeaderFault f ∧ t = s) := by
  unfold applyToken
  split
  · trivial
  · rename_i h hh
    cases k with
    | internal =>
      simp only [readInternal]
      split
      · exact ⟨trivial, rfl⟩
      · exact ⟨headerWrites_hdr s _, rfl, fun e => (nomatch e), fun _ _ => rfl⟩
    | leaf v =>
      simp only [readLeaf]
      split
      · rename_i f hf
        refine ⟨?_, rfl⟩
        unfold checkSymbol at hf
        split at hf
        · split at hf <;> cases hf; trivial
        · cases hf; trivial
      · rename_i x _
        rcases alloc_cases (.leaf x 0) s with ⟨h, e⟩ | ⟨-, e⟩ <;> rw [e]
        · rw [ok_bind]
          exact (closeSubtree_frame _ _ _ _).imp (fun t ht => ⟨(headerWrites_alloc s _ _).trans ht.1, ht.2⟩)
            fun _ _ h => h.elim
        · trivial

theorem readTokens_frame (k : Nat) (s : State) : (readTokens k s).Meets
    (fun t => headerWrites s t ∧ t.hdr = none ∧ t.treeValid = true)
    (fun f t => isHeaderFault f ∧ headerWrites s t ∧ t.treeValid = s.treeValid) := by
  induction k generalizing s with
  | zero => exact ⟨trivial, headerWrites.refl s, rfl⟩
  | succ k ih =>
    unfold readTokens
    rcases fetchToken_frame s with ⟨tk, n, -, -, e⟩ | ⟨-, e⟩ | ⟨-, e⟩ <;> simp only [e]
    · refine (applyToken_frame tk _).bind (fun f t h => ⟨h.1, ?_, ?_⟩) fun t ht => ?_
      · rw [h.2]; exact headerWrites_advance n s
      · rw [h.2]; rfl
      · have h1 := (headerWrites_advance n s).trans ht.1
        split
        · rename_i hs
          obtain ⟨h, hh⟩ := Option.isSome_iff_exists.mp hs
          have htv : t.treeValid = s.treeValid := ht.2.2.2 h hh
          exact (ih t).imp (fun u hu => ⟨h1.trans hu.1, hu.2⟩) fun f u hu =>
            ⟨hu.1, h1.trans hu.2.1, hu.2.2.trans htv⟩
        · rename_i hs
          have hn : t.hdr = none := by simpa using hs
          exact ⟨h1, hn, ht.2.2.1 hn⟩
    · exact ⟨trivial, headerWrites.refl s, rfl⟩
    · exact ⟨trivial, headerWrites_advance 1 s, rfl⟩

/-- RD_HEADER writes the tree, its flags and the read position; a fault leaves both flags down (R152, R223). -/
theorem bodyRdHeader_frame (s : State) : (bodyRdHeader s).Meets
    (fun t => t.input.data = s.input.data ∧
      t = { s with node := t.node, ncount := t.ncount, root := t.root, treeValid := true, ctValid := false,
                   hdr := none, input := t.input })
    (fun f t => isHeaderFault f ∧ t.input.data = s.input.data ∧
      t = { s with node := t.node, ncount := t.ncount, root := t.root, treeValid := false, ctValid := false,
                   hdr := t.hdr, input := t.input }) := by
  refine (readTokens_frame _ _).imp (fun t ht => ?_) fun f t ht => ⟨ht.1, ?_⟩
  · obtain ⟨⟨h, hd⟩, hn, hv⟩ := ht
    rw [hn, hv] at h
    exact ⟨hd, h⟩
  · obtain ⟨-, ⟨h, hd⟩, hv⟩ := ht
    rw [hv] at h
    exact ⟨hd, h⟩

/-! ## Encoder -/

/-- What a body that only reads the input and appends to the output may write. -/
def streamWrites (s t : State) : Prop :=
  ∃ (pos : Nat) (q : List Bool),
    t = { s with input := ⟨s.input.data, pos⟩, output := ⟨s.output.bits ++ q, s.output.closed⟩ } ∧
    (q = [] ∨ s.output.closed = false)

theorem streamWrites.refl (s : State) : streamWrites s s := ⟨s.input.pos, [], by simp, .inl rfl⟩

theorem streamWrites.trans {s t u : State} (h : streamWrites s t) (h' : streamWrites t u) : streamWrites s u := by
  obtain ⟨p, q, rfl, hq⟩ := h
  obtain ⟨p', q', rfl, hq'⟩ := h'
  refine ⟨p', q ++ q', by simp, ?_⟩
  rcases hq with rfl | hq
  · simpa using hq'
  · exact .inr hq

theorem streamWrites_advance (n : Nat) (s : State) : streamWrites s (advance n s) :=
  ⟨s.input.pos + n, [], by simp [advance], .inl rfl⟩

theorem outBits_stream (q : List Bool) (s : State) : (outBits q s).Meets (streamWrites s) (fun _ _ => False) :=
  (outBits_frame q s).imp (fun t ht => ⟨s.input.pos, q, by rw [ht.1], ht.2⟩) fun _ _ h => h

theorem writeCode_frame (x : Sym) (s : State) : (writeCode x s).Meets (streamWrites s)
    (fun f t => f = .noCode x ∧ t = s) := by
  unfold writeCode
  split
  · exact (outBits_stream _ s).imp (fun _ h => h) fun _ _ h => h.elim
  · simp

theorem encLoop_frame (k : Nat) (s : State) : (encLoop k s).Meets (streamWrites s)
    (fun f t => (∃ x, f = .noCode x) ∧ streamWrites s t) := by
  induction k generalizing s with
  | zero => exact streamWrites.refl s
  | succ k ih =>
    simp only [encLoop]
    rcases inRead_cases 8 s with ⟨h, -⟩ | ⟨q, -, -, h⟩ <;> simp only [h]
    · exact streamWrites.refl s
    · refine (writeCode_frame _ _).bind (fun f t h => ⟨⟨_, h.1⟩, ?_⟩) fun t ht => (ih t).imp ?_ ?_
      · rw [h.2]; exact streamWrites_advance 8 s
      · exact fun u hu => ((streamWrites_advance 8 s).trans ht).trans hu
      · exact fun f u hu => ⟨hu.1, ((streamWrites_advance 8 s).trans ht).trans hu.2⟩

/-- ENC_PAYLOAD reads the input and appends to the output; its one fault is `NO_CODE` (R171). -/
theorem bodyEncPayload_frame (s : State) : (bodyEncPayload s).Meets (streamWrites s)
    (fun f t => (∃ x, f = .noCode x) ∧ streamWrites s t) := by
  have h0 : streamWrites s (inReset s) := ⟨0, [], by simp [inReset], .inl rfl⟩
  refine (encLoop_frame _ _).bind (fun f t h => ⟨h.1, h0.trans h.2⟩) fun t ht => (writeCode_frame _ _).imp ?_ ?_
  · exact fun u hu => (h0.trans ht).trans hu
  · exact fun f u hu => ⟨⟨_, hu.1⟩, by rw [hu.2]; exact h0.trans ht⟩

/-- CLOSE_OUT raises no fault, pads an open output to whole bytes, closes it and sets `OCLOSED` (R173). -/
theorem bodyCloseOut_frame (s : State) : (bodyCloseOut s).Meets
    (fun t => s.output.closed = false ∧ t = { s with oclosed := true, output :=
      ⟨s.output.bits ++ List.replicate (padCount s.output.bits.length) false, true⟩ })
    (fun _ _ => False) := by
  unfold bodyCloseOut outClose
  cases h : s.output.closed <;> simp [Config.padBit]

/-! ## Decoder -/

/-- RD_MAGIC moves the position; its faults are the two of `BAD_MAGIC` (R190). -/
theorem bodyRdMagic_frame (m : Word) (s : State) : (bodyRdMagic m s).Meets
    (fun t => t = advance 32 s)
    (fun f t => (f = .shortMagic ∧ t = s) ∨ (f = .badMagic ∧ t = advance 32 s)) := by
  unfold bodyRdMagic
  rcases inRead_cases 32 s with ⟨h, -⟩ | ⟨q, -, -, h⟩ <;> simp only [h]
  · simp
  · split <;> simp

/-- What the decode walk may write. -/
def walkWrites (s t : State) : Prop :=
  ∃ u, streamWrites s u ∧ t = { u with dstate := t.dstate, cur := t.cur }

theorem walkWrites.trans {s t u : State} (h : walkWrites s t) (h' : walkWrites t u) : walkWrites s u := by
  obtain ⟨a, ⟨p, q, rfl, hq⟩, ht⟩ := h
  obtain ⟨b, ⟨p', q', rfl, hq'⟩, hu⟩ := h'
  rw [ht] at hu hq'
  refine ⟨_, ⟨p', q ++ q', rfl, ?_⟩, ?_⟩
  · rcases hq with rfl | hq
    · simpa using hq'
    · exact .inr hq
  · rw [hu]; simp

theorem streamWrites.walk {s t : State} (h : streamWrites s t) : walkWrites s t := ⟨t, h, rfl⟩

theorem arrive_frame (c : NodeIdx) (s : State) : (arrive c s).Meets (walkWrites s) (fun _ _ => False) := by
  unfold arrive
  split
  · exact ⟨s, .refl s, rfl⟩
  · split
    · exact ⟨s, .refl s, rfl⟩
    · exact (outBits_stream _ s).bind (fun _ _ h => h) fun t ht => ⟨t, ht, rfl⟩

/-- The faults of the decode walk (R192). -/
def isWalkFault : BlockFault → Prop
  | .truncatedStream | .degenerateTree _ => True
  | _ => False

theorem decStep_frame (s : State) : (decStep s).Meets (walkWrites s)
    (fun f t => isWalkFault f ∧ t = s) := by
  unfold decStep
  split
  · rcases inRead_cases 1 s with ⟨h, -⟩ | ⟨q, -, -, h⟩ <;> simp only [h]
    · simp [isWalkFault]
    · exact (arrive_frame _ _).imp (fun t ht => (streamWrites_advance 1 s).walk.trans ht) fun _ _ h => h.elim
  · split
    · exact ⟨s, .refl s, rfl⟩
    · simp [isWalkFault]

theorem decRun_frame (k : Nat) (s : State) : (decRun k s).Meets (walkWrites s)
    (fun f t => isWalkFault f ∧ walkWrites s t) := by
  have hself : walkWrites s s := (streamWrites.refl s).walk
  induction k generalizing s with
  | zero =>
    exact (decStep_frame s).imp (fun _ h => h) fun f t h => ⟨h.1, by rw [h.2]; exact hself⟩
  | succ k ih =>
    refine (decStep_frame s).bind (fun f t h => ⟨h.1, by rw [h.2]; exact hself⟩) fun t ht => ?_
    split
    · exact ht
    · exact (ih t (streamWrites.refl t).walk).imp (fun u hu => ht.trans hu) fun f u hu => ⟨hu.1, ht.trans hu.2⟩

/-- DEC_PAYLOAD reads the input, appends to the output and moves the walk register; its faults are `TRUNCATED_STREAM`
and `DEGENERATE_TREE` (R192). -/
theorem bodyDecPayload_frame (s : State) : (bodyDecPayload s).Meets (walkWrites s)
    (fun f t => isWalkFault f ∧ walkWrites s t) := by
  have h0 : walkWrites s (toRoot s) := ⟨s, .refl s, rfl⟩
  exact (decRun_frame _ _).imp (fun t ht => h0.trans ht) fun f t ht => ⟨ht.1, h0.trans ht.2⟩

end Sys2Proof.Machine
end

