-- ==== Sys2Proof/Laws/PerInstr.lean ====
section
/-! SUPPORT. The statement made for each instruction: its encoding decodes to it (`30_encoding.md` R91, R92, R96). -/

namespace Sys2Proof.Laws.RoundTrip

open Sys2Proof

/-- What a well-formed instruction is encoded as decodes to that instruction. -/
def Statement (i : Instr) : Prop := i.wellFormed = true → decode (encode i) = .ok i

theorem nop : Statement .nop := fun _ => rfl
theorem sreset : Statement .sreset := fun _ => rfl
theorem ftClr : Statement .ftClr := fun _ => rfl
theorem count : Statement .count := fun _ => rfl
theorem build : Statement .build := fun _ => rfl
theorem gencodes : Statement .gencodes := fun _ => rfl
theorem wrMagic : Statement .wrMagic := fun _ => rfl
theorem wrHeader : Statement .wrHeader := fun _ => rfl
theorem encPayload : Statement .encPayload := fun _ => rfl
theorem closeOut : Statement .closeOut := fun _ => rfl
theorem rdMagic : Statement .rdMagic := fun _ => rfl
theorem rdHeader : Statement .rdHeader := fun _ => rfl
theorem decPayload : Statement .decPayload := fun _ => rfl
theorem compress : Statement .compress := fun _ => rfl
theorem decompress : Statement .decompress := fun _ => rfl
theorem hdrInternal : Statement .hdrInternal := fun _ => rfl

theorem hdrLeaf (v : BitVec 9) : Statement (.hdrLeaf v) := fun _ => by
  have h9 : (Machine.bitsMSB 9 v.toNat).length = 9 := Machine.bitsMSB_length _ _
  have hv : v.toNat % 512 = v.toNat := Nat.mod_eq_of_lt v.isLt
  simp [encode, encodeToken, decode, decodeToken, h9, List.take_of_length_le, Machine.valMSB_bitsMSB, Except.map,
    HdrToken.toInstr, hv]

end Sys2Proof.Laws.RoundTrip
end

