-- ==== Sys2Proof/Laws/Tree.lean ====
section
/-! SUPPORT. Facts about trees as data: their leaves, their header and their paths. -/

namespace Sys2Proof.Machine

theorem Tree.leaves_pos (t : Tree) : 1 ≤ t.leaves.length := by
  induction t with
  | leaf x => simp [Tree.leaves]
  | node l r ihl ihr => simp only [Tree.leaves, List.length_append]; omega

@[simp] theorem tokenBits_append (a b : List HdrToken) : tokenBits (a ++ b) = tokenBits a ++ tokenBits b := by
  simp [tokenBits]

theorem Tree.header_leaf (x : Sym) : (Tree.leaf x).header = encodeToken (.leaf (BitVec.ofNat 9 x.val)) := by
  simp [Tree.header, Tree.tokens, tokenBits]

theorem Tree.header_node (l r : Tree) : (Tree.node l r).header = false :: (l.header ++ r.header) := by
  simp [Tree.header, Tree.tokens, tokenBits, encodeToken]

/-- A header of `L` leaves has `11·L - 1` bits (R151). -/
theorem Tree.header_length (t : Tree) : t.header.length + 1 = 11 * t.leaves.length := by
  induction t with
  | leaf x => simp [Tree.header_leaf, encodeToken, Tree.leaves]
  | node l r ihl ihr =>
    simp only [Tree.header_node, Tree.leaves, List.length_append, List.length_cons]
    omega

/-- A symbol has a path exactly if it is a leaf (R140). -/
theorem Tree.path_isSome_iff (t : Tree) (x : Sym) : (t.path x).isSome = true ↔ x ∈ t.leaves := by
  induction t with
  | leaf y => by_cases h : x = y <;> simp [Tree.path, Tree.leaves, h]
  | node l r ihl ihr =>
    rw [Tree.leaves, List.mem_append, ← ihl, ← ihr, Tree.path]
    cases l.path x <;> cases r.path x <;> simp

/-- More fuel finds the same tree. -/
theorem treeAt_mono {node : Vector Node 513} {k m : Nat} {i : NodeIdx} {t : Tree} (h : treeAt node k i = some t)
    (hkm : k ≤ m) : treeAt node m i = some t := by
  induction k generalizing m i t with
  | zero => simp [treeAt] at h
  | succ k ih =>
    obtain ⟨m, rfl⟩ : ∃ m', m = m' + 1 := ⟨m - 1, by omega⟩
    have hk : k ≤ m := by omega
    unfold treeAt at h ⊢
    revert h
    generalize node[i] = n
    cases n with
    | leaf x w => exact id
    | internal w l r =>
      intro h
      cases hl : treeAt node k l with
      | none => simp [hl] at h
      | some tl =>
        cases hr : treeAt node k r with
        | none => simp [hl, hr] at h
        | some tr => simpa [ih hl hk, ih hr hk, hl, hr] using h

/-! ## Following bits through the node store -/

@[simp] theorem nodeAlong_nil (node : Vector Node 513) (i : NodeIdx) : nodeAlong node [] i = some i := rfl

theorem nodeAlong_cons {node : Vector Node 513} {i l r : NodeIdx} {w : Weight} (h : node[i] = .internal w l r)
    (b : Bool) (q : List Bool) : nodeAlong node (b :: q) i = nodeAlong node q (if b then r else l) := by
  rw [nodeAlong, h]

/-- Following two bit sequences one after the other. -/
theorem nodeAlong_append (node : Vector Node 513) (p q : List Bool) (i : NodeIdx) :
    nodeAlong node (p ++ q) i = (nodeAlong node p i).bind (nodeAlong node q) := by
  induction p generalizing i with
  | nil => rfl
  | cons b p ih =>
    rw [List.cons_append, nodeAlong, nodeAlong]
    generalize node[i] = n
    cases n with
    | leaf x w => rfl
    | internal w l r => exact ih _

/-- A symbol's path in the tree under `i` leads from `i` to a leaf with that symbol (R99, R140). -/
theorem nodeAlong_path {node : Vector Node 513} {k : Nat} {i : NodeIdx} {t : Tree} {x : Sym} {p : List Bool}
    (h : treeAt node k i = some t) (hp : t.path x = some p) :
    ∃ (c : NodeIdx) (w : Weight), nodeAlong node p i = some c ∧ node[c] = .leaf x w := by
  induction k generalizing i t p with
  | zero => simp [treeAt] at h
  | succ k ih =>
    cases hn : node[i] with
    | leaf y w =>
      simp only [treeAt, hn, Option.some.injEq] at h
      subst h
      by_cases hx : x = y
      · subst hx
        simp only [Tree.path, if_true, Option.some.injEq] at hp
        subst hp
        exact ⟨i, w, rfl, hn⟩
      · simp [Tree.path, hx] at hp
    | internal w l r =>
      simp only [treeAt, hn] at h
      cases hl : treeAt node k l with
      | none => simp [hl] at h
      | some tl =>
        cases hr : treeAt node k r with
        | none => simp [hl, hr] at h
        | some tr =>
          simp only [hl, hr, Option.some.injEq] at h
          subst h
          simp only [Tree.path] at hp
          split at hp
          · rename_i q hq
            cases hp
            simpa [nodeAlong_cons hn] using ih hl hq
          · split at hp
            · rename_i q hq
              cases hp
              simpa [nodeAlong_cons hn] using ih hr hq
            · cases hp

/-! ## Well-formed trees -/

/-- Whether the store holds a well-formed tree depends on `NODE`, `NCOUNT` and `ROOT` alone (R25). -/
theorem treeWf_congr {s t : State} (hn : t.node = s.node) (hc : t.ncount = s.ncount) (hr : t.root = s.root)
    (h : TreeWf s) : TreeWf t := by
  constructor <;> simp only [hn, hc, hr]
  · exact h.count_pos
  · exact h.count_odd
  · exact h.root_last
  · exact h.children_below
  · exact h.one_parent
  · exact h.root_no_parent
  · exact h.leaves_distinct
  · exact h.weight_sum
  · exact h.has_leaf

end Sys2Proof.Machine
end

