-- ==== Sys2Proof/Tests/Slice0.lean ====
section
/-! SUPPORT. The tests. Expected values are those of `95_test_vectors.md` (V…, P…, S…) and of the tables of
`30_encoding.md`. The last part shows, for each statement of the obligations that has hypotheses, states and operands
that meet them. -/

set_option Elab.async false

namespace Sys2Proof.Tests

open Sys2Proof Sys2Proof.Machine

/-! ## Small states -/

/-- The reset state with a source at position 0. -/
def withIn (bytes : List Byte) : State := { State.reset with input := ⟨bytesToBits bytes, 0⟩ }

/-- The counts of "AAB" (S7). -/
def aabCounts : Vector Word 256 := ((Vector.replicate 256 0).set 65 2).set 66 1

/-- The node store of V10. -/
def aabNodes : Vector Node 513 :=
  (((((Vector.replicate 513 (.leaf 0 0)).set 0 (.leaf 65 2)).set 1 (.leaf 66 1)).set 2 (.leaf 256 1)).set 3
    (.internal 2 1 2)).set 4 (.internal 4 0 3)

/-- The code table of V10c. -/
def aabCodes : Vector CtEntry 257 :=
  (((Vector.replicate 257 CtEntry.absent).set 65 ⟨true, [false]⟩).set 66 ⟨true, [true, false]⟩).set 256
    ⟨true, [true, true]⟩

/-- After BUILD on the counts of "AAB", with that input (V10). -/
def aab : State :=
  { withIn [0x41, 0x41, 0x42] with ft := aabCounts, node := aabNodes, root := 4, ncount := 5, treeValid := true }

/-- After GENCODES as well (V10c). -/
def aabCoded : State := { aab with ct := aabCodes, ctValid := true }

/-- The tree of V10 as data. -/
def aabTree : Tree := .node (.leaf 65) (.node (.leaf 66) (.leaf 256))

/-- A single leaf under the root (V11, V58). -/
def single (x : Sym) : State :=
  { State.reset with node := State.reset.node.set 0 (.leaf x 1), ncount := 1, treeValid := true }

/-- In the middle of a header: these marks and open nodes, `n` nodes constructed. -/
def inHeader (seen : Vector Bool 257) (stack : List (Option NodeIdx)) (n : Fin 514) : State :=
  { State.reset with busy := true, ncount := n, hdr := some ⟨seen, stack⟩ }

/-- No symbol seen yet. -/
def noneSeen : Vector Bool 257 := Vector.replicate 257 false

/-- A block in which a magic has failed (V40, V72). -/
def badMagicState : State := { State.reset with err := ⟨1, 0, 0⟩, input := ⟨List.replicate 72 false, 32⟩ }

/-- A next state that passes a check. -/
def nextIs (o : Host.Outcome State Fault Refusal) (p : State → Bool) : Bool :=
  match o with
  | .next s => p s
  | .fault _ => false
  | .refused _ => false

/-- The state a body ends in with a `raise`, or the one it ends in without. -/
def bodyEnd (r : Result State) : Option (ErrReg × State) :=
  match r with
  | .ok s => some (⟨0, 0, 0⟩, s)
  | .raised f s => some (f.toErr, s)
  | .refused _ => none
  | .stuck _ => none

/-- `STATUS` and `ERR` as words. -/
def statErr (s : State) : Nat × Nat := ((statusWord s).toNat, (errWord s.err).toNat)

/-! ## Well-formedness and decoding -/

theorem test_wellFormed_refuses_257 : (Instr.hdrLeaf 257).wellFormed = false ∧ (Instr.hdrLeaf 511).wellFormed = false ∧
    (Instr.hdrLeaf 256).wellFormed = true := by decide

/-- Every opcode of R92, its word written out as `RSV` (24 zeros) and the eight bits of `OPC`. -/
theorem test_decode_commands :
    decodeCommand 0b00000000000000000000000000000000#32 = .ok .nop ∧
    decodeCommand 0b00000000000000000000000000000001#32 = .ok .sreset ∧
    decodeCommand 0b00000000000000000000000000000010#32 = .ok .ftClr ∧
    decodeCommand 0b00000000000000000000000000000011#32 = .ok .count ∧
    decodeCommand 0b00000000000000000000000000000100#32 = .ok .build ∧
    decodeCommand 0b00000000000000000000000000000101#32 = .ok .gencodes ∧
    decodeCommand 0b00000000000000000000000000000110#32 = .ok .wrMagic ∧
    decodeCommand 0b00000000000000000000000000000111#32 = .ok .wrHeader ∧
    decodeCommand 0b00000000000000000000000000001000#32 = .ok .encPayload ∧
    decodeCommand 0b00000000000000000000000000001001#32 = .ok .closeOut ∧
    decodeCommand 0b00000000000000000000000000001010#32 = .ok .rdMagic ∧
    decodeCommand 0b00000000000000000000000000001011#32 = .ok .rdHeader ∧
    decodeCommand 0b00000000000000000000000000001100#32 = .ok .decPayload ∧
    decodeCommand 0b00000000000000000000000000010000#32 = .ok .compress ∧
    decodeCommand 0b00000000000000000000000000010001#32 = .ok .decompress := by decide

/-- The words of V71 and the ends of the unused opcode ranges of R93. -/
theorem test_decode_rejects :
    decodeCommand 0x0000000D = .error .unknownOpcode ∧ decodeCommand 0x0000000F = .error .unknownOpcode ∧
    decodeCommand 0x00000012 = .error .unknownOpcode ∧ decodeCommand 0x000000FF = .error .unknownOpcode ∧
    decodeCommand 0x00000104 = .error .reservedBitsSet ∧ decodeCommand 0x80000000 = .error .reservedBitsSet ∧
    decodeCommand 0xFFFFFFFF = .error .reservedBitsSet := by decide

/-- The tokens of S9 and V10h, and the two ways in which bits run out (R153). -/
theorem test_decode_tokens :
    decodeToken [false] = .ok (.internal, 1) ∧
    decodeToken [true, false, false, true, false, false, false, false, false, true] = .ok (.leaf 65, 10) ∧
    decodeToken [true, false, true, true, true, true, true, true, true, true, false] = .ok (.leaf 255, 10) ∧
    decodeToken [true, true, false, false, false, false, false, false, false, false] = .ok (.leaf 256, 10) ∧
    decodeToken [] = .error .noTagBit ∧
    decodeToken [true, true, false, false, false, false, false, false, false] = .error .shortSymbol := by decide

theorem test_decodeTableWord :
    decodeTableWord 32 0x11 = some .decompress ∧ decodeTableWord 32 0x104 = none ∧
    decodeTableWord 8 0 = some .hdrInternal ∧ decodeTableWord 16 0b1001000001 = some (.hdrLeaf 65) := by decide

/-! ## One step of each command and token -/

/-- V70. -/
theorem test_nop : nextIs (exec .nop State.reset) (fun t => statErr t == (0x02, 0)) = true := by decide +kernel

/-- V72. -/
theorem test_nop_ignored : nextIs (exec .nop badMagicState) (fun t => statErr t == (0x04, 1) && t.input.pos == 32) = true := by decide +kernel

/-- V73. -/
theorem test_sreset : nextIs (exec .sreset badMagicState)
    (fun t => statErr t == (0, 0) && t.input.pos == 32) = true := by decide +kernel

/-- V75. -/
theorem test_sreset_clears : nextIs (exec .sreset aabCoded) (fun t =>
    statErr t == (0, 0) && t.ft[65] == 0 && t.root == 0 && t.ncount == 0 && dwalkWord t == 0) = true := by
  decide +kernel

/-- V5. -/
theorem test_ftClr : nextIs (exec .ftClr aabCoded) (fun t =>
    t.ft.toList == List.replicate 256 0 && ftRead t 256 == 1 && statusWord t == 0x1A) = true := by decide +kernel

/-- V3 and V1. -/
theorem test_count : nextIs (exec .count { withIn [0x41, 0x41, 0x42] with ft := (Vector.replicate 256 0).set 7 9 })
    (fun t => t.ft.toList == aabCounts.toList && ftRead t 256 == 1 && t.input.pos == 0 && statusWord t == 0x02) = true := by
  decide +kernel

/-- V4. -/
theorem test_count_from_8 : nextIs (exec .count { State.reset with input := ⟨bytesToBits [0x41, 0x41, 0x42], 8⟩ })
    (fun t => t.ft[65] == 1 && t.ft[66] == 1 && t.input.pos == 0) = true := by decide +kernel

/-- V10. -/
theorem test_build : nextIs (exec .build { State.reset with ft := aabCounts }) (fun t =>
    t.node.toList.take 5 == aabNodes.toList.take 5 && t.root == 4 && t.ncount == 5 && statusWord t == 0x0A) = true := by
  decide +kernel

/-- V19. -/
theorem test_build_widest : nextIs (exec .build { State.reset with
      ft := ((Vector.replicate 256 0).set 0 0xFFFFFFFF).set 1 0xFFFFFFFF }) (fun t =>
    t.node[3] == .internal 4294967296 2 0 && t.node[4] == .internal 8589934591 1 3) = true := by decide +kernel

/-- V10c. -/
theorem test_gencodes : nextIs (exec .gencodes aab) (fun t =>
    t.ct.toList == aabCodes.toList && statusWord t == 0x1A) = true := by decide +kernel

/-- V10d. -/
theorem test_gencodes_needs_tree : nextIs (exec .gencodes State.reset)
    (fun t => statErr t == (0x04, 0x15)) = true := by decide +kernel

/-- V28. -/
theorem test_wrMagic : (bodyEnd (bodyWrMagic 0xFACE8201 State.reset)).map (fun p => p.2.output.bits) =
    some [true, true, true, true, true, false, true, false, true, true, false, false, true, true, true, false,
          true, false, false, false, false, false, true, false, false, false, false, false, false, false, false,
          true] := by decide

/-- V37. -/
theorem test_wrMagic_closed : nextIs (exec .wrMagic { State.reset with oclosed := true, output := ⟨[], true⟩ })
    (fun t => statErr t == (0x44, 0x35)) = true := by decide +kernel

/-- V10h. -/
theorem test_wrHeader : nextIs (exec .wrHeader aab)
    (fun t => wholeBytes t.output.bits == [0x48, 0x29, 0x0B, 0x00] && t.output.bits.length == 32) = true := by
  decide +kernel

/-- V38. -/
theorem test_wrHeader_checks_tree_first :
    nextIs (exec .wrHeader { State.reset with oclosed := true, output := ⟨[], true⟩ })
      (fun t => (errWord t.err).toNat == 0x15) = true := by decide +kernel

/-- V29. -/
theorem test_encPayload : nextIs (exec .encPayload aabCoded) (fun t =>
    t.output == ⟨[false, false, true, false, true, true], false⟩ && t.input.pos == 24) = true := by decide +kernel

/-- V33: a table with no code for byte 66. -/
theorem test_encPayload_no_code : nextIs (exec .encPayload { aab with
      input := ⟨bytesToBits [0x41, 0x42], 0⟩, ctValid := true,
      ct := ((Vector.replicate 257 CtEntry.absent).set 65 ⟨true, [false]⟩).set 256 ⟨true, [true]⟩ }) (fun t =>
    statErr t == (0x1C, 0x4206) && t.output.bits == [false] && t.input.pos == 16) = true := by decide +kernel

/-- V30. -/
theorem test_closeOut : nextIs (exec .closeOut { State.reset with output := ⟨List.replicate 70 true, false⟩ }) (fun t =>
    t.output == ⟨List.replicate 70 true ++ [false, false], true⟩ && statusWord t == 0x42) = true := by decide +kernel

/-- V32. -/
theorem test_closeOut_aligned : nextIs (exec .closeOut { State.reset with output := ⟨List.replicate 64 true, false⟩ })
    (fun t => t.output == ⟨List.replicate 64 true, true⟩) = true := by decide +kernel

/-- V43, the magic with one bit changed. -/
theorem test_rdMagic_bad : (bodyEnd (bodyRdMagic 0xFACE8201 (withIn [0xFA, 0xCE, 0x82, 0x02]))).map
    (fun p => (errWord p.1, p.2.input.pos)) = some (1, 32) := by decide +kernel

/-- V44, 24 bits only. -/
theorem test_rdMagic_short : nextIs (exec .rdMagic (withIn [0xFA, 0xCE, 0x82]))
    (fun t => statErr t == (0x04, 0x11) && t.input.pos == 0) = true := by decide +kernel

/-- V14. -/
theorem test_rdHeader : nextIs (exec .rdHeader (withIn [0x60, 0x13, 0x0F, 0x00])) (fun t =>
    t.node.toList.take 3 == [.leaf 256 0, .leaf 97 0, .internal 0 0 1] && t.root == 2 && t.ncount == 3 &&
    t.input.pos == 21 && statusWord t == 0x0A) = true := by decide +kernel

/-- V54. -/
theorem test_rdHeader_duplicate : nextIs (exec .rdHeader (withIn [0x48, 0x32, 0x08])) (fun t =>
    statErr t == (0x04, 0x4132) && t.ncount == 1 && t.input.pos == 21) = true := by decide +kernel

/-- P5's DEC_PAYLOAD (V31): the payload `001011` and two padding bits. -/
theorem test_decPayload : nextIs (exec .decPayload { aab with input := ⟨bytesToBits [0x2C], 0⟩ }) (fun t =>
    wholeBytes t.output.bits == [0x41, 0x41, 0x42] && dwalkWord t == 0x802 && t.input.pos == 6 &&
    statusWord t == 0x2A) = true := by decide +kernel

/-- V60's payload `00101001`, which ends inside a code. -/
theorem test_decPayload_truncated : nextIs (exec .decPayload { aab with input := ⟨bytesToBits [0x29], 0⟩ }) (fun t =>
    wholeBytes t.output.bits == [0x41, 0x41, 0x42, 0x42, 0x41] && dwalkWord t == 0x403 &&
    statErr t == (0x0C, 3)) = true := by decide +kernel

/-- V20. -/
theorem test_compress : (bodyEnd (bodyCompress 0xFACE8201 (withIn [0x41, 0x41, 0x42]))).map
    (fun p => (p.1.code, destination p.2)) =
    some (0, [0xFA, 0xCE, 0x82, 0x01, 0x48, 0x29, 0x0B, 0x00, 0x2C]) := by decide +kernel

/-- V21, empty input. -/
theorem test_compress_empty : (bodyEnd (bodyCompress 0xFACE8201 (withIn []))).map
    (fun p => (p.2.output.closed, destination p.2)) = some (true, [0xFA, 0xCE, 0x82, 0x01, 0xC0, 0x00]) := by
  decide +kernel

/-- V42: V20's bytes and two more. -/
theorem test_decompress : (bodyEnd (bodyDecompress 0xFACE8201
      (withIn [0xFA, 0xCE, 0x82, 0x01, 0x48, 0x29, 0x0B, 0x00, 0x2C, 0xDE, 0xAD]))).map
    (fun p => (p.1.code, destination p.2, p.2.output.closed, p.2.input.pos, dwalkWord p.2)) =
    some (0, [0x41, 0x41, 0x42], true, 70, 0x802) := by decide +kernel

/-- V61, a header with one byte's leaf. -/
theorem test_decompress_degenerate : (bodyEnd (bodyDecompress 0xFACE8201
      (withIn [0xFA, 0xCE, 0x82, 0x01, 0x90, 0x40]))).map
    (fun p => (errWord p.1, p.2.output.bits, p.2.output.closed, p.2.input.pos)) =
    some (0x4108, [], false, 42) := by decide +kernel

/-- V55's last token: a tag bit 0 at depth 256. -/
theorem test_hdrInternal_too_deep : nextIs (exec .hdrInternal (inHeader noneSeen (List.replicate 256 none) 0))
    (fun t => statErr t == (0x04, 0x42)) = true := by decide +kernel

theorem test_hdrInternal : nextIs (step (State.reset.withFetchWord 8 0))
    (fun t => t.hdr.map (·.stack) == some [none] && t.input.pos == 1) = true := by decide +kernel

/-- V58. -/
theorem test_hdrLeaf : nextIs (step (State.reset.withFetchWord 16 0b1001000001)) (fun t =>
    t.node[0] == .leaf 65 0 && t.root == 0 && t.ncount == 1 && t.input.pos == 10 && statusWord t == 0x0A) = true := by
  decide +kernel

/-- V52. -/
theorem test_hdrLeaf_range : nextIs (exec (.hdrLeaf 257) (inHeader noneSeen [] 0))
    (fun t => statErr t == (0x04, 0x10122)) = true := by decide +kernel

/-! ## The host's accesses -/

/-- V71. -/
theorem test_illegal_command : nextIs (step { State.reset with host := [.write 0 0x104] })
    (fun t => statErr t == (0x04, 0x04)) = true := by decide +kernel

/-- V6: the marker's count cannot be written. -/
theorem test_write_marker_count : nextIs (step { State.reset with host := [.write 0x0200 5] })
    (fun t => ftRead t 256 == 1 && t.ft.toList == State.reset.ft.toList) = true := by decide +kernel

/-- P1's host reads. -/
theorem test_reads : [0x1000, 0x1001, 0x100C, 0x100D, 0x100F, 0x1010, 0x1013, 0x2410, 0x2411, 0x2420, 0x2421, 0x3000,
      0x3001, 0x0001, 0x0003, 0x0004].map (regWord aabCoded) =
    [some 0x41, some 2, some 0x80000000, some 2, some 0x00020001, some 0x80000000, some 0x00030000, some 0x80000001,
     some 0, some 0x80000002, some 0x80000000, some 0x80000002, some 0xC0000000, some 0x18, some 4, some 5] := by
  decide +kernel

/-- V76: addresses outside the map read 0; an entry of an invalid table has no stated value (R36). -/
theorem test_reads_elsewhere : regWord aabCoded 0 = some 0 ∧ regWord aabCoded 7 = some 0 ∧
    regWord aabCoded 0xFFFF = some 0 ∧ regWord aab 0x2410 = none ∧ regWord aab 0x1014 = none := by decide +kernel

/-! ## Witnesses: what the statements' hypotheses are met by -/

theorem exists_of_nextIs {o : Host.Outcome State Fault Refusal} {p : State → Bool} (h : nextIs o p = true) :
    ∃ t, o = .next t ∧ p t = true := by
  cases o with
  | next t => exact ⟨t, rfl, h⟩
  | fault => simp [nextIs] at h
  | refused => simp [nextIs] at h

theorem ready_reset : Ready State.reset := ⟨⟨rfl, rfl, rfl⟩, rfl⟩
theorem ready_aab : Ready aab := ⟨⟨rfl, rfl, rfl⟩, rfl⟩
theorem ready_aabCoded : Ready aabCoded := ⟨⟨rfl, rfl, rfl⟩, rfl⟩

theorem lt_five {i : NodeIdx} (h : i.val < 5) : i = 0 ∨ i = 1 ∨ i = 2 ∨ i = 3 ∨ i = 4 := by
  rcases i with ⟨i, hi⟩
  simp only [Fin.ext_iff] at *
  change i < 5 at h
  change i = 0 ∨ i = 1 ∨ i = 2 ∨ i = 3 ∨ i = 4
  omega

theorem aab_node0 : aab.node[(0 : NodeIdx)] = .leaf 65 2 := by rfl
theorem aab_node1 : aab.node[(1 : NodeIdx)] = .leaf 66 1 := by rfl
theorem aab_node2 : aab.node[(2 : NodeIdx)] = .leaf 256 1 := by rfl
theorem aab_node3 : aab.node[(3 : NodeIdx)] = .internal 2 1 2 := by rfl
theorem aab_node4 : aab.node[(4 : NodeIdx)] = .internal 4 0 3 := by rfl

theorem isChild_aab {j : NodeIdx} (h : j.val < 5) (i : NodeIdx) : isChild aab.node[j] i ↔
    (j = 3 ∧ (i = 1 ∨ i = 2)) ∨ (j = 4 ∧ (i = 0 ∨ i = 3)) := by
  rcases lt_five h with rfl | rfl | rfl | rfl | rfl <;>
    simp only [aab_node0, aab_node1, aab_node2, aab_node3, aab_node4, isChild] <;> simp [eq_comm]

/-- The tree of V10 meets R25. -/
theorem treeWf_aab : TreeWf aab where
  count_pos := by decide
  count_odd := by decide
  root_last := by decide
  children_below := by
    intro i w l r h e
    rcases lt_five h with rfl | rfl | rfl | rfl | rfl <;>
      simp only [aab_node0, aab_node1, aab_node2, aab_node3, aab_node4, Node.internal.injEq, reduceCtorEq] at e <;>
      obtain ⟨-, rfl, rfl⟩ := e <;> decide
  one_parent := by
    intro i h hne
    have hr : i ≠ 4 := hne
    have hi : i = 0 ∨ i = 1 ∨ i = 2 ∨ i = 3 := by have := lt_five h; tauto
    rcases hi with rfl | rfl | rfl | rfl
    · exact ⟨4, ⟨by decide, (isChild_aab (by decide) _).mpr (by decide)⟩,
        fun j hj => by have := (isChild_aab hj.1 _).mp hj.2; simpa using this⟩
    · exact ⟨3, ⟨by decide, (isChild_aab (by decide) _).mpr (by decide)⟩,
        fun j hj => by have := (isChild_aab hj.1 _).mp hj.2; simpa using this⟩
    · exact ⟨3, ⟨by decide, (isChild_aab (by decide) _).mpr (by decide)⟩,
        fun j hj => by have := (isChild_aab hj.1 _).mp hj.2; simpa using this⟩
    · exact ⟨4, ⟨by decide, (isChild_aab (by decide) _).mpr (by decide)⟩,
        fun j hj => by have := (isChild_aab hj.1 _).mp hj.2; simpa using this⟩
  root_no_parent := by
    intro j h hc
    have := (isChild_aab h _).mp hc
    rw [show aab.root = 4 from rfl] at this
    revert this
    simp
  leaves_distinct := by
    intro i j x w w' hi hj ei ej
    rcases lt_five hi with rfl | rfl | rfl | rfl | rfl <;>
      simp only [aab_node0, aab_node1, aab_node2, aab_node3, aab_node4, Node.leaf.injEq, reduceCtorEq] at ei <;>
      obtain ⟨rfl, -⟩ := ei <;>
      rcases lt_five hj with rfl | rfl | rfl | rfl | rfl <;>
      first
        | rfl
        | (simp only [aab_node0, aab_node1, aab_node2, aab_node3, aab_node4, Node.leaf.injEq, reduceCtorEq] at ej
           exact absurd ej.1 (by decide))
        | (simp only [aab_node3, aab_node4, reduceCtorEq] at ej)
  has_leaf := ⟨0, 65, 2, by decide, aab_node0⟩
  weight_sum := by
    intro i w l r h e
    rcases lt_five h with rfl | rfl | rfl | rfl | rfl <;>
      simp only [aab_node0, aab_node1, aab_node2, aab_node3, aab_node4, Node.internal.injEq, reduceCtorEq] at e <;>
      obtain ⟨rfl, rfl, rfl⟩ := e <;> decide +kernel

theorem treeOf_aab : treeOf aab = some aabTree := by rfl

/-- V10c's state, with actions for the host to do, meets the invariant. -/
theorem inv_aabCoded (host : List HostAction) (output : OutChannel) (h : output = ⟨[], true⟩ ∨ output = ⟨[], false⟩) :
    Inv { aabCoded with host := host, output := output } where
  idle := ⟨rfl, rfl, rfl⟩
  done_no_fault := fun h => nomatch h
  err_listed := .inl rfl
  tree := fun _ => treeWf_congr (s := aab) rfl rfl rfl treeWf_aab
  ct_needs_tree := fun _ => rfl
  ct := fun _ => ⟨aabTree, treeOf_aab, by
    change ∀ x : Sym, aabCodes[x] = entryOf aabTree x
    decide +kernel⟩
  code_len := by
    change ∀ x : Sym, (aabCodes[x]).len ≤ 256
    decide +kernel
  in_bytes := (by decide : aab.input.data.length % 8 = 0)
  in_pos := (by decide : aab.input.pos ≤ aab.input.data.length)
  out_bytes := by rcases h with rfl | rfl <;> simp

/-! ### Reset, the invariant, the step -/

theorem witness_ResetsLeaveTheResetTable :
    aab.busy = false ∧ ({ State.reset with host := [.reset] } : State).hdr = none := ⟨rfl, rfl⟩

/-- A step from a state that meets the invariant, its table and tree valid, that goes on. -/
theorem witness_StepKeepsInvariant : Inv { aabCoded with host := [.write 0 0x08], output := ⟨[], false⟩ } ∧
    ∃ t, step { aabCoded with host := [.write 0 0x08], output := ⟨[], false⟩ } = .next t :=
  ⟨inv_aabCoded _ _ (.inr rfl), (exists_of_nextIs (p := fun _ => true) (by decide +kernel)).imp fun _ h => h.1⟩

/-- Both sides of the conclusion occur: a next state, and a refusal by a closed channel. -/
theorem witness_CommandsNeverGetStuck :
    (Inv { aabCoded with host := [], output := ⟨[], false⟩ } ∧
      ∃ t, exec .encPayload { aabCoded with host := [], output := ⟨[], false⟩ } = .next t) ∧
    (Inv { aabCoded with host := [], output := ⟨[], true⟩ } ∧
      exec .encPayload { aabCoded with host := [], output := ⟨[], true⟩ } = .refused .writeToClosedOutput) :=
  ⟨⟨inv_aabCoded _ _ (.inr rfl), (exists_of_nextIs (p := fun _ => true) (by decide +kernel)).imp fun _ h => h.1⟩,
    ⟨inv_aabCoded _ _ (.inl rfl), by rfl⟩⟩

theorem witness_DecodingInvertsEncoding : (Instr.hdrLeaf 0).wellFormed = true ∧ (Instr.hdrLeaf 256).wellFormed = true ∧
    decodeCommand 0x11 = .ok .decompress := by decide

theorem witness_StepRunsTheCommandWritten :
    ({ State.reset with host := [.write 0x0000 0x11] } : State).hdr = none ∧ decodeCommand 0x11 = .ok .decompress := by
  decide

/-- A token of each kind, the leaf's symbol being the largest. -/
theorem witness_StepRunsTheHeaderToken :
    (∃ h, (State.reset.withFetchWord 8 0).hdr = some h ∧ decodeToken ((State.reset.withFetchWord 8 0).input.data.drop
      (State.reset.withFetchWord 8 0).input.pos) = .ok (.internal, 1)) ∧
    (∃ h, (State.reset.withFetchWord 16 0b1100000000).hdr = some h ∧ decodeToken
      ((State.reset.withFetchWord 16 0b1100000000).input.data.drop
        (State.reset.withFetchWord 16 0b1100000000).input.pos) = .ok (.leaf 256, 10)) :=
  ⟨⟨_, rfl, by rfl⟩, ⟨_, rfl, by rfl⟩⟩

/-- The ends of the unused opcode ranges, and a reserved bit. -/
theorem witness_OtherWordsRaiseIllegalCmd (w : Word)
    (hw : w ∈ [0x0D, 0x0F, 0x12, 0xFF, 0x104, 0x80000000]) :
    Ready { State.reset with host := [.write 0x0000 w] } ∧ ∀ i : Instr, encode i ≠ .command w := by
  refine ⟨⟨⟨rfl, rfl, rfl⟩, rfl⟩, fun i => ?_⟩
  simp only [List.mem_cons, List.not_mem_nil, or_false] at hw
  rcases hw with rfl | rfl | rfl | rfl | rfl | rfl <;> cases i <;> simp [encode]

theorem witness_FaultedBlockIgnoresCommands :
    badMagicState.hdr = none ∧ badMagicState.err.code ≠ 0 ∧ (0x04 : Word) ≠ 0x00000001 ∧ (0x99 : Word) ≠ 0x00000001 := by
  decide

theorem witness_BusyBlockIgnoresHostWrites :
    ({ State.reset with busy := true, host := [.write 0x0100 7] } : State).hdr = none ∧
    ({ State.reset with busy := true, host := [.write 0x0100 7] } : State).busy = true := by decide

/-- Each of the three checks fails somewhere, and some command has nothing to check. -/
theorem witness_PreconditionsAreChecked :
    Ready State.reset ∧ firstFailed .decPayload State.reset = some 1 ∧ firstFailed .encPayload State.reset = some 2 ∧
    firstFailed .compress { State.reset with oclosed := true } = some 3 ∧ firstFailed .rdHeader State.reset = none :=
  ⟨ready_reset, by decide, by decide, by decide, by decide⟩

theorem witness_OnlyAResetLeavesAFault :
    badMagicState.hdr = none ∧ badMagicState.err.code ≠ 0 ∧
    (∃ t, step { badMagicState with host := [.write 0 0x04] } = .next t ∧ t.err = badMagicState.err) ∧
    (∃ t, step { badMagicState with host := [.write 0 0x01] } = .next t ∧ t.err = ⟨0, 0, 0⟩) :=
  ⟨by decide, by decide, ⟨_, rfl, rfl⟩, ⟨_, rfl, rfl⟩⟩

theorem witness_CommandEndsDoneOrFaulted :
    Ready State.reset ∧ (∃ t, exec .nop State.reset = .next t ∧ t.done = true) ∧
    (∃ t, exec .gencodes State.reset = .next t ∧ t.errf = true) ∧
    (∃ t, exec .sreset State.reset = .next t ∧ t.done = false) :=
  ⟨ready_reset, ⟨_, rfl, rfl⟩, ⟨_, rfl, rfl⟩, ⟨_, rfl, rfl⟩⟩

theorem witness_NopOnlySetsDone : Ready State.reset ∧ badMagicState.err.code ≠ 0 := ⟨ready_reset, by decide⟩

theorem witness_FtClrClearsTheByteCounts : Ready aab := ready_aab

/-! ### Frequency counter and tree builder -/

/-- From position 8, with a tail of seven bits. -/
theorem witness_CountCountsTheBytes :
    Ready { State.reset with input := ⟨bytesToBits [1, 2, 2] ++ List.replicate 7 true, 8⟩ } ∧
    (bytesToBits [1, 2, 2] ++ List.replicate 7 true).drop 8 = bytesToBits [2, 2] ++ List.replicate 7 true ∧
    (List.replicate 7 true).length < 8 ∧ ∀ x : Byte, ([2, 2] : List Byte).count x < 2 ^ 32 :=
  ⟨⟨⟨rfl, rfl, rfl⟩, rfl⟩, by decide, by decide, fun x => (List.count_le_length).trans_lt (by decide)⟩

/-- The input of V8. -/
theorem witness_CountOverflowIsReported : ∃ b : List Byte,
    Ready { State.reset with input := ⟨bytesToBits (b ++ [0x61]), 0⟩ } ∧
    (∀ y : Byte, b.count y < 2 ^ 32) ∧ b.count 0x61 = 2 ^ 32 - 1 := by
  refine ⟨List.replicate (2 ^ 32 - 1) 0x61, ⟨⟨rfl, rfl, rfl⟩, rfl⟩, fun y => ?_, List.count_replicate_self⟩
  have h := List.count_le_length (a := y) (l := List.replicate (2 ^ 32 - 1) (0x61 : Byte))
  rw [List.length_replicate] at h
  omega

theorem witness_RemoveMinTakesTheSmallestKey : ([2, 0, 1] : List NodeIdx) ≠ [] ∧ ([2, 0, 1] : List NodeIdx).Nodup := by
  decide

theorem witness_BuildAllocatesTwoLMinusOneNodes : Ready aab := ready_aab

theorem witness_BuildEstablishesTheTree : Ready { State.reset with ft := aabCounts } ∧
    ∃ t, exec .build { State.reset with ft := aabCounts } = .next t :=
  ⟨⟨⟨rfl, rfl, rfl⟩, rfl⟩, (exists_of_nextIs test_build).imp fun _ h => h.1⟩

theorem witness_BuildRootWeighsTheTotal : Ready { State.reset with ft := aabCounts } ∧
    ∃ t, exec .build { State.reset with ft := aabCounts } = .next t := witness_BuildEstablishesTheTree

/-- The nine bits of the symbol are a prefix code for every frequency table. -/
theorem witness_BuildTreeIsOptimal : (Ready { State.reset with ft := aabCounts } ∧
    ∃ t, exec .build { State.reset with ft := aabCounts } = .next t) ∧
    ∀ x y : Sym, x ≠ y → ftRead { State.reset with ft := aabCounts } x ≠ 0 →
      ftRead { State.reset with ft := aabCounts } y ≠ 0 → ¬ bitsMSB 9 x.val <+: bitsMSB 9 y.val := by
  refine ⟨witness_BuildEstablishesTheTree, ?_⟩
  intro x y hxy _ _ hp
  have e : bitsMSB 9 x.val = bitsMSB 9 y.val := hp.eq_of_length (by simp)
  have := congrArg valMSB e
  rw [valMSB_bitsMSB, valMSB_bitsMSB] at this
  exact hxy (Fin.ext (by omega))

/-! ### Code generator and header codec -/

theorem witness_GencodesStoresThePaths : Ready aab ∧ aab.treeValid = true ∧ TreeWf aab ∧
    Ready State.reset ∧ State.reset.treeValid = false := ⟨ready_aab, rfl, treeWf_aab, ready_reset, rfl⟩

theorem witness_GencodesMakesAPrefixCode : Ready aab ∧ aab.treeValid = true ∧ TreeWf aab ∧
    ∃ t, exec .gencodes aab = .next t ∧ t.ct[(66 : Sym)].present = true ∧ t.ct[(256 : Sym)].present = true := by
  refine ⟨ready_aab, rfl, treeWf_aab, ?_⟩
  obtain ⟨t, h, h'⟩ := exists_of_nextIs (o := exec .gencodes aab)
    (p := fun t => t.ct[(66 : Sym)].present && t.ct[(256 : Sym)].present) (by decide +kernel)
  exact ⟨t, h, by simpa using h'⟩

theorem witness_SingleLeafHasAnEmptyCode (x : Sym) : Ready (single x) ∧ (single x).treeValid = true ∧
    (single x).node[(single x).root] = .leaf x 1 := ⟨⟨⟨rfl, rfl, rfl⟩, rfl⟩, rfl, by rfl⟩

theorem witness_WrHeaderAppendsTheHeader : Ready aab ∧ aab.treeValid = true ∧ aab.oclosed = false ∧
    aab.output.closed = false ∧ TreeWf aab ∧ Ready State.reset ∧ State.reset.treeValid = false ∧
    Ready { aab with oclosed := true } :=
  ⟨ready_aab, rfl, rfl, rfl, treeWf_aab, ready_reset, rfl, ⟨⟨rfl, rfl, rfl⟩, rfl⟩⟩

/-- The header of V10, preceded and followed by other bits. -/
theorem witness_RdHeaderReadsTheHeaderBack :
    Ready { State.reset with input := ⟨List.replicate 3 true ++ aabTree.header ++ [true], 3⟩ } ∧
    aabTree.leaves.Nodup ∧
    (List.replicate 3 true ++ aabTree.header ++ [true]).drop 3 = aabTree.header ++ [true] :=
  ⟨⟨⟨rfl, rfl, rfl⟩, rfl⟩, by decide, by decide⟩

theorem witness_AcceptedHeaderIsTheTreesHeader : Ready (withIn [0x60, 0x13, 0x0F, 0x00]) ∧
    ∃ t, exec .rdHeader (withIn [0x60, 0x13, 0x0F, 0x00]) = .next t ∧ t.errf = false := by
  refine ⟨⟨⟨rfl, rfl, rfl⟩, rfl⟩, ?_⟩
  obtain ⟨t, h, h'⟩ := exists_of_nextIs (o := exec .rdHeader (withIn [0x60, 0x13, 0x0F, 0x00]))
    (p := fun t => !t.errf) (by decide +kernel)
  exact ⟨t, h, by simpa using h'⟩

theorem witness_RdHeaderAlwaysEnds : Ready aab := ready_aab

/-- Both machines complete on V14's header and fault on an empty one. -/
theorem witness_TokenMachineIsTheRecursion : (withIn [0x60, 0x13, 0x0F, 0x00]).hdr = none ∧
    (∃ t, bodyRdHeader (withIn [0x60, 0x13, 0x0F, 0x00]) = .ok t) ∧
    (∃ t, rdHeaderRecursive (withIn [0x60, 0x13, 0x0F, 0x00]) = .ok t) ∧
    (∃ t, bodyRdHeader State.reset = .raised .eofTag t) ∧
    (∃ t, rdHeaderRecursive State.reset = .raised .eofTag t) :=
  ⟨rfl, ⟨_, rfl⟩, ⟨_, rfl⟩, ⟨_, rfl⟩, ⟨_, rfl⟩⟩

/-- Depths 0, 255 and 256. -/
theorem witness_InternalTokenOpensANode : (inHeader noneSeen [] 0).hdr = some ⟨noneSeen, []⟩ ∧
    ([] : List (Option NodeIdx)).length < 256 ∧ (List.replicate 255 (none : Option NodeIdx)).length < 256 ∧
    (List.replicate 256 (none : Option NodeIdx)).length = 256 :=
  ⟨rfl, Nat.zero_lt_succ _, by rw [List.length_replicate]; omega, List.length_replicate⟩

/-- The bounds of the field and of the node store, and the kinds of stack: nothing open, a node whose left child is not
known, one or two whose left children are, with and without an open node below; the last two fill the store too far. -/
theorem witness_LeafTokenConstructsALeaf :
    (inHeader noneSeen [] 512).hdr = some ⟨noneSeen, []⟩ ∧ (inHeader noneSeen [] 512).ncount.val = 512 ∧
    256 < (257 : BitVec 9).toNat ∧ 256 < (511 : BitVec 9).toNat ∧
    (∃ x : Sym, x.val = (256 : BitVec 9).toNat ∧ (noneSeen.set 256 true)[x] = true) ∧
    (∃ x : Sym, x.val = (256 : BitVec 9).toNat ∧ noneSeen[x] = false) ∧
    (∃ x : Sym, x.val = (0 : BitVec 9).toNat ∧ noneSeen[x] = false) ∧
    512 + ([] : List NodeIdx).length < 513 ∧ 511 + ([5] : List NodeIdx).length < 513 ∧
    510 + ([5, 3] : List NodeIdx).length < 513 ∧
    (inHeader noneSeen [none] 512).hdr = some ⟨noneSeen, ([] : List NodeIdx).map some ++ none :: []⟩ ∧
    (inHeader noneSeen [some 5] 511).hdr = some ⟨noneSeen, ([5] : List NodeIdx).map some⟩ ∧
    (inHeader noneSeen [some 5, some 3] 510).hdr = some ⟨noneSeen, ([5, 3] : List NodeIdx).map some⟩ ∧
    (inHeader noneSeen [some 5, some 3, none] 510).hdr =
      some ⟨noneSeen, ([5, 3] : List NodeIdx).map some ++ none :: []⟩ ∧
    513 ≤ 513 + ([] : List NodeIdx).length ∧ 513 ≤ 512 + ([5] : List NodeIdx).length :=
  ⟨rfl, rfl, by decide, by decide, ⟨256, by decide, by rfl⟩, ⟨256, by decide, by rfl⟩, ⟨0, by decide, by rfl⟩,
    by decide, by decide, by decide, rfl, rfl, rfl, rfl, by decide, by decide⟩

/-- No bit; a tag bit 1 and 0 or 8 bits after it. -/
theorem witness_HeaderEndOfInputIsReported :
    (inHeader noneSeen [none] 0).hdr = some ⟨noneSeen, [none]⟩ ∧
    (inHeader noneSeen [none] 0).input.data.drop (inHeader noneSeen [none] 0).input.pos = [] ∧
    ([true] : List Bool).drop 0 = true :: [] ∧ (List.replicate 8 false).length < 9 := by
  refine ⟨rfl, rfl, rfl, by decide⟩

theorem witness_DeepHeaderIsRefused :
    Ready { State.reset with input := ⟨List.replicate 257 false ++ [true], 0⟩ } ∧
    (List.replicate 257 false ++ [true]).drop 0 = List.replicate 257 false ++ [true] ∧
    Ready { State.reset with input := ⟨List.replicate 256 false, 0⟩ } ∧
    (List.replicate 256 false).drop 0 = List.replicate 256 false ∧
    State.reset.input.data.drop State.reset.input.pos = List.replicate 0 false :=
  ⟨⟨⟨rfl, rfl, rfl⟩, rfl⟩, rfl, ⟨⟨rfl, rfl, rfl⟩, rfl⟩, rfl, rfl⟩

/-! ### Encoder -/

theorem witness_WrMagicAppendsTheMagic : Ready State.reset ∧ State.reset.oclosed = false ∧
    State.reset.output.closed = false ∧ Ready { State.reset with oclosed := true } :=
  ⟨ready_reset, rfl, rfl, ⟨⟨rfl, rfl, rfl⟩, rfl⟩⟩

/-- "AAB" and a tail of seven bits. -/
theorem witness_EncPayloadAppendsTheCodes :
    Ready { aabCoded with input := ⟨bytesToBits [0x41, 0x41, 0x42] ++ List.replicate 7 true, 0⟩ } ∧
    aabCoded.ctValid = true ∧ aabCoded.oclosed = false ∧ aabCoded.output.closed = false ∧
    (List.replicate 7 true).length < 8 ∧
    (∀ x ∈ ([0x41, 0x41, 0x42] : List Byte), (aabCoded.ct[byteSym x]).present = true) ∧
    (aabCoded.ct[Config.eos]).present = true := by
  refine ⟨⟨⟨rfl, rfl, rfl⟩, rfl⟩, rfl, rfl, rfl, by decide, ?_, by rfl⟩
  decide +kernel

/-- A byte without a code; the marker without one. -/
theorem witness_MissingCodeIsReported :
    Ready aabCoded ∧ aabCoded.ctValid = true ∧ aabCoded.oclosed = false ∧ aabCoded.output.closed = false ∧
    (∀ x ∈ ([0x41] : List Byte), (aabCoded.ct[byteSym x]).present = true) ∧
    (aabCoded.ct[byteSym 0x43]).present = false ∧
    ((aabCodes.set 256 CtEntry.absent)[Config.eos]).present = false := by
  refine ⟨ready_aabCoded, rfl, rfl, rfl, ?_, ?_, ?_⟩ <;> decide +kernel

theorem witness_CloseOutPadsAndCloses : Ready State.reset ∧ State.reset.oclosed = false ∧
    State.reset.output.closed = false := ⟨ready_reset, rfl, rfl⟩

theorem witness_ClosedChannelIsRefused : Ready { aab with output := ⟨[], true⟩ } ∧ aab.oclosed = false ∧
    aab.treeValid = true ∧ TreeWf { aab with output := ⟨[], true⟩ } :=
  ⟨⟨⟨rfl, rfl, rfl⟩, rfl⟩, rfl, rfl, treeWf_congr (s := aab) rfl rfl rfl treeWf_aab⟩

theorem witness_CompressIsItsSevenSteps : Ready aab ∧ aab.oclosed = false := ⟨ready_aab, rfl⟩

/-- The empty input, and "AAB". -/
theorem witness_CompressProducesTheBlob : Ready State.reset ∧ State.reset.oclosed = false ∧
    State.reset.output = ⟨[], false⟩ ∧ State.reset.input = ⟨bytesToBits [], 0⟩ ∧
    Ready aab ∧ aab.oclosed = false ∧ aab.output = ⟨[], false⟩ ∧ aab.input = ⟨bytesToBits [0x41, 0x41, 0x42], 0⟩ :=
  ⟨ready_reset, rfl, rfl, rfl, ready_aab, rfl, rfl, rfl⟩

/-! ### Decoder -/

/-- The magic, then other bits; zero; 31 bits. -/
theorem witness_RdMagicChecksTheMagic :
    Ready { State.reset with input := ⟨bitsMSB 32 magic.toNat ++ [true], 0⟩ } ∧
    Ready { State.reset with input := ⟨bitsMSB 32 (0 : Word).toNat, 0⟩ } ∧
    Ready { State.reset with input := ⟨List.replicate 31 false, 0⟩ } ∧
    ((List.replicate 31 false).drop 0).length < 32 :=
  ⟨⟨⟨rfl, rfl, rfl⟩, rfl⟩, ⟨⟨rfl, rfl, rfl⟩, rfl⟩, ⟨⟨rfl, rfl, rfl⟩, rfl⟩, by decide⟩

/-- V31's payload and two more bits. -/
theorem witness_DecPayloadDecodesTheCodes :
    Ready { aab with input := ⟨[false, false, true, false] ++ [true, true] ++ [false, false], 0⟩ } ∧
    aab.treeValid = true ∧ aab.oclosed = false ∧ aab.output.closed = false ∧ treeOf aab = some aabTree ∧
    codesOf aabTree [0x41, 0x41, 0x42] = some [false, false, true, false] ∧
    aabTree.path Config.eos = some [true, true] :=
  ⟨⟨⟨rfl, rfl, rfl⟩, rfl⟩, rfl, rfl, rfl, treeOf_aab, by decide, by decide⟩

/-- The input ends between two codes, and inside the code of byte 66. -/
theorem witness_TruncatedPayloadIsReported :
    Ready { aab with input := ⟨[false, true], 0⟩ } ∧ aab.treeValid = true ∧ aab.oclosed = false ∧
    aab.output.closed = false ∧ treeOf aab = some aabTree ∧ codesOf aabTree [0x41] = some [false] ∧
    aabTree.path 66 = some [true, false] ∧ [] <+: [true, false] ∧ ([] : List Bool) ≠ [true, false] ∧
    [true] <+: [true, false] ∧ [true] ≠ [true, false] ∧ [false, true].drop 0 = [false] ++ [true] ∧
    nodeAlong aab.node [true] aab.root = some 3 :=
  ⟨⟨⟨rfl, rfl, rfl⟩, rfl⟩, rfl, rfl, rfl, treeOf_aab, by decide, by decide, by decide, by decide, by decide, by decide,
    by decide, by rfl⟩

theorem witness_SingleLeafDecodesAtOnce : Ready (single 65) ∧ (single 65).treeValid = true ∧
    (single 65).oclosed = false ∧ (single 65).node[(single 65).root] = .leaf 65 1 ∧ (65 : Sym) ≠ Config.eos ∧
    Ready (single 256) ∧ (single 256).node[(single 256).root] = .leaf Config.eos 1 :=
  ⟨⟨⟨rfl, rfl, rfl⟩, rfl⟩, rfl, rfl, by rfl, by decide, ⟨⟨rfl, rfl, rfl⟩, rfl⟩, by rfl⟩

theorem witness_DecompressIsItsFourSteps : Ready State.reset ∧ State.reset.oclosed = false := ⟨ready_reset, rfl⟩

/-- The blob of "AAB" for any magic. -/
theorem witness_DecompressDecodesABlob :
    Ready { State.reset with input := ⟨bitsMSB 32 magic.toNat ++ aabTree.header ++ [false, false, true, false]
      ++ [true, true] ++ [false, false], 0⟩ } ∧
    State.reset.oclosed = false ∧ State.reset.output = ⟨[], false⟩ ∧ aabTree.leaves.Nodup ∧
    codesOf aabTree [0x41, 0x41, 0x42] = some [false, false, true, false] ∧
    aabTree.path Config.eos = some [true, true] :=
  ⟨⟨⟨rfl, rfl, rfl⟩, rfl⟩, rfl, rfl, by decide, by decide, by decide⟩

theorem witness_DecompressInvertsCompress : Ready aab ∧ aab.oclosed = false ∧
    aab.input = ⟨bytesToBits [0x41, 0x41, 0x42], 0⟩ ∧ aab.output = ⟨[], false⟩ ∧
    ∀ d : List Byte, Ready { State.reset with input := ⟨bytesToBits d, 0⟩ } ∧ State.reset.oclosed = false ∧
      State.reset.output = ⟨[], false⟩ :=
  ⟨ready_aab, rfl, rfl, rfl, fun _ => ⟨⟨⟨rfl, rfl, rfl⟩, rfl⟩, rfl, rfl⟩⟩

/-! ### What no instruction changes, and the host's accesses -/

theorem witness_TablesHaveOnlyTheirWriters : Instr.isCommand .gencodes = true ∧
    (∃ t, exec .gencodes aab = .next t) ∧
    (Instr.gencodes ∉ [.sreset, .ftClr, .count, .compress]) ∧
    (∃ t, exec .wrHeader aabCoded = .next t ∧ aabCoded.ctValid = true) ∧
    (∃ t, exec .nop { State.reset with oclosed := true } = .next t) :=
  ⟨rfl, (exists_of_nextIs (p := fun _ => true) (by decide +kernel)).imp fun _ h => h.1, by decide,
    (exists_of_nextIs (p := fun _ => true) (by decide +kernel)).imp fun _ h => ⟨h.1, rfl⟩, ⟨_, rfl⟩⟩

theorem witness_ChannelsOnlyMoveForward : (∃ t, exec .wrHeader aab = .next t) ∧
    (∃ t, exec .rdHeader { aab with output := ⟨[], true⟩ } = .next t) ∧
    (∃ t, exec (.hdrLeaf 65) (inHeader noneSeen [none] 0) = .next t) := by
  refine ⟨?_, ?_, ?_⟩ <;>
    exact (exists_of_nextIs (p := fun _ => true) (by decide +kernel)).imp fun _ h => h.1

theorem witness_AFaultLeavesTheOutputOpen : State.reset.errf = false ∧
    ∃ t, exec .encPayload State.reset = .next t ∧ t.errf = true := ⟨rfl, ⟨_, rfl, rfl⟩⟩

/-- A full node store and a valid table, so that every clause has a state; the first and last address of each window. -/
theorem witness_HostReadsTheRegisterMap :
    ({ aabCoded with ncount := 513 } : State).hdr = none ∧ ({ aabCoded with ncount := 513 } : State).busy = false ∧
    ({ aabCoded with ncount := 513 } : State).treeValid = true ∧ ({ aabCoded with ncount := 513 } : State).ctValid = true ∧
    (0x0100 : Addr).toNat = 0x0100 + (0 : Sym).val ∧ (0x0200 : Addr).toNat = 0x0100 + (256 : Sym).val ∧
    (0x1000 : Addr).toNat = 0x1000 + 4 * (0 : NodeIdx).val + (0 : Fin 4).val ∧
    (0x1803 : Addr).toNat = 0x1000 + 4 * (512 : NodeIdx).val + (3 : Fin 4).val ∧
    (0x2000 : Addr).toNat = 0x2000 + 16 * (0 : Sym).val + (0 : Fin 16).val ∧
    (0x300F : Addr).toNat = 0x2000 + 16 * (256 : Sym).val + (15 : Fin 16).val ∧
    0x3010 ≤ (0xFFFF : Addr).toNat ∧
    [0x0007, 0x00FF, 0x0201, 0x0FFF, 0x1804, 0x1FFF, 0x3010, 0xFFFF].map (regWord { aabCoded with ncount := 513 }) =
      List.replicate 8 (some 0) := by
  refine ⟨rfl, rfl, rfl, rfl, ?_⟩
  decide +kernel

/-- Each state of the decode walk. -/
theorem witness_RegisterWordsHoldTheFields :
    State.reset.dstate = .atRoot ∧ ({ aab with dstate := .atInternal, cur := 3 } : State).dstate = .atInternal ∧
    dwalkWord { aab with dstate := .atInternal, cur := 3 } = 0x403 ∧
    ({ aab with dstate := .done, cur := 2 } : State).dstate = .done ∧
    dwalkWord { aab with dstate := .done, cur := 2 } = 0x802 ∧ errWord ⟨2, 3, 65⟩ = 0x4132 := by decide

theorem witness_EnvironmentSuppliesFreshChannels :
    ({ aab with host := [.openSource [0x41]] } : State).hdr = none ∧
    ({ aab with host := [.openDestination] } : State).hdr = none ∧ State.reset.host = [] := ⟨rfl, rfl, rfl⟩

theorem witness_HostReadsHaveNoSideEffect :
    ({ State.reset with host := [.read 0x1000] } : State).hdr = none ∧ regWord State.reset 0x1000 = none := by
  decide +kernel

/-- The first and last writable count, and the neighbours that are not. -/
theorem witness_HostWritesOnlyTheByteCounts :
    State.reset.hdr = none ∧ State.reset.busy = false ∧ (0x0100 : Addr) ≠ 0x0000 ∧
    (0x0100 : Addr).toNat = 0x0100 + (0 : Sym).val ∧ (0x01FF : Addr).toNat = 0x0100 + (255 : Sym).val ∧
    (∀ x : Sym, x.val < 256 → (0x0200 : Addr).toNat ≠ 0x0100 + x.val) ∧
    (∀ x : Sym, x.val < 256 → (0x00FF : Addr).toNat ≠ 0x0100 + x.val) := by
  refine ⟨rfl, rfl, by decide, by decide, by decide, fun x hx => ?_, fun x hx => ?_⟩
  · change 512 ≠ _; omega
  · change 255 ≠ _; omega

/-- V19's host view of `NODE[4]`; the hypothesis asks for a second node with the same words, the node itself. -/
theorem witness_NodeWordsTellTheNode : (∀ k < 4, nodeWord (.internal 8589934591 1 3) k =
      [0x80000000, 0xFFFFFFFF, 0x00000001, 0x00030001].getD k 0) ∧
    (∀ k < 4, nodeWord (.internal 8589934591 1 3) k = nodeWord (.internal 8589934591 1 3) k) := by decide +kernel

/-- A code of the greatest length. -/
theorem witness_CodeWordsHoldTheCode : (⟨true, List.replicate 256 true⟩ : CtEntry).code.length ≤ 256 ∧
    entryWord ⟨true, List.replicate 256 true⟩ 0 = 0x80000100 ∧
    entryWord ⟨true, List.replicate 256 true⟩ 8 = 0xFFFFFFFF ∧
    entryWord ⟨true, List.replicate 256 true⟩ 9 = 0 := by decide +kernel

end Sys2Proof.Tests
end

