-- ==== Sys2Proof/Proofs/CloseOut.lean ====
section
/-! PROOF. CLOSE_OUT on a ready block whose output is open (R68, R173). -/

namespace Sys2Proof.Machine

/-- The checks of the commands that need only the output: none fails while `OCLOSED` is 0 (R213). -/
theorem failedNeed_needsOut {s : State} (h : s.oclosed = false) : failedNeed needsOut s = none := by
  simp [failedNeed, needsOut, h]

/-- A command whose body ends without a fault and touches none of what the common steps write: `DONE` is all they
add to what the body did (R212, R214). -/
theorem exec_ready_ok {i : Instr} (hc : i.isCommand = true) (hi : i ≠ .sreset) {s t : State} (hs : Ready s)
    (hn : failedNeed (needsOf i) s = none) (ht : Ready t) (hbody : bodyOf i (accept s) = .ok (accept t)) :
    exec i s = .next { t with done := true } := by
  rw [exec_ready hc hi hs hn, hbody, finish, complete_accept ht]

/-- The state with the output padded to whole bytes and closed, and `OCLOSED` set: what CLOSE_OUT's body leaves. -/
def padAndClose (s : State) : State :=
  { s with
    output := ⟨s.output.bits ++ List.replicate (padCount s.output.bits.length) false, true⟩
    oclosed := true }

/-- Padding and closing touches nothing that a command's acceptance writes. -/
theorem padAndClose_accept (s : State) : padAndClose (accept s) = accept (padAndClose s) := rfl

theorem ready_padAndClose {s : State} (h : Ready s) : Ready (padAndClose s) := h

/-- The body of CLOSE_OUT on an open channel (R173). -/
theorem bodyCloseOut_open {s : State} (h : s.output.closed = false) :
    bodyCloseOut s = .ok (padAndClose s) := by
  rw [bodyCloseOut, outClose_open h, ok_bind, padAndClose]

/-- CLOSE_OUT on a ready block with an open output (R173, R213). -/
theorem exec_closeOut_open {s : State} (hs : Ready s) (hoclosed : s.oclosed = false)
    (hopen : s.output.closed = false) : exec .closeOut s = .next { padAndClose s with done := true } := by
  have hbody : bodyCloseOut (accept s) = .ok (accept (padAndClose s)) := by
    rw [bodyCloseOut_open (by simpa using hopen), padAndClose_accept]
  exact exec_ready_ok rfl (by decide) hs (failedNeed_needsOut hoclosed) (ready_padAndClose hs) hbody

/-- Settles O39: the number of padding bits is `padCount` of the output's length. -/
theorem closeOutPadsAndCloses : Obligations.CloseOutPadsAndCloses := by
  intro s hs hoclosed hopen
  obtain ⟨hle, hwhole⟩ := padCount_spec s.output.bits.length
  exact ⟨padCount s.output.bits.length, hle, hwhole, exec_closeOut_open hs hoclosed hopen⟩

end Sys2Proof.Machine
end

