-- ==== Sys2Proof/Proofs/ByteCounts.lean ====
section
/-! PROOF. FT_CLR on a ready block (R121). -/

namespace Sys2Proof.Machine

/-- A command that needs neither the tree, the code table nor the output passes its checks in every state (R213). -/
@[simp] theorem failedNeed_needsNothing (s : State) : failedNeed needsNothing s = none := rfl

/-- After `ftClear` every byte count reads 0. -/
theorem ftRead_ftClear_byte (s : State) {x : Sym} (hx : x.val < 256) : ftRead (ftClear s) x = 0 := by
  simp [ftRead, ftClear, hx]

/-- Clearing the counts touches nothing that a command's acceptance writes. -/
theorem ftClear_accept (s : State) : ftClear (accept s) = accept (ftClear s) := rfl

theorem ready_ftClear {s : State} (h : Ready s) : Ready (ftClear s) := h

/-- FT_CLR on a ready block: the counts cleared and `DONE` set (R121). -/
theorem exec_ftClr_ready {s : State} (hs : Ready s) :
    exec .ftClr s = .next { ftClear s with done := true } := by
  have hbody : bodyFtClr (accept s) = .ok (accept (ftClear s)) := by rw [bodyFtClr, ftClear_accept]
  exact exec_ready_ok rfl (by decide) hs (failedNeed_needsNothing s) (ready_ftClear hs) hbody

/-- Settles O16: the next state is the cleared one with `DONE` set. -/
theorem ftClrClearsTheByteCounts : Obligations.FtClrClearsTheByteCounts := by
  intro s hs
  refine ⟨_, exec_ftClr_ready hs, rfl, fun x hx => ?_, ftRead_eos _⟩
  calc ftRead { ftClear s with done := true } x
      = ftRead (ftClear s) x := ftRead_congr rfl x
    _ = 0 := ftRead_ftClear_byte s hx

end Sys2Proof.Machine
end

