-- ==== Sys2Proof/Proofs/RemoveMin.lean ====
section
/-! PROOF. `RemoveMin` and the order it removes by (R131). -/

namespace Sys2Proof.Machine

/-- The key of R131 in the lexicographic order: the weight first, then the index. -/
def nodeKey (node : Vector Node 513) (i : NodeIdx) : Nat ×ₗ NodeIdx :=
  toLex ((nodeWeight node[i]).toNat, i)

section
variable {node : Vector Node 513}

/-- The index is part of the key, so no two indices tie. -/
theorem nodeKey_injective : Function.Injective (nodeKey node) :=
  fun _ _ h => congrArg (fun k => (ofLex k).2) h

theorem nodeKey_lt_iff {a b : NodeIdx} : nodeKey node a < nodeKey node b ↔
    (nodeWeight node[a]).toNat < (nodeWeight node[b]).toNat ∨
      ((nodeWeight node[a]).toNat = (nodeWeight node[b]).toNat ∧ a < b) :=
  Prod.Lex.toLex_lt_toLex

/-- The model's comparison is the order of the keys. -/
theorem keyLess_iff {a b : NodeIdx} : keyLess node a b ↔ nodeKey node a < nodeKey node b := by
  simp [keyLess, nodeKey_lt_iff]

/-- One comparison of the search keeps the index with the smaller key. -/
theorem nodeKey_ite_keyLess (m x : NodeIdx) :
    nodeKey node (if keyLess node x m then x else m) = min (nodeKey node m) (nodeKey node x) := by
  simp only [keyLess_iff]
  split
  next h => exact (min_eq_right h.le).symm
  next h => exact (min_eq_left (not_lt.mp h)).symm

theorem minIndex_mem (m : NodeIdx) (xs : List NodeIdx) : minIndex node m xs ∈ m :: xs := by
  induction xs generalizing m with
  | nil => exact List.mem_singleton_self m
  | cons x xs ih =>
    rw [minIndex]
    split
    next => exact List.mem_cons_of_mem m (ih x)
    next => exact ((List.sublist_cons_self x xs).cons_cons m).subset (ih m)

theorem nodeKey_minIndex_le (m : NodeIdx) (xs : List NodeIdx) :
    ∀ j ∈ m :: xs, nodeKey node (minIndex node m xs) ≤ nodeKey node j := by
  induction xs generalizing m with
  | nil => simp [minIndex]
  | cons x xs ih =>
    obtain ⟨hkept, hrest⟩ := List.forall_mem_cons.mp (ih (if keyLess node x m then x else m))
    rw [nodeKey_ite_keyLess, le_min_iff] at hkept
    exact List.forall_mem_cons.mpr ⟨hkept.1, List.forall_mem_cons.mpr ⟨hkept.2, hrest⟩⟩

/-- What `RemoveMin` answers for any non-empty queue, repeats included. -/
theorem removeMin_spec {pq : List NodeIdx} (hne : pq ≠ []) :
    ∃ i rest, removeMin node pq = some (i, rest) ∧ (i :: rest).Perm pq ∧
      ∀ j ∈ pq, nodeKey node i ≤ nodeKey node j := by
  obtain ⟨x, xs, rfl⟩ := List.exists_cons_of_ne_nil hne
  exact ⟨_, _, rfl, (List.perm_cons_erase (minIndex_mem x xs)).symm, nodeKey_minIndex_le x xs⟩

end

/-- Settles O19: the removed index has a least key, and without repeats every other index has another key. -/
theorem removeMinTakesTheSmallestKey : Obligations.RemoveMinTakesTheSmallestKey := by
  intro node pq hne hnodup
  obtain ⟨i, rest, hremove, hperm, hleast⟩ := removeMin_spec (node := node) hne
  refine ⟨i, rest, hremove, hperm, fun j hj => nodeKey_lt_iff.mp ?_⟩
  have hle : nodeKey node i ≤ nodeKey node j := hleast j (hperm.subset (List.mem_cons_of_mem i hj))
  have hi : i ∉ rest := (List.nodup_cons.mp (hperm.nodup_iff.mpr hnodup)).1
  have hij : i ≠ j := fun h => hi (h ▸ hj)
  exact lt_of_le_of_ne hle (nodeKey_injective.ne hij)

end Sys2Proof.Machine
end

