-- ==== Sys2Proof/Proofs/StoredTree.lean ====
section
/-! PROOF. The tree of a well-formed node store (R25): it exists, one path leads from the root to each of its nodes, and
its leaf symbols are distinct. -/

namespace Sys2Proof.Machine

/-! ## One level of the store -/

section
variable {node : Vector Node 513} {i : NodeIdx}

theorem treeAt_leaf {x : Sym} {w : Weight} (k : Nat) (h : node[i] = .leaf x w) :
    treeAt node (k + 1) i = some (.leaf x) := by simp [treeAt, h]

theorem treeAt_internal {k : Nat} {w : Weight} {l r : NodeIdx} {tl tr : Tree} (h : node[i] = .internal w l r)
    (hl : treeAt node k l = some tl) (hr : treeAt node k r = some tr) :
    treeAt node (k + 1) i = some (.node tl tr) := by simp [treeAt, h, hl, hr]

/-- What the store holds where it holds a tree of two subtrees. -/
theorem treeAt_eq_node {k : Nat} {tl tr : Tree} (h : treeAt node k i = some (.node tl tr)) :
    ∃ (k' : Nat) (w : Weight) (l r : NodeIdx), node[i] = .internal w l r ∧
      treeAt node k' l = some tl ∧ treeAt node k' r = some tr := by
  cases k with
  | zero => simp [treeAt] at h
  | succ k =>
    cases hn : node[i] with
    | leaf x w => simp [treeAt, hn] at h
    | internal w l r =>
      refine ⟨k, w, l, r, rfl, ?_⟩
      cases hl : treeAt node k l <;> cases hr : treeAt node k r <;> simp_all [treeAt]

theorem isChild_of_internal {w : Weight} {l r : NodeIdx} (h : node[i] = .internal w l r) (b : Bool) :
    isChild node[i] (if b then r else l) := by
  rw [h]
  cases b
  · exact .inl rfl
  · exact .inr rfl

/-- The last bit of a path goes from an internal node to one of its children. -/
theorem nodeAlong_concat {p : List Bool} {b : Bool} {c : NodeIdx} (h : nodeAlong node (p ++ [b]) i = some c) :
    ∃ (j : NodeIdx) (w : Weight) (l r : NodeIdx), nodeAlong node p i = some j ∧
      node[j] = .internal w l r ∧ (if b then r else l) = c := by
  rw [nodeAlong_append, Option.bind_eq_some_iff] at h
  obtain ⟨j, hj, hlast⟩ := h
  cases hn : node[j] with
  | leaf x w => simp [nodeAlong, hn] at hlast
  | internal w l r =>
    rw [nodeAlong_cons hn, nodeAlong_nil, Option.some.injEq] at hlast
    exact ⟨j, w, l, r, hj, hn, hlast⟩

end

/-! ## Well-formed stores -/

section
variable {s : State}

/-- The index of either child is below its parent's (R25 (c)). -/
theorem child_val_lt (hwf : TreeWf s) {i l r : NodeIdx} {w : Weight} (hi : i.val < s.ncount.val)
    (hn : s.node[i] = .internal w l r) (b : Bool) : (if b then r else l).val < i.val := by
  obtain ⟨hl, hr, -⟩ := hwf.children_below i w l r hi hn
  cases b
  · exact hl
  · exact hr

/-- Children have smaller indices than their parent, so fuel above the index is enough. -/
theorem exists_treeAt (hwf : TreeWf s) {k : Nat} {i : NodeIdx} (hi : i.val < s.ncount.val) (hk : i.val < k) :
    ∃ t, treeAt s.node k i = some t := by
  induction k generalizing i with
  | zero => omega
  | succ k ih =>
    cases hn : s.node[i] with
    | leaf x w => exact ⟨_, treeAt_leaf k hn⟩
    | internal w l r =>
      have hl : l.val < i.val := child_val_lt hwf hi hn false
      have hr : r.val < i.val := child_val_lt hwf hi hn true
      obtain ⟨tl, htl⟩ := ih (i := l) (by omega) (by omega)
      obtain ⟨tr, htr⟩ := ih (i := r) (by omega) (by omega)
      exact ⟨_, treeAt_internal hn htl htr⟩

theorem root_lt_ncount (hwf : TreeWf s) : s.root.val < s.ncount.val := by
  have := hwf.root_last
  omega

/-- A well-formed store holds a tree under its root (R25). -/
theorem exists_treeOf (hwf : TreeWf s) : ∃ T, treeOf s = some T :=
  exists_treeAt hwf (root_lt_ncount hwf) s.root.isLt

/-- Every node that a path from the root leads to is one of the allocated ones. -/
theorem nodeAlong_root_lt_ncount (hwf : TreeWf s) {p : List Bool} {c : NodeIdx}
    (h : nodeAlong s.node p s.root = some c) : c.val < s.ncount.val := by
  induction p using List.reverseRecOn generalizing c with
  | nil =>
    cases h
    exact root_lt_ncount hwf
  | append_singleton p b ih =>
    obtain ⟨j, w, l, r, hj, hn, rfl⟩ := nodeAlong_concat h
    exact (child_val_lt hwf (ih hj) hn b).trans (ih hj)

/-- No path of at least one bit leads back to the root. -/
theorem nodeAlong_root_ne_root (hwf : TreeWf s) (p : List Bool) (b : Bool) :
    nodeAlong s.node (p ++ [b]) s.root ≠ some s.root := by
  intro h
  obtain ⟨j, w, l, r, hj, hn, hchild⟩ := nodeAlong_concat h
  exact hwf.root_no_parent j (nodeAlong_root_lt_ncount hwf hj) (hchild ▸ isChild_of_internal hn b)

/-- One path leads from the root to each node: read from its end, the node has one parent, and the parent's two
children differ. -/
theorem nodeAlong_root_injective (hwf : TreeWf s) {p q : List Bool} {c : NodeIdx}
    (hp : nodeAlong s.node p s.root = some c) (hq : nodeAlong s.node q s.root = some c) : p = q := by
  induction p using List.reverseRecOn generalizing q c with
  | nil =>
    cases hp
    obtain rfl | ⟨q, b, rfl⟩ := List.eq_nil_or_concat' q
    · rfl
    · exact absurd hq (nodeAlong_root_ne_root hwf q b)
  | append_singleton p a ih =>
    obtain rfl | ⟨q, b, rfl⟩ := List.eq_nil_or_concat' q
    · cases hq
      exact absurd hp (nodeAlong_root_ne_root hwf p a)
    · have hc : c ≠ s.root := fun e => nodeAlong_root_ne_root hwf p a (e ▸ hp)
      have hclt := nodeAlong_root_lt_ncount hwf hp
      obtain ⟨j, w, l, r, hj, hn, hjc⟩ := nodeAlong_concat hp
      obtain ⟨j', w', l', r', hj', hn', hjc'⟩ := nodeAlong_concat hq
      have hjlt := nodeAlong_root_lt_ncount hwf hj
      have hjlt' := nodeAlong_root_lt_ncount hwf hj'
      obtain rfl : j = j' := (hwf.one_parent c hclt hc).unique
        ⟨hjlt, hjc ▸ isChild_of_internal hn a⟩ ⟨hjlt', hjc' ▸ isChild_of_internal hn' b⟩
      obtain ⟨rfl, rfl, rfl⟩ : w = w' ∧ l = l' ∧ r = r' := by simpa [hn] using hn'
      have hlr : l ≠ r := (hwf.children_below j w l r hjlt hn).2.2
      have hab : a = b := by cases a <;> cases b <;> simp_all
      rw [ih hj hj', hab]

/-- One path leads from the root to a leaf with a given symbol. -/
theorem nodeAlong_root_leaf_injective (hwf : TreeWf s) {p q : List Bool} {c d : NodeIdx} {x : Sym} {w w' : Weight}
    (hp : nodeAlong s.node p s.root = some c) (hc : s.node[c] = .leaf x w)
    (hq : nodeAlong s.node q s.root = some d) (hd : s.node[d] = .leaf x w') : p = q := by
  obtain rfl : c = d := hwf.leaves_distinct c d x w w' (nodeAlong_root_lt_ncount hwf hp)
    (nodeAlong_root_lt_ncount hwf hq) hc hd
  exact nodeAlong_root_injective hwf hp hq

/-- A leaf of the subtree that the bits `pre` lead to: its path continues `pre` to a node with its symbol. -/
theorem exists_nodeAlong_of_mem_leaves {k : Nat} {i : NodeIdx} {t : Tree} {pre : List Bool} {x : Sym}
    (hpre : nodeAlong s.node pre s.root = some i) (ht : treeAt s.node k i = some t) (hx : x ∈ t.leaves) :
    ∃ (p : List Bool) (c : NodeIdx) (w : Weight),
      nodeAlong s.node (pre ++ p) s.root = some c ∧ s.node[c] = .leaf x w := by
  obtain ⟨p, hp⟩ := Option.isSome_iff_exists.mp ((Tree.path_isSome_iff t x).mpr hx)
  obtain ⟨c, w, hc, hw⟩ := nodeAlong_path ht hp
  exact ⟨p, c, w, by rw [nodeAlong_append, hpre, Option.bind_some, hc], hw⟩

/-- Every subtree that the bits `pre` lead to has distinct leaf symbols. -/
theorem treeAt_leaves_nodup (hwf : TreeWf s) {t : Tree} {k : Nat} {i : NodeIdx} {pre : List Bool}
    (hpre : nodeAlong s.node pre s.root = some i) (ht : treeAt s.node k i = some t) : t.leaves.Nodup := by
  induction t generalizing k i pre with
  | leaf x => exact List.nodup_singleton x
  | node tl tr ihl ihr =>
    obtain ⟨k', w, l, r, hn, htl, htr⟩ := treeAt_eq_node ht
    have hstep : ∀ b : Bool, nodeAlong s.node (pre ++ [b]) s.root = some (if b then r else l) := fun b => by
      rw [nodeAlong_append, hpre, Option.bind_some, nodeAlong_cons hn, nodeAlong_nil]
    refine List.Nodup.append (ihl (hstep false) htl) (ihr (hstep true) htr) fun x hxl hxr => ?_
    obtain ⟨p, c, wc, hp, hc⟩ := exists_nodeAlong_of_mem_leaves (hstep false) htl hxl
    obtain ⟨q, d, wd, hq, hd⟩ := exists_nodeAlong_of_mem_leaves (hstep true) htr hxr
    simpa using nodeAlong_root_leaf_injective hwf hp hc hq hd

/-- The tree of a well-formed store has distinct leaf symbols (R25 (e)). -/
theorem treeOf_leaves_nodup (hwf : TreeWf s) {T : Tree} (hT : treeOf s = some T) : T.leaves.Nodup :=
  treeAt_leaves_nodup hwf (nodeAlong_nil s.node s.root) hT

end

end Sys2Proof.Machine
end

