-- ==== Sys2Proof/Proofs/GenCodes.lean ====
section
/-! PROOF. GENCODES on a ready block (R140, R141). -/

namespace Sys2Proof.Machine

/-- A command on a ready block whose checks fail: `ERR` is written and `DONE` falls, nothing else (R213, R232). -/
theorem exec_ready_failed {i : Instr} (hc : i.isCommand = true) (hi : i ≠ .sreset) {s : State} {f : BlockFault}
    (hs : Ready s) (hn : failedNeed (needsOf i) s = some f) :
    exec i s = .next { s with err := f.toErr, done := false } := by
  rw [exec_command hc hi, runCommand_failed hs hn, enterFault_accept hs]

/-! ## The walk -/

/-- After the walk a leaf's entry holds the bits the walk began with and then the leaf's path; every other entry is as
before. That the symbols are distinct matters: the walk keeps the last path of a symbol, `Tree.path` is the first. -/
theorem walk_getElem {t : Tree} (ht : t.leaves.Nodup) (pre : List Bool) (ct : Vector CtEntry 257) (x : Sym) :
    (walk t pre ct)[x] = (t.path x).elim ct[x] fun p => ⟨true, pre ++ p⟩ := by
  induction t generalizing pre ct with
  | leaf y =>
    by_cases h : x = y
    · simp [walk, Tree.path, h]
    · have hne : y.val ≠ x.val := fun e => h (Fin.ext e.symm)
      simp [walk, Tree.path, h, Vector.getElem_set_ne _ _ hne]
  | node l r ihl ihr =>
    obtain ⟨hl, hr, hlr⟩ := List.nodup_append.mp ht
    have hone : (l.path x).isSome = true → (r.path x).isSome = true → False := fun h h' =>
      hlr x ((Tree.path_isSome_iff l x).mp h) x ((Tree.path_isSome_iff r x).mp h') rfl
    rw [walk, ihr hr, ihl hl, Tree.path]
    cases hpl : l.path x <;> cases hpr : r.path x <;> simp_all

/-- The walk from the root over the absent entries leaves the tree's code table. -/
theorem walk_absent {T : Tree} (hT : T.leaves.Nodup) :
    walk T [] (Vector.replicate 257 CtEntry.absent) = Vector.ofFn (entryOf T) := by
  ext1 k hk
  rw [Vector.getElem_ofFn, entryOf]
  refine (walk_getElem hT [] _ ⟨k, hk⟩).trans ?_
  cases T.path ⟨k, hk⟩ <;> simp

/-! ## The command -/

theorem failedNeed_needsTree {s : State} (h : s.treeValid = true) : failedNeed needsTree s = none := by
  simp [failedNeed, needsTree, h]

theorem failedNeed_needsTree_invalid {s : State} (h : s.treeValid = false) :
    failedNeed needsTree s = some .needTree := by
  simp [failedNeed, needsTree, h]

/-- The state with the code table the walk of `T` leaves, and `CT_VALID` set: what GENCODES' body leaves. -/
def withCodes (T : Tree) (s : State) : State :=
  { s with ct := walk T [] (Vector.replicate 257 CtEntry.absent), ctValid := true }

theorem bodyGencodes_of_treeOf {s : State} {T : Tree} (h : treeOf s = some T) :
    bodyGencodes s = .ok (withCodes T s) := by
  rw [bodyGencodes, h, withCodes]

/-- GENCODES on a ready block with a tree (R140, R213). -/
theorem exec_gencodes_of_treeOf {s : State} {T : Tree} (hs : Ready s) (hvalid : s.treeValid = true)
    (hT : treeOf s = some T) : exec .gencodes s = .next { withCodes T s with done := true } :=
  exec_ready_ok (t := withCodes T s) rfl (by decide) hs (failedNeed_needsTree hvalid) hs
    (bodyGencodes_of_treeOf (s := accept s) hT)

/-- Settles O24: a well-formed tree has distinct leaf symbols, so the walk's table is the table of its paths. -/
theorem gencodesStoresThePaths : Obligations.GencodesStoresThePaths := by
  refine fun s hs => ⟨fun hvalid hwf => ?_, fun hinvalid => ?_⟩
  · obtain ⟨T, hT⟩ := exists_treeOf hwf
    refine ⟨T, hT, ?_⟩
    rw [exec_gencodes_of_treeOf hs hvalid hT, withCodes, walk_absent (treeOf_leaves_nodup hwf hT)]
  · exact exec_ready_failed (i := .gencodes) rfl (by decide) hs (failedNeed_needsTree_invalid hinvalid)

/-- Settles O26: the store's tree is a single leaf, whose walk sets one entry. -/
theorem singleLeafHasAnEmptyCode : Obligations.SingleLeafHasAnEmptyCode := by
  intro s x w hs hvalid hroot
  have hT : treeOf s = some (.leaf x) := treeAt_leaf 512 hroot
  exact ⟨exec_gencodes_of_treeOf hs hvalid hT, outBits_nil⟩

end Sys2Proof.Machine
end

