-- ==== Sys2Proof/Proofs/StoredTreeSize.lean ====
section
/-! PROOF. The tree of a well-formed node store has exactly the `NCOUNT` allocated nodes (R25), so `NCOUNT` is `2·L - 1`
for its `L` leaves. The nodes of a tree are counted by their addresses, the bits that lead to them from the root. -/

namespace Sys2Proof.Machine

/-- The bits that lead from the root to each node of a tree, the root's own address being empty. -/
def Tree.addresses : Tree → List (List Bool)
  | .leaf _ => [[]]
  | .node l r => [] :: (l.addresses.map (false :: ·) ++ r.addresses.map (true :: ·))

/-- A tree of `L` leaves has `2·L - 1` nodes. -/
theorem Tree.addresses_length (t : Tree) : t.addresses.length + 1 = 2 * t.leaves.length := by
  induction t with
  | leaf x => rfl
  | node l r ihl ihr =>
    simp only [addresses, leaves, List.length_cons, List.length_append, List.length_map]
    omega

theorem Tree.addresses_nodup (t : Tree) : t.addresses.Nodup := by
  induction t with
  | leaf x => exact List.nodup_singleton []
  | node l r ihl ihr =>
    have hl := ihl.map (List.cons_injective (a := false))
    have hr := ihr.map (List.cons_injective (a := true))
    refine List.nodup_cons.mpr ⟨by simp, hl.append hr fun p hpl hpr => ?_⟩
    obtain ⟨q, -, rfl⟩ := List.mem_map.mp hpl
    simp at hpr

section
variable {node : Vector Node 513} {i : NodeIdx}

/-- What the store holds where it holds a tree of one leaf. -/
theorem treeAt_eq_leaf {k : Nat} {x : Sym} (h : treeAt node k i = some (.leaf x)) :
    ∃ w : Weight, node[i] = .leaf x w := by
  cases k with
  | zero => simp [treeAt] at h
  | succ k =>
    cases hn : node[i] with
    | leaf y w => simp_all [treeAt]
    | internal w l r => cases hl : treeAt node k l <;> cases hr : treeAt node k r <;> simp_all [treeAt]

/-- No bit leads on from a leaf. -/
theorem nodeAlong_cons_leaf {x : Sym} {w : Weight} (h : node[i] = .leaf x w) (b : Bool) (q : List Bool) :
    nodeAlong node (b :: q) i = none := by
  rw [nodeAlong, h]

/-- The addresses of the tree under `i` are the bit sequences that lead from `i` to a node. -/
theorem mem_addresses_iff {t : Tree} {k : Nat} (ht : treeAt node k i = some t) (p : List Bool) :
    p ∈ t.addresses ↔ ∃ c, nodeAlong node p i = some c := by
  induction t generalizing k i p with
  | leaf x =>
    obtain ⟨w, hn⟩ := treeAt_eq_leaf ht
    cases p with
    | nil => simp [Tree.addresses]
    | cons b q => simp [Tree.addresses, nodeAlong_cons_leaf hn]
  | node tl tr ihl ihr =>
    obtain ⟨k', w, l, r, hn, htl, htr⟩ := treeAt_eq_node ht
    cases p with
    | nil => simp [Tree.addresses]
    | cons b q =>
      rw [nodeAlong_cons hn]
      cases b
      · simpa [Tree.addresses] using ihl htl q
      · simpa [Tree.addresses] using ihr htr q

/-- A child is reached from its parent by one bit. -/
theorem exists_nodeAlong_of_isChild {c : NodeIdx} (h : isChild node[i] c) :
    ∃ b, nodeAlong node [b] i = some c := by
  cases hn : node[i] with
  | leaf x w => simp [isChild, hn] at h
  | internal w l r =>
    rw [hn] at h
    obtain rfl | rfl := h
    · exact ⟨false, nodeAlong_cons hn false []⟩
    · exact ⟨true, nodeAlong_cons hn true []⟩

end

section
variable {s : State}

/-- The index of a child is below its parent's (R25 (c)). -/
theorem val_lt_of_isChild (hwf : TreeWf s) {j c : NodeIdx} (hj : j.val < s.ncount.val) (h : isChild s.node[j] c) :
    c.val < j.val := by
  cases hn : s.node[j] with
  | leaf x w => simp [isChild, hn] at h
  | internal w l r =>
    rw [hn] at h
    obtain rfl | rfl := h
    · exact child_val_lt hwf hj hn false
    · exact child_val_lt hwf hj hn true

/-- Every allocated node is reached from the root: its parent, which has a larger index, is. -/
theorem exists_nodeAlong_root (hwf : TreeWf s) (c : NodeIdx) (hc : c.val < s.ncount.val) :
    ∃ p, nodeAlong s.node p s.root = some c := by
  by_cases hroot : c = s.root
  · exact ⟨[], by rw [hroot, nodeAlong_nil]⟩
  · obtain ⟨j, ⟨hj, hchild⟩, -⟩ := hwf.one_parent c hc hroot
    have hlt : c.val < j.val := val_lt_of_isChild hwf hj hchild
    obtain ⟨p, hp⟩ := exists_nodeAlong_root hwf j hj
    obtain ⟨b, hb⟩ := exists_nodeAlong_of_isChild hchild
    exact ⟨p ++ [b], by rw [nodeAlong_append, hp, Option.bind_some, hb]⟩
termination_by s.ncount.val - c.val

/-- The index that an address leads to from the root, if it leads to a node. -/
def indexAt (s : State) (p : List Bool) : Option Nat := (nodeAlong s.node p s.root).map Fin.val

theorem indexAt_eq_some {p : List Bool} {n : Nat} :
    indexAt s p = some n ↔ ∃ c : NodeIdx, nodeAlong s.node p s.root = some c ∧ c.val = n := by
  simp [indexAt]

/-- Different addresses of the stored tree lead to different indices. -/
theorem indexAt_injOn_addresses (hwf : TreeWf s) {T : Tree} (hT : treeOf s = some T) :
    ∀ p ∈ T.addresses, ∀ q ∈ T.addresses, indexAt s p = indexAt s q → p = q := by
  intro p hp q _ hpq
  obtain ⟨c, hc⟩ := (mem_addresses_iff hT p).mp hp
  obtain ⟨d, hd, hdc⟩ := indexAt_eq_some.mp (hpq.symm.trans (indexAt_eq_some.mpr ⟨c, hc, rfl⟩))
  obtain rfl : d = c := Fin.ext hdc
  exact nodeAlong_root_injective hwf hc hd

/-- The addresses of the stored tree lead to exactly the indices below `NCOUNT`. -/
theorem mem_map_indexAt_addresses (hwf : TreeWf s) {T : Tree} (hT : treeOf s = some T) (o : Option Nat) :
    o ∈ T.addresses.map (indexAt s) ↔ o ∈ (List.range s.ncount.val).map some := by
  simp only [List.mem_map, List.mem_range]
  constructor
  · rintro ⟨p, hp, rfl⟩
    obtain ⟨c, hc⟩ := (mem_addresses_iff hT p).mp hp
    exact ⟨c.val, nodeAlong_root_lt_ncount hwf hc, (indexAt_eq_some.mpr ⟨c, hc, rfl⟩).symm⟩
  · rintro ⟨n, hn, rfl⟩
    have hn513 : n < 513 := by have := s.ncount.isLt; omega
    obtain ⟨p, hp⟩ := exists_nodeAlong_root hwf ⟨n, hn513⟩ hn
    exact ⟨p, (mem_addresses_iff hT p).mpr ⟨_, hp⟩, indexAt_eq_some.mpr ⟨_, hp, rfl⟩⟩

/-- The tree of a well-formed store has one node for each index below `NCOUNT`. -/
theorem treeOf_addresses_length (hwf : TreeWf s) {T : Tree} (hT : treeOf s = some T) :
    T.addresses.length = s.ncount.val := by
  have hleft : (T.addresses.map (indexAt s)).Nodup :=
    T.addresses_nodup.map_on fun p hp q hq => indexAt_injOn_addresses hwf hT p hp q hq
  have hright : ((List.range s.ncount.val).map some).Nodup :=
    List.nodup_range.map (Option.some_injective Nat)
  have hperm := (List.perm_ext_iff_of_nodup hleft hright).mpr (mem_map_indexAt_addresses hwf hT)
  simpa using hperm.length_eq

/-- `NCOUNT` is `2·L - 1` for the `L` leaves of the stored tree (R25, R132). -/
theorem ncount_eq_of_treeOf (hwf : TreeWf s) {T : Tree} (hT : treeOf s = some T) :
    s.ncount.val = 2 * T.leaves.length - 1 := by
  have hnodes := treeOf_addresses_length hwf hT
  have hleaves := T.addresses_length
  omega

end

end Sys2Proof.Machine
end

