-- ==== Sys2Proof/Proofs/WrHeader.lean ====
section
/-! PROOF. WR_HEADER on a ready block (R150, R151). -/

namespace Sys2Proof.Machine

/-! ## The checks -/

section
variable {s : State}

theorem failedNeed_needsTreeOut (hvalid : s.treeValid = true) (hoclosed : s.oclosed = false) :
    failedNeed needsTreeOut s = none := by
  simp [failedNeed, needsTreeOut, hvalid, hoclosed]

theorem failedNeed_needsTreeOut_invalid (hinvalid : s.treeValid = false) :
    failedNeed needsTreeOut s = some .needTree := by
  simp [failedNeed, needsTreeOut, hinvalid]

/-- The tree is checked before the output (R213). -/
theorem failedNeed_needsTreeOut_closed (hvalid : s.treeValid = true) (hoclosed : s.oclosed = true) :
    failedNeed needsTreeOut s = some .outClosed := by
  simp [failedNeed, needsTreeOut, hvalid, hoclosed]

end

/-! ## The command -/

/-- The state with `q` appended to an open output: what a write of `q` leaves (R66). -/
def appendOutput (q : List Bool) (s : State) : State := { s with output := ⟨s.output.bits ++ q, false⟩ }

/-- The body of WR_HEADER on an open channel and a stored tree (R150). -/
theorem bodyWrHeader_of_treeOf {s : State} {T : Tree} (hT : treeOf s = some T) (hopen : s.output.closed = false) :
    bodyWrHeader s = .ok (appendOutput T.header s) := by
  rw [bodyWrHeader, hT]
  exact outBits_open T.header hopen

/-- WR_HEADER on a ready block with a tree and an open output (R150, R213). -/
theorem exec_wrHeader_of_treeOf {s : State} {T : Tree} (hs : Ready s) (hvalid : s.treeValid = true)
    (hoclosed : s.oclosed = false) (hopen : s.output.closed = false) (hT : treeOf s = some T) :
    exec .wrHeader s = .next { appendOutput T.header s with done := true } :=
  exec_ready_ok (t := appendOutput T.header s) rfl (by decide) hs (failedNeed_needsTreeOut hvalid hoclosed) hs
    (bodyWrHeader_of_treeOf (s := accept s) hT hopen)

/-- Settles O27: the well-formed store has a tree, whose leaves count the header's bits and the store's nodes. -/
theorem wrHeaderAppendsTheHeader : Obligations.WrHeaderAppendsTheHeader := by
  refine fun s hs => ⟨fun hvalid hoclosed hopen hwf => ?_, fun hinvalid => ?_, fun hvalid hoclosed => ?_⟩
  · obtain ⟨T, hT⟩ := exists_treeOf hwf
    have hlength : T.header.length = 11 * T.leaves.length - 1 := Nat.eq_sub_of_add_eq T.header_length
    exact ⟨T, hT, exec_wrHeader_of_treeOf hs hvalid hoclosed hopen hT, hlength, ncount_eq_of_treeOf hwf hT⟩
  · exact exec_ready_failed (i := .wrHeader) rfl (by decide) hs (failedNeed_needsTreeOut_invalid hinvalid)
  · exact exec_ready_failed (i := .wrHeader) rfl (by decide) hs (failedNeed_needsTreeOut_closed hvalid hoclosed)

end Sys2Proof.Machine
end

