-- ==== Sys2Proof/Proofs/WrMagic.lean ====
section
/-! PROOF. WR_MAGIC on a ready block (R95, R170). -/

namespace Sys2Proof.Machine

/-- The number behind `magic` is below 2^32 - 1, so adding one neither gives 0 nor wraps to it (R95). -/
theorem magic_ne_zero : magic ≠ 0 := by
  have hbound : Config.magicLessOne.val < 4294967295 := Config.magicLessOne.isLt
  have htoNat : magic.toNat = Config.magicLessOne.val + 1 :=
    Nat.mod_eq_of_lt (b := 2 ^ 32) (by omega)
  exact fun h => by simp [h] at htoNat

/-- Among the checks of `needsOut` only the one of the output can fail (R213). -/
theorem failedNeed_needsOut_closed {s : State} (h : s.oclosed = true) : failedNeed needsOut s = some .outClosed := by
  simp [failedNeed, needsOut, h]

/-- WR_MAGIC on a ready block with an open output (R170). -/
theorem exec_wrMagic_open {s : State} (hs : Ready s) (hoclosed : s.oclosed = false)
    (hopen : s.output.closed = false) :
    exec .wrMagic s = .next { appendOutput (bitsMSB 32 magic.toNat) s with done := true } :=
  exec_ready_ok (t := appendOutput (bitsMSB 32 magic.toNat) s) rfl (by decide) hs (failedNeed_needsOut hoclosed) hs
    (outBits_open (s := accept s) (bitsMSB 32 magic.toNat) hopen)

/-- Settles O36: the body is one write of the magic, and a closed output fails the command's only check. -/
theorem wrMagicAppendsTheMagic : Obligations.WrMagicAppendsTheMagic :=
  ⟨magic_ne_zero, fun _ hs => ⟨exec_wrMagic_open hs, fun hoclosed =>
    exec_ready_failed (i := .wrMagic) rfl (by decide) hs (failedNeed_needsOut_closed hoclosed)⟩⟩

end Sys2Proof.Machine
end

