-- ==== Sys2Proof/Proofs/RdMagic.lean ====
section
/-! PROOF. RD_MAGIC on a ready block (R190, R222). -/

namespace Sys2Proof.Machine

/-- A command whose body raises a fault and touches none of what the common steps write: the fault's `ERR` and the
fallen `DONE` are all they add to what the body did (R212, R232). -/
theorem exec_ready_raised {i : Instr} (hc : i.isCommand = true) (hi : i ≠ .sreset) {s t : State} {f : BlockFault}
    (hs : Ready s) (hn : failedNeed (needsOf i) s = none) (ht : Ready t)
    (hbody : bodyOf i (accept s) = .raised f (accept t)) :
    exec i s = .next { t with err := f.toErr, done := false } := by
  rw [exec_ready hc hi hs hn, hbody, finish, enterFault_accept ht]

/-- What is left to read depends on the input channel alone (R61). -/
theorem unread_congr {s t : State} (h : s.input = t.input) : unread s = unread t := by
  rw [unread, unread, h]

theorem ready_advance {n : Nat} {s : State} (h : Ready s) : Ready (advance n s) := h

/-- `InRead(n)` of the bits of an `n`-bit word reads that word (R6, R63). -/
theorem inRead_bitVec {n : Nat} {s : State} {w : BitVec n} {rest : List Bool}
    (h : unread s = bitsMSB n w.toNat ++ rest) : inRead n s = some (w.toNat, advance n s) := by
  rw [inRead_append h (bitsMSB_length n w.toNat), valMSB_bitsMSB, Nat.mod_eq_of_lt w.isLt]

/-- The body of RD_MAGIC on the bits of the word it compares with (R190). -/
theorem bodyRdMagic_match {m : Word} {s : State} {rest : List Bool} (h : unread s = bitsMSB 32 m.toNat ++ rest) :
    bodyRdMagic m s = .ok (advance 32 s) := by
  simp [bodyRdMagic, inRead_bitVec h]

/-- The body of RD_MAGIC on the bits of any other word (R190, R222). -/
theorem bodyRdMagic_mismatch {m w : Word} {s : State} {rest : List Bool} (hw : w ≠ m)
    (h : unread s = bitsMSB 32 w.toNat ++ rest) : bodyRdMagic m s = .raised .badMagic (advance 32 s) := by
  have hne : w.toNat ≠ m.toNat := fun e => hw (BitVec.eq_of_toNat_eq e)
  simp [bodyRdMagic, inRead_bitVec h, hne]

/-- The body of RD_MAGIC on an input of fewer than 32 bits (R64, R222). -/
theorem bodyRdMagic_short {m : Word} {s : State} (h : (unread s).length < 32) :
    bodyRdMagic m s = .raised .shortMagic s := by
  simp [bodyRdMagic, inRead_short h]

/-- Settles O43: RD_MAGIC has no check to pass, and `MAGIC` is not 0, so that zero is one of the other values. -/
theorem rdMagicChecksTheMagic : Obligations.RdMagicChecksTheMagic := by
  refine fun s hs => ⟨fun rest h => ?_, fun w rest h hw => ?_, fun h => ?_⟩
  · exact exec_ready_ok (i := .rdMagic) rfl (by decide) hs (failedNeed_needsNothing s) (ready_advance hs)
      (bodyRdMagic_match (s := accept s) h)
  · have hne : w ≠ magic := hw.elim (fun h0 => h0 ▸ magic_ne_zero.symm) id
    exact exec_ready_raised (i := .rdMagic) rfl (by decide) hs (failedNeed_needsNothing s) (ready_advance hs)
      (bodyRdMagic_mismatch (s := accept s) hne h)
  · exact exec_ready_raised (i := .rdMagic) rfl (by decide) hs (failedNeed_needsNothing s) hs
      (bodyRdMagic_short (s := accept s) h)

end Sys2Proof.Machine
end

