-- ==== Sys2Proof/Proofs/DecodeWalk.lean ====
section
/-! PROOF. The decode walk over the codes of a stored tree, and DEC_PAYLOAD where the input ends too early or the root
is a leaf (R192, R193, R194, R198). -/

namespace Sys2Proof.Machine

/-! ## Codes as paths -/

theorem codesOf_cons {T : Tree} {x : Byte} {b : List Byte} {q : List Bool} :
    codesOf T (x :: b) = some q ↔
      ∃ p q', T.path (byteSym x) = some p ∧ codesOf T b = some q' ∧ q = p ++ q' := by
  rw [codesOf]
  cases T.path (byteSym x) <;> cases codesOf T b <;> simp [eq_comm]

theorem byteSym_ne_eos (x : Byte) : byteSym x ≠ Config.eos := fun h => by
  have hval : x.toNat = 256 := congrArg Fin.val h
  have := x.isLt
  omega

section
variable {node : Vector Node 513} {i c : NodeIdx}

/-- What a path of at least one bit starts with: an internal node and one of its children. -/
theorem nodeAlong_cons_eq_some {b : Bool} {q : List Bool} (h : nodeAlong node (b :: q) i = some c) :
    ∃ w l r, node[i] = .internal w l r ∧ nodeAlong node q (if b then r else l) = some c := by
  cases hn : node[i] with
  | leaf x w => simp [nodeAlong_cons_leaf hn] at h
  | internal w l r => exact ⟨w, l, r, rfl, nodeAlong_cons hn b q ▸ h⟩

/-- A path to an internal node starts at an internal node. -/
theorem internal_of_nodeAlong {q : List Bool} (h : nodeAlong node q i = some c)
    (hc : ∃ w l r, node[c] = .internal w l r) : ∃ w l r, node[i] = .internal w l r := by
  cases q with
  | nil => cases h; exact hc
  | cons b q =>
    obtain ⟨w, l, r, hn, -⟩ := nodeAlong_cons_eq_some h
    exact ⟨w, l, r, hn⟩

/-- A path to a leaf from an internal node takes at least one bit. -/
theorem ne_nil_of_nodeAlong_leaf {q : List Bool} {x : Sym} {w : Weight} (h : nodeAlong node q i = some c)
    (hc : node[c] = .leaf x w) (hi : ∃ w l r, node[i] = .internal w l r) : q ≠ [] := by
  rintro rfl
  cases h
  obtain ⟨w', l, r, hn⟩ := hi
  simp [hn] at hc

end

/-! ## One step -/

/-- The decode walk from where it stands, over all the bits left. -/
def decRest (s : State) : Result State := decRun (bitsLeft s) s

theorem bodyDecPayload_eq_decRest (s : State) : bodyDecPayload s = decRest (toRoot s) := rfl

section
variable {s : State} {c : NodeIdx}

theorem arrive_internal {w : Weight} {l r : NodeIdx} (h : s.node[c] = .internal w l r) :
    arrive c s = .ok { s with cur := c, dstate := .atInternal } := by
  simp [arrive, h]

theorem arrive_eos {w : Weight} (h : s.node[c] = .leaf Config.eos w) :
    arrive c s = .ok { s with cur := c, dstate := .done } := by
  simp [arrive, h]

theorem arrive_byte {x : Byte} {w : Weight} (h : s.node[c] = .leaf (byteSym x) w) (hopen : s.output.closed = false) :
    arrive c s = .ok (toRoot (appendOutput (bitsMSB 8 x.toNat) s)) := by
  simp only [arrive, h, if_neg (byteSym_ne_eos x)]
  exact congrArg (·.bind fun t => .ok (toRoot t)) (outBits_open (bitsMSB 8 x.toNat) hopen)

/-- From an internal node one bit is read and leads to a child (R193). -/
theorem decStep_bit {w : Weight} {l r : NodeIdx} {b : Bool} {rest : List Bool}
    (hn : s.node[s.cur] = .internal w l r) (h : unread s = b :: rest) :
    decStep s = arrive (if b then r else l) (advance 1 s) := by
  have hread : inRead 1 s = some (valMSB [b], advance 1 s) := inRead_append (q := [b]) h rfl
  simp only [decStep, hn, hread]
  cases b <;> rfl

/-- The walk goes on after a step that read one bit, unless it is done. -/
theorem decRest_of_decStep {t : State} (hstep : decStep s = .ok t) (hbits : bitsLeft s = bitsLeft t + 1) :
    decRest s = if t.decDone then .ok t else decRest t := by
  rw [decRest, hbits, decRun, hstep, ok_bind, decRest]

theorem bitsLeft_of_unread_cons {b : Bool} {rest : List Bool} (h : unread s = b :: rest) :
    bitsLeft s = bitsLeft (advance 1 s) + 1 := by
  simp [bitsLeft_eq, unread_advance, h]

/-- At an internal node with no bit left the walk raises `TRUNCATED_STREAM` (R198). -/
theorem decRest_truncated (hn : ∃ w l r, s.node[s.cur] = .internal w l r) (h : unread s = []) :
    decRest s = .raised .truncatedStream s := by
  obtain ⟨w, l, r, hn⟩ := hn
  have hread : inRead 1 s = none := inRead_short (by simp [h])
  have hbits : bitsLeft s = 0 := by rw [bitsLeft_eq, h, List.length_nil]
  simp only [decRest, hbits, decRun, decStep, hn, hread]

/-- At a byte's leaf, where it stands only when the root is one, the walk raises `DEGENERATE_TREE` (R194). -/
theorem decRest_byte_leaf {x : Sym} {w : Weight} (hn : s.node[s.cur] = .leaf x w) (hx : x ≠ Config.eos) :
    decRest s = .raised (.degenerateTree x) s := by
  have hstep : decStep s = .raised (.degenerateTree x) s := by simp only [decStep, hn, if_neg hx]
  rw [decRest]
  cases bitsLeft s with
  | zero => exact hstep
  | succ k => rw [decRun, hstep, raised_bind]

/-- At the marker's leaf the walk is done at once (R194). -/
theorem decRest_eos_leaf {w : Weight} (hn : s.node[s.cur] = .leaf Config.eos w) :
    decRest s = .ok { s with dstate := .done } := by
  have hstep : decStep s = .ok { s with dstate := .done } := by simp only [decStep, hn, if_true]
  rw [decRest]
  cases bitsLeft s with
  | zero => exact hstep
  | succ k => rw [decRun, hstep, ok_bind]; rfl

end

/-! ## Over the bits of a code -/

/-- The walk moved along the bits `p` to the internal node `c`. -/
def walkTo (p : List Bool) (c : NodeIdx) (s : State) : State :=
  { s with input := ⟨s.input.data, s.input.pos + p.length⟩, cur := c,
           dstate := if p = [] then s.dstate else .atInternal }

/-- The walk ended at the leaf `c`, along the bits `p`. -/
def walkDone (p : List Bool) (c : NodeIdx) (s : State) : State :=
  { s with input := ⟨s.input.data, s.input.pos + p.length⟩, cur := c, dstate := .done }

/-- The codes of `b`, `n` bits in all, read and `b` appended to an open output. -/
def afterCodes (b : List Byte) (n : Nat) (s : State) : State :=
  { s with input := ⟨s.input.data, s.input.pos + n⟩, output := ⟨s.output.bits ++ bytesToBits b, false⟩ }

theorem output_eq_of_open {s : State} (hopen : s.output.closed = false) : ⟨s.output.bits, false⟩ = s.output := by
  rw [← hopen]

theorem afterCodes_nil {s : State} (hopen : s.output.closed = false) : afterCodes [] 0 s = s := by
  simp only [afterCodes, bytesToBits_nil, List.append_nil, Nat.add_zero, output_eq_of_open hopen]

theorem afterCodes_afterCodes (a b : List Byte) (m n : Nat) (s : State) :
    afterCodes b n (afterCodes a m s) = afterCodes (a ++ b) (m + n) s := by
  simp [afterCodes, Nat.add_assoc]

theorem unread_toRoot (s : State) : unread (toRoot s) = unread s := unread_congr rfl

section
variable {s : State} {p rest : List Bool} {c : NodeIdx}

/-- The walk moves past the bits it follows. -/
theorem unread_walkTo (c : NodeIdx) (h : unread s = p ++ rest) : unread (walkTo p c s) = rest := by
  rw [unread_congr (s := walkTo p c s) (t := advance p.length s) rfl, unread_advance, h, List.drop_left]

theorem unread_afterCodes (b : List Byte) (h : unread s = p ++ rest) : unread (afterCodes b p.length s) = rest := by
  rw [unread_congr (s := afterCodes b p.length s) (t := advance p.length s) rfl, unread_advance, h, List.drop_left]

/-- The bits that lead to an internal node move the walk there and do nothing else. -/
theorem decRest_walkTo (hp : nodeAlong s.node p s.cur = some c) (hc : ∃ w l r, s.node[c] = .internal w l r)
    (h : unread s = p ++ rest) : decRest s = decRest (walkTo p c s) := by
  induction p generalizing s with
  | nil => cases hp; rfl
  | cons b p ih =>
    obtain ⟨w, l, r, hn, hchild⟩ := nodeAlong_cons_eq_some hp
    obtain ⟨w', l', r', hn'⟩ := internal_of_nodeAlong hchild hc
    let t : State := walkTo [b] (if b then r else l) s
    have hstep : decStep s = .ok t := (decStep_bit hn h).trans (arrive_internal (s := advance 1 s) hn')
    have hwalk : walkTo p c t = walkTo (b :: p) c s := by
      simp [walkTo, t, Nat.add_comm, Nat.add_left_comm]
    calc decRest s
        = decRest t := decRest_of_decStep hstep (bitsLeft_of_unread_cons h)
      _ = decRest (walkTo p c t) := ih (s := t) hchild hc (unread_walkTo (p := [b]) _ h)
      _ = decRest (walkTo (b :: p) c s) := by rw [hwalk]

/-- The bits of a byte's code emit the byte and bring the walk back to the root (R193). -/
theorem decRest_byte_code {x : Byte} {w : Weight} (hp : nodeAlong s.node p s.cur = some c)
    (hc : s.node[c] = .leaf (byteSym x) w) (hne : p ≠ []) (h : unread s = p ++ rest)
    (hopen : s.output.closed = false) : decRest s = decRest (toRoot (afterCodes [x] p.length s)) := by
  obtain rfl | ⟨p, b, rfl⟩ := List.eq_nil_or_concat' p
  · exact absurd rfl hne
  obtain ⟨j, w', l, r, hj, hn, rfl⟩ := nodeAlong_concat hp
  rw [List.append_assoc] at h
  have hunread : unread (walkTo p j s) = b :: rest := unread_walkTo j h
  have hstep := (decStep_bit (s := walkTo p j s) hn hunread).trans
    (arrive_byte (s := advance 1 (walkTo p j s)) hc hopen)
  rw [decRest_walkTo hj ⟨w', l, r, hn⟩ h, decRest_of_decStep hstep (bitsLeft_of_unread_cons hunread)]
  simp [State.decDone, toRoot, appendOutput, afterCodes, walkTo, advance, Nat.add_assoc]

/-- The bits of the marker's code end the walk at the marker's leaf; an empty code takes no bit (R193, R194). -/
theorem decRest_eos_code {w : Weight} (hp : nodeAlong s.node p s.cur = some c)
    (hc : s.node[c] = .leaf Config.eos w) (h : unread s = p ++ rest) : decRest s = .ok (walkDone p c s) := by
  obtain rfl | ⟨p, b, rfl⟩ := List.eq_nil_or_concat' p
  · cases hp
    exact decRest_eos_leaf hc
  obtain ⟨j, w', l, r, hj, hn, rfl⟩ := nodeAlong_concat hp
  rw [List.append_assoc] at h
  have hunread : unread (walkTo p j s) = b :: rest := unread_walkTo j h
  have hstep := (decStep_bit (s := walkTo p j s) hn hunread).trans
    (arrive_eos (s := advance 1 (walkTo p j s)) hc)
  rw [decRest_walkTo hj ⟨w', l, r, hn⟩ h, decRest_of_decStep hstep (bitsLeft_of_unread_cons hunread)]
  simp [State.decDone, walkDone, walkTo, advance, Nat.add_assoc]

/-- Where the bits left lead to an internal node the walk raises `TRUNCATED_STREAM` there (R198). -/
theorem decRest_cut_code (hp : nodeAlong s.node p s.cur = some c) (hc : ∃ w l r, s.node[c] = .internal w l r)
    (h : unread s = p) : decRest s = .raised .truncatedStream (walkTo p c s) := by
  have hall : unread s = p ++ [] := h.trans (List.append_nil p).symm
  rw [decRest_walkTo hp hc hall]
  exact decRest_truncated hc (unread_walkTo c hall)

end

/-! ## Over the codes of bytes -/

/-- From the root of a tree that is no single leaf if there is a byte at all, the codes of bytes emit those bytes
(R193). -/
theorem decRest_codes {s : State} {T : Tree} {k : Nat} {b : List Byte} {q rest : List Bool}
    (hT : treeAt s.node k s.root = some T) (hroot : b ≠ [] → ∃ w l r, s.node[s.root] = .internal w l r)
    (hq : codesOf T b = some q) (h : unread s = q ++ rest) (hopen : s.output.closed = false) :
    decRest (toRoot s) = decRest (toRoot (afterCodes b q.length s)) := by
  induction b generalizing s q with
  | nil =>
    cases hq
    rw [List.length_nil, afterCodes_nil hopen]
  | cons x b ih =>
    obtain ⟨p, q', hpath, hq', rfl⟩ := codesOf_cons.mp hq
    obtain ⟨c, w, hp, hc⟩ := nodeAlong_path hT hpath
    have hinternal := hroot (List.cons_ne_nil x b)
    have hne : p ≠ [] := ne_nil_of_nodeAlong_leaf hp hc hinternal
    rw [List.append_assoc] at h
    calc decRest (toRoot s)
        = decRest (toRoot (afterCodes [x] p.length s)) := decRest_byte_code (s := toRoot s) hp hc hne h hopen
      _ = decRest (toRoot (afterCodes b q'.length (afterCodes [x] p.length s))) :=
          ih (s := afterCodes [x] p.length s) hT (fun _ => hinternal) hq' (unread_afterCodes [x] h) rfl
      _ = decRest (toRoot (afterCodes (x :: b) (p ++ q').length s)) := by
          rw [afterCodes_afterCodes, List.singleton_append, List.length_append]

/-- The body of DEC_PAYLOAD on an input that ends after the codes of `b` and the bits `r`, which lead to an internal
node (R198). -/
theorem bodyDecPayload_truncated {s : State} {T : Tree} {b : List Byte} {q r : List Bool} {c : NodeIdx}
    (hT : treeOf s = some T) (hq : codesOf T b = some q) (hr : nodeAlong s.node r s.root = some c)
    (hc : ∃ w l k, s.node[c] = .internal w l k) (h : unread s = q ++ r) (hopen : s.output.closed = false) :
    bodyDecPayload s = .raised .truncatedStream (walkTo r c (toRoot (afterCodes b q.length s))) := by
  rw [bodyDecPayload_eq_decRest, decRest_codes hT (fun _ => internal_of_nodeAlong hr hc) hq h hopen]
  exact decRest_cut_code (s := toRoot (afterCodes b q.length s)) hr hc
    ((unread_toRoot _).trans (unread_afterCodes b h))

/-- The bits of a path in the stored tree, cut short anywhere, lead to an internal node. -/
theorem exists_internal_of_cut_path {s : State} {T : Tree} {x : Sym} {p r : List Bool} (hT : treeOf s = some T)
    (hp : T.path x = some p) (hcut : r <+: p) (hne : r ≠ p) :
    ∃ c, nodeAlong s.node r s.root = some c ∧ ∃ w l k, s.node[c] = .internal w l k := by
  obtain ⟨d, w, hd, -⟩ := nodeAlong_path hT hp
  obtain ⟨_ | ⟨b, p'⟩, rfl⟩ := hcut
  · exact absurd (List.append_nil r).symm hne
  · rw [nodeAlong_append, Option.bind_eq_some_iff] at hd
    obtain ⟨c, hc, hrest⟩ := hd
    obtain ⟨w, l, k, hn, -⟩ := nodeAlong_cons_eq_some hrest
    exact ⟨c, hc, w, l, k, hn⟩

/-! The walk touches nothing that a command's acceptance writes. -/

theorem toRoot_accept (s : State) : toRoot (accept s) = accept (toRoot s) := rfl

theorem afterCodes_accept (b : List Byte) (n : Nat) (s : State) :
    afterCodes b n (accept s) = accept (afterCodes b n s) := rfl

theorem walkTo_accept (p : List Bool) (c : NodeIdx) (s : State) :
    walkTo p c (accept s) = accept (walkTo p c s) := rfl

/-- Settles O45: the bits of the unfinished code lead to an internal node, where the walk finds no bit left. -/
theorem truncatedPayloadIsReported : Obligations.TruncatedPayloadIsReported := by
  intro s T b q p r x hs hvalid hoclosed hopen hT hq hp hcut hne hpos h
  obtain ⟨c, hc, hinternal⟩ := exists_internal_of_cut_path hT hp hcut hne
  have hend : s.input.pos + q.length + r.length = s.input.data.length := by
    have hlength := congrArg List.length h
    simp only [List.length_drop, List.length_append] at hlength
    omega
  have hbody : bodyDecPayload (accept s) =
      .raised .truncatedStream (accept (walkTo r c (toRoot (afterCodes b q.length s)))) := by
    rw [bodyDecPayload_truncated (s := accept s) hT hq hc hinternal h hopen, afterCodes_accept, toRoot_accept,
      walkTo_accept]
  refine ⟨c, hc, hinternal, ?_⟩
  rw [exec_ready_raised (i := .decPayload) (t := walkTo r c (toRoot (afterCodes b q.length s))) rfl (by decide) hs
    (failedNeed_needsTreeOut hvalid hoclosed) hs hbody]
  simp [walkTo, afterCodes, toRoot, hend, BlockFault.toErr]

/-- Settles O46: the walk stands at the leaf it starts from, where it takes no bit. -/
theorem singleLeafDecodesAtOnce : Obligations.SingleLeafDecodesAtOnce := by
  refine fun s x w hs hvalid hoclosed hroot => ⟨fun hx => ?_, fun hx => ?_⟩
  · exact exec_ready_raised (i := .decPayload) (t := toRoot s) rfl (by decide) hs
      (failedNeed_needsTreeOut hvalid hoclosed) hs (decRest_byte_leaf (s := toRoot (accept s)) hroot hx)
  · subst hx
    exact exec_ready_ok (i := .decPayload) (t := { toRoot s with dstate := .done }) rfl (by decide) hs
      (failedNeed_needsTreeOut hvalid hoclosed) hs (decRest_eos_leaf (s := toRoot (accept s)) hroot)

end Sys2Proof.Machine
end

