-- ==== Sys2Proof/Proofs/StoredSubtree.lean ====
section
/-! PROOF. Subtrees of a node store that is being filled from index 0 up, children before their parents, as BUILD and
RD_HEADER fill it (R130, R152). -/

namespace Sys2Proof.Machine

/-- The store holds a tree under an index below `n`, and every child's index is below its parent's. -/
def Stores (node : Vector Node 513) : Tree → Nat → NodeIdx → Prop
  | .leaf x, n, i => i.val < n ∧ ∃ w, node[i] = .leaf x w
  | .node tl tr, n, i => i.val < n ∧ ∃ w l r, node[i] = .internal w l r ∧
      Stores node tl i.val l ∧ Stores node tr i.val r

section
variable {node node' : Vector Node 513} {t : Tree} {n m : Nat} {i : NodeIdx}

theorem Stores.mono (h : Stores node t n i) (hnm : n ≤ m) : Stores node t m i := by
  cases t with
  | leaf x => exact ⟨h.1.trans_le hnm, h.2⟩
  | node tl tr => exact ⟨h.1.trans_le hnm, h.2⟩

/-- What is stored below `n` depends on the entries below `n` alone. -/
theorem Stores.congr (h : Stores node t n i) (hsame : ∀ j : NodeIdx, j.val < n → node'[j] = node[j]) :
    Stores node' t n i := by
  induction t generalizing n i with
  | leaf x =>
    obtain ⟨hi, w, hn⟩ := h
    exact ⟨hi, w, (hsame i hi).trans hn⟩
  | node tl tr ihl ihr =>
    obtain ⟨hi, w, l, r, hn, hl, hr⟩ := h
    have hbelow : ∀ j : NodeIdx, j.val < i.val → node'[j] = node[j] := fun j hj => hsame j (hj.trans hi)
    exact ⟨hi, w, l, r, (hsame i hi).trans hn, ihl hl hbelow, ihr hr hbelow⟩

/-- A stored tree is the one the model reads off, with as many levels of fuel as indices. -/
theorem Stores.treeAt (h : Stores node t n i) : treeAt node n i = some t := by
  induction t generalizing n i with
  | leaf x =>
    obtain ⟨hi, w, hn⟩ := h
    exact treeAt_mono (treeAt_leaf 0 hn) (by omega)
  | node tl tr ihl ihr =>
    obtain ⟨hi, w, l, r, hn, hl, hr⟩ := h
    exact treeAt_mono (treeAt_internal hn (ihl hl) (ihr hr)) hi

/-- A tree stored under the root is the machine's tree. -/
theorem Stores.treeOf {s : State} (h : Stores s.node t s.ncount.val s.root) : treeOf s = some t :=
  treeAt_mono h.treeAt (by have := s.ncount.isLt; omega)

end

/-! ## Allocation -/

/-- The state with `nd` allocated at `NCOUNT`. -/
def withNode (nd : Node) (s : State) (h : s.ncount.val < 513) : State :=
  { s with node := s.node.set s.ncount.val nd, ncount := ⟨s.ncount.val + 1, by omega⟩ }

section
variable {s : State} {nd : Node}

theorem alloc_eq_withNode (nd : Node) (h : s.ncount.val < 513) :
    alloc nd s = .ok (⟨s.ncount.val, h⟩, withNode nd s h) := alloc_room nd h

theorem withNode_ncount (h : s.ncount.val < 513) : (withNode nd s h).ncount.val = s.ncount.val + 1 := rfl

theorem withNode_getElem_new (h : s.ncount.val < 513) :
    (withNode nd s h).node[(⟨s.ncount.val, h⟩ : NodeIdx)] = nd := by
  simp [withNode]

/-- Allocation keeps the entries already allocated. -/
theorem withNode_getElem_of_lt (h : s.ncount.val < 513) {j : NodeIdx} (hj : j.val < s.ncount.val) :
    (withNode nd s h).node[j] = s.node[j] := by
  have hne : s.ncount.val ≠ j.val := by omega
  simp [withNode, Vector.getElem_set_ne _ _ hne]

/-- Allocation keeps the trees already stored. -/
theorem Stores.withNode {t : Tree} {i : NodeIdx} (hs : Stores s.node t s.ncount.val i) (h : s.ncount.val < 513) :
    Stores (withNode nd s h).node t s.ncount.val i :=
  hs.congr fun _ hj => withNode_getElem_of_lt h hj

theorem stores_withNode_leaf (x : Sym) (w : Weight) (h : s.ncount.val < 513) :
    Stores (withNode (.leaf x w) s h).node (.leaf x) (withNode (.leaf x w) s h).ncount.val ⟨s.ncount.val, h⟩ :=
  ⟨Nat.lt_succ_self _, w, withNode_getElem_new h⟩

/-- An internal node over two stored trees. -/
theorem stores_withNode_internal {tl tr : Tree} {l r : NodeIdx} (w : Weight) (hl : Stores s.node tl s.ncount.val l)
    (hr : Stores s.node tr s.ncount.val r) (h : s.ncount.val < 513) :
    Stores (withNode (.internal w l r) s h).node (.node tl tr) (withNode (.internal w l r) s h).ncount.val
      ⟨s.ncount.val, h⟩ :=
  ⟨Nat.lt_succ_self _, w, l, r, withNode_getElem_new h, hl.withNode h, hr.withNode h⟩

end

end Sys2Proof.Machine
end

