-- ==== Sys2Proof/Proofs/HeaderReadBack.lean ====
section
/-! PROOF. The body of RD_HEADER on the header of a tree with distinct leaf symbols stores that tree (R152, R156). -/

namespace Sys2Proof.Machine

/-! ## One token -/

/-- A token's bits decode to the token, whatever follows (R96). -/
theorem decodeToken_encodeToken_append (k : HdrToken) (rest : List Bool) :
    decodeToken (encodeToken k ++ rest) = .ok (k, (encodeToken k).length) := by
  cases k with
  | internal => rfl
  | leaf v =>
    have htake : (bitsMSB 9 v.toNat ++ rest).take 9 = bitsMSB 9 v.toNat :=
      List.take_left' (bitsMSB_length 9 v.toNat)
    have hlength : ¬ (bitsMSB 9 v.toNat ++ rest).length < 9 := by simp
    have hvalue : BitVec.ofNat 9 (valMSB (bitsMSB 9 v.toNat)) = v := by
      rw [valMSB_bitsMSB, Nat.mod_eq_of_lt v.isLt, BitVec.ofNat_toNat, BitVec.setWidth_eq]
    simp only [encodeToken, List.cons_append, decodeToken, if_neg hlength, htake, hvalue, List.length_cons,
      bitsMSB_length]

theorem fetchToken_encodeToken {s : State} {k : HdrToken} {rest : List Bool} (h : unread s = encodeToken k ++ rest) :
    fetchToken s = .ok (k, advance (encodeToken k).length s) := by
  rw [fetchToken, h, decodeToken_encodeToken_append]

/-- What RD_HEADER does after a token: it reads on with fuel `k` while the header is open (R152). -/
def readOn (k : Nat) (s : State) : Result State := if s.hdr.isSome then readTokens k s else .ok s

theorem readTokens_encodeToken {k : Nat} {s : State} {tk : HdrToken} {rest : List Bool}
    (h : unread s = encodeToken tk ++ rest) :
    readTokens (k + 1) s = (applyToken tk (advance (encodeToken tk).length s)).bind (readOn k) := by
  rw [readTokens, fetchToken_encodeToken h]
  rfl

/-- The token HDR_INTERNAL with fewer than 256 nodes open (R154). -/
theorem applyToken_internal {s : State} {seen : Vector Bool 257} {stack : List (Option NodeIdx)}
    (hhdr : s.hdr = some ⟨seen, stack⟩) (hdepth : stack.length < 256) :
    applyToken .internal s = .ok { s with hdr := some ⟨seen, none :: stack⟩ } := by
  simp only [applyToken, hhdr, readInternal, if_neg (Nat.not_le.mpr hdepth)]

theorem checkSymbol_unseen {seen : Vector Bool 257} {x : Sym} (h : seen[x] = false) :
    checkSymbol seen (BitVec.ofNat 9 x.val) = .ok x := by
  have hx : x.val < 257 := x.isLt
  have hval : (BitVec.ofNat 9 x.val).toNat = x.val := Nat.mod_eq_of_lt (by omega)
  have h' : seen[x.val] = false := h
  simp [checkSymbol, hval, hx, h']

/-- The token HDR_LEAF with a symbol not seen before and room in the store (R155). -/
theorem applyToken_leaf {s : State} {seen : Vector Bool 257} {stack : List (Option NodeIdx)} {x : Sym}
    (hhdr : s.hdr = some ⟨seen, stack⟩) (hseen : seen[x] = false) (hroom : s.ncount.val < 513) :
    applyToken (.leaf (BitVec.ofNat 9 x.val)) s =
      closeSubtree (seen.set x.val true) stack ⟨s.ncount.val, hroom⟩ (withNode (.leaf x 0) s hroom) := by
  simp only [applyToken, hhdr, readLeaf, checkSymbol_unseen hseen, alloc_eq_withNode _ hroom, ok_bind]

/-! ## A subtree -/

/-- The marks `SEEN` after the leaves `xs` (R155). -/
def markSeen (seen : Vector Bool 257) (xs : List Sym) : Vector Bool 257 :=
  xs.foldl (fun v x => v.set x.val true) seen

theorem markSeen_append (seen : Vector Bool 257) (xs ys : List Sym) :
    markSeen seen (xs ++ ys) = markSeen (markSeen seen xs) ys := List.foldl_append

theorem markSeen_getElem_of_notMem {xs : List Sym} {y : Sym} (h : y ∉ xs) (seen : Vector Bool 257) :
    (markSeen seen xs)[y] = seen[y] := by
  induction xs generalizing seen with
  | nil => rfl
  | cons x xs ih =>
    obtain ⟨hne, hxs⟩ := List.ne_and_not_mem_of_not_mem_cons h
    have hval : x.val ≠ y.val := fun e => hne (Fin.ext e.symm)
    exact (ih hxs _).trans (Vector.getElem_set_ne _ _ hval)

/-- What reading the header of `t` has done when its last node, at index `i`, is about to be handed on: the header is
read, the nodes of `t` are allocated, and the earlier ones are as before. -/
structure SubtreeRead (t : Tree) (s s' : State) (i : NodeIdx) : Prop where
  input : s'.input = ⟨s.input.data, s.input.pos + t.header.length⟩
  count : s'.ncount.val + 1 = s.ncount.val + 2 * t.leaves.length
  kept : ∀ j : NodeIdx, j.val < s.ncount.val → s'.node[j] = s.node[j]
  stored : Stores s'.node t s'.ncount.val i

section
variable {s s' : State} {t : Tree} {i : NodeIdx}

theorem SubtreeRead.unread {rest : List Bool} (hr : SubtreeRead t s s' i) (h : unread s = t.header ++ rest) :
    unread s' = rest := by
  rw [unread_congr (t := advance t.header.length s) hr.input, unread_advance, h, List.drop_left]

theorem subtreeRead_leaf (x : Sym) (h : s.ncount.val < 513) :
    SubtreeRead (.leaf x) s (withNode (.leaf x 0) (advance 10 s) h) ⟨s.ncount.val, h⟩ where
  input := rfl
  count := rfl
  kept _ hj := withNode_getElem_of_lt (s := advance 10 s) h hj
  stored := stores_withNode_leaf (s := advance 10 s) x 0 h

/-- A node is constructed over its two subtrees, read after its own token and after one another. -/
theorem SubtreeRead.node {l r : Tree} {i j : NodeIdx} {s₁ s₂ : State} {h₀ h₁ : Option HeaderRead}
    (hl : SubtreeRead l { advance 1 s with hdr := h₀ } s₁ i) (hr : SubtreeRead r { s₁ with hdr := h₁ } s₂ j)
    (h : s₂.ncount.val < 513) :
    SubtreeRead (.node l r) s (withNode (.internal 0 i j) s₂ h) ⟨s₂.ncount.val, h⟩ := by
  obtain ⟨hinput₁, hcount₁, hkept₁, hstored₁⟩ := hl
  obtain ⟨hinput₂, hcount₂, hkept₂, hstored₂⟩ := hr
  have hpos := l.leaves_pos
  have hpos' := r.leaves_pos
  simp only [advance_fields] at hcount₁ hcount₂ hkept₁ hkept₂
  refine ⟨?_, ?_, fun k hk => ?_, ?_⟩
  · simp only [withNode, hinput₂, hinput₁, advance_fields, Tree.header_node, List.length_cons, List.length_append,
      InChannel.mk.injEq, true_and]
    omega
  · simp only [withNode_ncount, Tree.leaves, List.length_append]
    omega
  · rw [withNode_getElem_of_lt h (by omega), hkept₂ k (by omega), hkept₁ k hk]
  · exact stores_withNode_internal 0 ((hstored₁.congr hkept₂).mono (by omega)) hstored₂ h

end

/-- Reading the header of `t` inside a header hands the root of a stored `t` on to the open nodes `stack`. -/
theorem readTokens_header (t : Tree) {k : Nat} {s : State} {seen : Vector Bool 257} {stack : List (Option NodeIdx)}
    {rest : List Bool} (hhdr : s.hdr = some ⟨seen, stack⟩) (h : unread s = t.header ++ rest)
    (hnodup : t.leaves.Nodup) (hseen : ∀ x ∈ t.leaves, seen[x] = false)
    (hdepth : stack.length + t.leaves.length ≤ 257) (hroom : s.ncount.val + 2 * t.leaves.length ≤ 514) :
    ∃ i s', SubtreeRead t s s' i ∧
      readTokens (k + t.tokens.length) s = (closeSubtree (markSeen seen t.leaves) stack i s').bind (readOn k) := by
  induction t generalizing k s seen stack rest with
  | leaf x =>
    have hlt : s.ncount.val < 513 := by simp only [Tree.leaves, List.length_singleton] at hroom; omega
    have hx : seen[x] = false := hseen x (List.mem_singleton_self x)
    refine ⟨_, _, subtreeRead_leaf x hlt, ?_⟩
    rw [Tree.header_leaf] at h
    exact (readTokens_encodeToken h).trans
      (congrArg (·.bind (readOn k)) (applyToken_leaf (s := advance 10 s) hhdr hx hlt))
  | node l r ihl ihr =>
    obtain ⟨hnodupl, hnodupr, hdisjoint⟩ := List.nodup_append.mp hnodup
    have hposl := l.leaves_pos
    have hposr := r.leaves_pos
    simp only [Tree.leaves, List.length_append, List.mem_append] at hdepth hroom hseen
    rw [Tree.header_node] at h
    let s₀ : State := { advance 1 s with hdr := some ⟨seen, none :: stack⟩ }
    have hstart : readTokens (k + (Tree.node l r).tokens.length) s =
        readTokens (k + r.tokens.length + l.tokens.length) s₀ := by
      have hfuel : k + (Tree.node l r).tokens.length = k + r.tokens.length + l.tokens.length + 1 := by
        simp only [Tree.tokens, List.length_cons, List.length_append]
        omega
      rw [hfuel, readTokens_encodeToken (tk := .internal) h]
      exact congrArg (·.bind (readOn (k + r.tokens.length + l.tokens.length)))
        (applyToken_internal (s := advance 1 s) hhdr (by omega))
    obtain ⟨i, s₁, hl, hreadl⟩ := ihl (k := k + r.tokens.length) (s := s₀) (rest := r.header ++ rest) rfl
      ((unread_advance 1 s).trans (by simp [h])) hnodupl (fun x hx => hseen x (.inl hx))
      (by simp only [List.length_cons]; omega) (by simp only [s₀, advance_fields]; omega)
    have hcount : s₁.ncount.val + 1 = s.ncount.val + 2 * l.leaves.length := hl.count
    obtain ⟨j, s₂, hr, hreadr⟩ := ihr (k := k)
      (s := { s₁ with hdr := some ⟨markSeen seen l.leaves, some i :: stack⟩ }) (rest := rest) rfl
      (hl.unread ((unread_advance 1 s).trans (by simp [h]))) hnodupr
      (fun x hx => (markSeen_getElem_of_notMem (fun hxl => hdisjoint x hxl x hx rfl) seen).trans (hseen x (.inr hx)))
      (by simp only [List.length_cons]; omega) (by simp only; omega)
    have hcount' : s₂.ncount.val + 1 = s₁.ncount.val + 2 * r.leaves.length := hr.count
    have hlt : s₂.ncount.val < 513 := by omega
    refine ⟨_, _, hl.node hr hlt, ?_⟩
    calc readTokens (k + (Tree.node l r).tokens.length) s
        = (closeSubtree (markSeen seen l.leaves) (none :: stack) i s₁).bind (readOn (k + r.tokens.length)) :=
          hstart.trans hreadl
      _ = (closeSubtree (markSeen (markSeen seen l.leaves) r.leaves) (some i :: stack) j s₂).bind (readOn k) := hreadr
      _ = (closeSubtree (markSeen seen (Tree.node l r).leaves) stack ⟨s₂.ncount.val, hlt⟩
            (withNode (.internal 0 i j) s₂ hlt)).bind (readOn k) := by
          rw [Tree.leaves, markSeen_append, closeSubtree, alloc_eq_withNode _ hlt, ok_bind]

/-! ## The body -/

/-- Every token has at least one bit. -/
theorem Tree.tokens_length_le_header_length (t : Tree) : t.tokens.length ≤ t.header.length := by
  induction t with
  | leaf x => simp [Tree.header_leaf, Tree.tokens, encodeToken]
  | node l r ihl ihr =>
    simp only [Tree.header_node, Tree.tokens, List.length_cons, List.length_append]
    omega

/-- No more leaves than symbols. -/
theorem Tree.leaves_length_le {t : Tree} (h : t.leaves.Nodup) : t.leaves.length ≤ 257 := by
  simpa using h.length_le_card

/-- RD_HEADER on the header of a tree with distinct symbols reads it and stores that tree (R156). -/
theorem bodyRdHeader_header {s : State} {T : Tree} {rest : List Bool} (hnodup : T.leaves.Nodup)
    (h : unread s = T.header ++ rest) :
    ∃ t, bodyRdHeader s = .ok t ∧ treeOf t = some T ∧
      t = { s with node := t.node, ncount := t.ncount, root := t.root, treeValid := true, ctValid := false,
                   hdr := none, input := ⟨s.input.data, s.input.pos + T.header.length⟩ } := by
  have hle : T.leaves.length ≤ 257 := T.leaves_length_le hnodup
  obtain ⟨i, s', hread, hrun⟩ := readTokens_header T (k := bitsLeft s - T.tokens.length) (s := startHeader s)
    (seen := Vector.replicate 257 false) (stack := []) rfl h hnodup (by simp) (by simpa using hle)
    (by simp only [startHeader_fields, Fin.val_zero]; omega)
  have hfuel : bitsLeft s - T.tokens.length + T.tokens.length = bitsLeft s := by
    have := T.tokens_length_le_header_length
    rw [bitsLeft_eq, h, List.length_append]
    omega
  let t : State := { s' with root := i, treeValid := true, hdr := none }
  have hbody : bodyRdHeader s = .ok t := by
    rw [bodyRdHeader, ← hfuel, hrun]
    rfl
  obtain ⟨-, hframe⟩ := (bodyRdHeader_frame s).of_ok hbody
  have hinput : t.input = ⟨s.input.data, s.input.pos + T.header.length⟩ := hread.input
  rw [hinput] at hframe
  exact ⟨t, hbody, Stores.treeOf (s := t) hread.stored, hframe⟩

end Sys2Proof.Machine
end

