-- ==== Sys2Proof/Proofs/BuildForest.lean ====
section
/-! PROOF. The body of BUILD always completes with a tree whose leaves are the symbols with a non-zero count (R130): the
queue holds the roots of a forest with these leaves, which every combination keeps. -/

namespace Sys2Proof.Machine

/-- The state with `nd` allocated and its index put into the queue. -/
def enqueued (nd : Node) (s : State) (h : s.ncount.val < 513) : State :=
  { withNode nd s h with pq := s.pq ++ [⟨s.ncount.val, h⟩] }

theorem enqueue_eq_enqueued {s : State} (nd : Node) (h : s.ncount.val < 513) :
    enqueue nd s = .ok (enqueued nd s h) := by
  rw [enqueue, alloc_eq_withNode nd h]
  rfl

/-- The queue `q` holds, in this order, the roots of the stored trees `ts`. -/
def QueueStores (s : State) (q : List NodeIdx) (ts : List Tree) : Prop :=
  List.Forall₂ (fun i t => Stores s.node t s.ncount.val i) q ts

/-- The queue holds the roots of trees whose leaves together are `xs`; the nodes allocated and those still in the queue
add up to two for each leaf. -/
structure Forest (xs : List Sym) (s : State) : Prop where
  stored : ∃ ts, QueueStores s s.pq ts ∧ (ts.flatMap Tree.leaves).Perm xs
  count : s.ncount.val + s.pq.length = 2 * xs.length

section
variable {s : State} {xs : List Sym}

/-- The new root is put behind the queue `q` of trees stored before it. -/
theorem QueueStores.push {ts : List Tree} {nd : Node} {t : Tree} (hq : QueueStores s s.pq ts)
    (h : s.ncount.val < 513)
    (ht : Stores (withNode nd s h).node t (withNode nd s h).ncount.val ⟨s.ncount.val, h⟩) :
    QueueStores (enqueued nd s h) (enqueued nd s h).pq (ts ++ [t]) := by
  have hkept : QueueStores (enqueued nd s h) s.pq ts :=
    hq.imp fun i t hi => (hi.withNode h).mono (Nat.le_succ s.ncount.val)
  exact List.rel_append hkept (.cons ht .nil)

/-- A leaf joins the forest. -/
theorem Forest.push_leaf (hf : Forest xs s) (x : Sym) (w : Weight) (h : s.ncount.val < 513) :
    Forest (xs ++ [x]) (enqueued (.leaf x w) s h) := by
  obtain ⟨⟨ts, hq, hleaves⟩, hcount⟩ := hf
  refine ⟨⟨ts ++ [.leaf x], hq.push h (stores_withNode_leaf x w h), ?_⟩, ?_⟩
  · simpa [Tree.leaves] using hleaves.append_right [x]
  · simp only [enqueued, withNode_ncount, List.length_append, List.length_singleton]
    omega

/-- Two roots taken out of the queue, in whatever order, become the children of one. -/
theorem Forest.push_internal {a b : NodeIdx} {q : List NodeIdx} (hf : Forest xs s) (hperm : (a :: b :: q).Perm s.pq)
    (w : Weight) (h : s.ncount.val < 513) : Forest xs (enqueued (.internal w a b) { s with pq := q } h) := by
  obtain ⟨⟨ts, hq, hleaves⟩, hcount⟩ := hf
  obtain ⟨us, hus, husts⟩ := List.perm_comp_forall₂ hperm hq
  obtain ⟨ta, us, ha, hbus, rfl⟩ := List.forall₂_cons_left_iff.mp hus
  obtain ⟨tb, us, hb, hrest, rfl⟩ := List.forall₂_cons_left_iff.mp hbus
  have hnew := QueueStores.push (s := { s with pq := q }) hrest h (stores_withNode_internal w ha hb h)
  refine ⟨⟨us ++ [.node ta tb], hnew, ?_⟩, ?_⟩
  · refine List.Perm.trans ?_ ((husts.flatMap_right Tree.leaves).trans hleaves)
    simpa [Tree.leaves] using List.perm_append_comm (l₁ := us.flatMap Tree.leaves) (l₂ := ta.leaves ++ tb.leaves)
  · have hlength := hperm.length_eq
    simp only [enqueued, withNode_ncount, List.length_append, List.length_cons, List.length_nil] at hlength ⊢
    omega

/-- A forest with leaves has a root. -/
theorem Forest.pq_ne_nil (hf : Forest xs s) (hxs : xs ≠ []) : s.pq ≠ [] := by
  obtain ⟨⟨ts, hq, hleaves⟩, -⟩ := hf
  intro hnil
  rw [QueueStores, hnil, List.forall₂_nil_left_iff] at hq
  rw [hq] at hleaves
  exact hxs hleaves.nil_eq.symm

/-! ## The two loops -/

/-- The first loop makes a leaf of each symbol with a non-zero count, in the order given. -/
theorem buildLeaves_forest {ys : List Sym} (hf : Forest ys s) (hlength : ys.length + xs.length ≤ 257) :
    ∃ t, buildLeaves xs s = .ok t ∧ Forest (ys ++ xs.filter fun x => ftRead s x ≠ 0) t := by
  induction xs generalizing s ys with
  | nil => exact ⟨s, rfl, by simpa using hf⟩
  | cons x xs ih =>
    rw [List.length_cons] at hlength
    by_cases hx : ftRead s x = 0
    · obtain ⟨t, ht, hft⟩ := ih hf (by omega)
      exact ⟨t, by rw [buildLeaves, if_pos hx, ht], by simpa [hx] using hft⟩
    · have hroom : s.ncount.val < 513 := by have := hf.count; omega
      let s₁ : State := enqueued (.leaf x ((ftRead s x).setWidth 41)) s hroom
      have hstep : buildLeaves (x :: xs) s = buildLeaves xs s₁ := by
        rw [buildLeaves, if_neg hx, enqueue_eq_enqueued _ hroom, ok_bind]
      obtain ⟨t, ht, hft⟩ := ih (hf.push_leaf x ((ftRead s x).setWidth 41) hroom)
        (by rw [List.length_append, List.length_singleton]; omega)
      have hfilter : (x :: xs).filter (fun y => ftRead s y ≠ 0) = x :: xs.filter fun y => ftRead s₁ y ≠ 0 :=
        List.filter_cons_of_pos (decide_eq_true hx)
      exact ⟨t, hstep.trans ht, by rw [hfilter, List.append_cons]; exact hft⟩

theorem eq_nil_or_eq_singleton {q : List NodeIdx} (h : q.length ≤ 1) : q = [] ∨ ∃ i, q = [i] :=
  (Nat.le_one_iff_eq_zero_or_eq_one.mp h).imp List.eq_nil_of_length_eq_zero List.length_eq_one_iff.mp

/-- With at most one root left the second loop is over. -/
theorem combineLoop_of_length_le_one (k : Nat) (h : s.pq.length ≤ 1) : combineLoop k s = .ok s := by
  cases k with
  | zero => rfl
  | succ k =>
    obtain hnil | ⟨i, hi⟩ := eq_nil_or_eq_singleton h
    · simp only [combineLoop, hnil, removeMin]
    · simp only [combineLoop, hi, removeMin, minIndex, List.erase_cons_head]

/-- With two roots or more a round of the second loop combines two of them. -/
theorem combineLoop_succ_forest (k : Nat) (hf : Forest xs s) (hxs : xs.length ≤ 257) (h : 2 ≤ s.pq.length) :
    ∃ t, combineLoop (k + 1) s = combineLoop k t ∧ Forest xs t ∧ t.pq.length + 1 = s.pq.length := by
  have hroom : s.ncount.val < 513 := by have := hf.count; omega
  obtain ⟨a, q₁, ha, hperm₁, -⟩ := removeMin_spec (node := s.node) (pq := s.pq) (by rintro hnil; simp [hnil] at h)
  have hlength₁ := hperm₁.length_eq
  rw [List.length_cons] at hlength₁
  obtain ⟨b, q₂, hb, hperm₂, -⟩ := removeMin_spec (node := s.node) (pq := q₁) (by rintro rfl; simp at hlength₁; omega)
  have hlength₂ := hperm₂.length_eq
  rw [List.length_cons] at hlength₂
  let nd : Node := .internal (nodeWeight s.node[a] + nodeWeight s.node[b]) a b
  refine ⟨enqueued nd { s with pq := q₂ } hroom, ?_, ?_, ?_⟩
  · simp only [combineLoop, ha, hb]
    rw [enqueue_eq_enqueued nd (s := { s with pq := q₂ }) hroom, ok_bind]
  · exact hf.push_internal ((hperm₂.cons a).trans hperm₁) _ hroom
  · simp only [enqueued, List.length_append, List.length_singleton]
    omega

/-- The second loop, with a round for each root, ends with at most one. -/
theorem combineLoop_forest (k : Nat) (hf : Forest xs s) (hxs : xs.length ≤ 257) (hk : s.pq.length ≤ k + 1) :
    ∃ t, combineLoop k s = .ok t ∧ Forest xs t ∧ t.pq.length ≤ 1 := by
  induction k generalizing s with
  | zero => exact ⟨s, rfl, hf, hk⟩
  | succ k ih =>
    by_cases h : s.pq.length ≤ 1
    · exact ⟨s, combineLoop_of_length_le_one _ h, hf, h⟩
    · obtain ⟨s₁, hround, hf₁, hlength⟩ := combineLoop_succ_forest k hf hxs (by omega)
      obtain ⟨t, ht, hft, hone⟩ := ih hf₁ (by omega)
      exact ⟨t, hround.trans ht, hft, hone⟩

/-- The last root is the root of a tree with all the leaves. -/
theorem Forest.takeRoot (hf : Forest xs s) (hxs : xs ≠ []) (hone : s.pq.length ≤ 1) :
    ∃ t T, takeRoot s = .ok t ∧ treeOf t = some T ∧ T.leaves.Perm xs := by
  obtain hnil | ⟨r, hr⟩ := eq_nil_or_eq_singleton hone
  · exact absurd hnil (hf.pq_ne_nil hxs)
  obtain ⟨⟨ts, hq, hleaves⟩, -⟩ := hf
  rw [QueueStores, hr] at hq
  obtain ⟨T, us, hT, hus, rfl⟩ := List.forall₂_cons_left_iff.mp hq
  rw [List.forall₂_nil_left_iff] at hus
  let t : State := { s with root := r, treeValid := true, pq := [] }
  refine ⟨t, T, ?_, Stores.treeOf (s := t) hT, ?_⟩
  · rw [Machine.takeRoot, hr]
  · simpa [hus] using hleaves

end

/-! ## The body -/

/-- The symbols with a non-zero count, in ascending order. -/
def usedSymbols (s : State) : List Sym := (List.finRange 257).filter fun x => ftRead s x ≠ 0

theorem mem_usedSymbols {s : State} {x : Sym} : x ∈ usedSymbols s ↔ ftRead s x ≠ 0 := by
  simp [usedSymbols]

theorem usedSymbols_nodup (s : State) : (usedSymbols s).Nodup := (List.nodup_finRange 257).filter _

/-- BUILD always completes, and its tree's leaves are the symbols with a non-zero count (R130). -/
theorem bodyBuild_usedSymbols (s : State) :
    ∃ t T, bodyBuild s = .ok t ∧ treeOf t = some T ∧ T.leaves.Perm (usedSymbols s) := by
  let s₀ : State := { s with ctValid := false, ncount := 0, pq := [] }
  have hempty : Forest [] s₀ := ⟨⟨[], .nil, .refl []⟩, rfl⟩
  obtain ⟨s₁, hs₁, hf₁⟩ := buildLeaves_forest (xs := List.finRange 257) hempty (by simp)
  have hused : [] ++ (List.finRange 257).filter (fun x => ftRead s₀ x ≠ 0) = usedSymbols s := rfl
  rw [hused] at hf₁
  have hle : (usedSymbols s).length ≤ 257 := by simpa using (usedSymbols_nodup s).length_le_card
  obtain ⟨s₂, hs₂, hf₂, hone⟩ := combineLoop_forest s₁.pq.length hf₁ hle (Nat.le_succ _)
  have hne : usedSymbols s ≠ [] := 
    List.ne_nil_of_mem (mem_usedSymbols.mpr (by simp : ftRead s Config.eos ≠ 0))
  obtain ⟨t, T, ht, hT, hleaves⟩ := hf₂.takeRoot hne hone
  refine ⟨t, T, ?_, hT, hleaves⟩
  rw [bodyBuild, hs₁, ok_bind, hs₂, ok_bind, ht]

end Sys2Proof.Machine
end

