-- ==== Sys2Proof/Proofs/CountedBytes.lean ====
section
/-! PROOF. The body of COUNT on whole bytes whose counts do not overflow (R122, R123). -/

namespace Sys2Proof.Machine

/-! ## Reading bytes -/

/-- `InRead(8)` of a byte's bits reads that byte (R63, R80). -/
theorem inRead_byte {s : State} {x : Byte} {b : List Byte} {rest : List Bool}
    (h : unread s = bytesToBits (x :: b) ++ rest) : inRead 8 s = some (x.toNat, advance 8 s) := by
  rw [bytesToBits_cons, List.append_assoc] at h
  exact inRead_bitVec h

theorem unread_advance_byte {s : State} {x : Byte} {b : List Byte} {rest : List Bool}
    (h : unread s = bytesToBits (x :: b) ++ rest) : unread (advance 8 s) = bytesToBits b ++ rest := by
  rw [unread_advance, h, bytesToBits_cons, List.append_assoc, List.drop_left' (bitsMSB_length 8 x.toNat)]

theorem byte_ofNat_toNat (x : Byte) : BitVec.ofNat 8 x.toNat = x := by
  rw [BitVec.ofNat_toNat, BitVec.setWidth_eq]

/-! ## COUNT -/

theorem countsOf_getElem (a : List Byte) (x : Byte) :
    (countsOf a)[x.toNat]'x.isLt = BitVec.ofNat 32 (a.count x) := by
  simp [countsOf]

/-- One more byte in the counts (R123). -/
theorem countsOf_concat (a : List Byte) (x : Byte) :
    countsOf (a ++ [x]) = (countsOf a).set x.toNat (BitVec.ofNat 32 (a.count x) + 1) x.isLt := by
  ext1 i hi
  rw [Vector.getElem_set]
  split
  next h =>
    subst h
    rw [countsOf_getElem, List.count_append, List.count_singleton_self, BitVec.ofNat_add]
    rfl
  next h =>
    have hne : x ≠ BitVec.ofNat 8 i := fun e => h (by rw [e, BitVec.toNat_ofNat, Nat.mod_eq_of_lt hi])
    simp only [countsOf, Vector.getElem_ofFn, List.count_append, List.count_singleton, beq_iff_eq, if_neg hne,
      Nat.add_zero]

/-- The state with the counts of the bytes `a` in the frequency table. -/
def withCounts (a : List Byte) (s : State) : State := { s with ft := countsOf a }

theorem withCounts_ft (a : List Byte) (s : State) : (withCounts a s).ft = countsOf a := by
  rw [withCounts]

theorem withCounts_unchanged (a : List Byte) (s : State) :
    (withCounts a s).input = s.input ∧ (withCounts a s).output = s.output ∧ (withCounts a s).err = s.err := by
  rw [withCounts]
  exact ⟨rfl, rfl, rfl⟩

theorem unread_withCounts (a : List Byte) (s : State) : unread (withCounts a s) = unread s := by
  simp only [unread, withCounts]

theorem advance_withCounts (n : Nat) (a : List Byte) (s : State) :
    advance n (withCounts a s) = withCounts a (advance n s) := by
  simp only [advance, withCounts]

/-- A count below `2^32` is the value of the word that stores it. -/
theorem eq_toNat_of_ofNat_eq {n : Nat} {w : Word} (hn : n < 2 ^ 32) (h : BitVec.ofNat 32 n = w) : n = w.toNat := by
  rw [← h, BitVec.toNat_ofNat, Nat.mod_eq_of_lt hn]

section
variable {s : State} {a b : List Byte} {x : Byte} {rest : List Bool}

theorem ftRead_byteSym (hft : s.ft = countsOf a) : ftRead s (byteSym x) = BitVec.ofNat 32 (a.count x) := by
  have hx : (byteSym x).val < 256 := x.isLt
  simp only [ftRead, dif_pos hx, hft]
  exact countsOf_getElem a x

theorem ftWrite_byteSym (hft : s.ft = countsOf a) :
    ftWrite s (byteSym x) (ftRead s (byteSym x) + 1) = withCounts (a ++ [x]) s := by
  have hx : (byteSym x).val < 256 := x.isLt
  rw [ftRead_byteSym hft, withCounts, countsOf_concat, ftWrite, dif_pos hx, hft]
  rfl

/-- The scanning loop adds the bytes it reads to the counts, while none of them overflows (R122, R123). -/
theorem countLoop_bytes (hft : s.ft = countsOf a) (h : unread s = bytesToBits b ++ rest)
    (hsmall : ∀ x, (a ++ b).count x < 2 ^ 32) :
    countLoop b.length s = .ok (withCounts (a ++ b) (advance (8 * b.length) s)) := by
  induction b generalizing s a with
  | nil =>
    rw [List.append_nil, withCounts, ← hft]
    rfl
  | cons x b ih =>
    have hbelow : ftRead (advance 8 s) (byteSym x) ≠ maxCount := by
      have hcount := hsmall x
      rw [List.count_append, List.count_cons_self] at hcount
      rw [ftRead_byteSym (s := advance 8 s) hft]
      intro e
      have hmax : a.count x = 2 ^ 32 - 1 := eq_toNat_of_ofNat_eq (by omega) e
      omega
    have hstep : countLoop (b.length + 1) s = countLoop b.length (withCounts (a ++ [x]) (advance 8 s)) := by
      simp only [countLoop, inRead_byte h, byte_ofNat_toNat, if_neg hbelow, ftWrite_byteSym (s := advance 8 s) hft]
    have hunread : unread (withCounts (a ++ [x]) (advance 8 s)) = bytesToBits b ++ rest :=
      (unread_withCounts _ _).trans (unread_advance_byte h)
    rw [List.length_cons, hstep, ih (withCounts_ft _ _) hunread (List.append_cons a x b ▸ hsmall), advance_withCounts]
    simp [withCounts, advance, Nat.mul_add, Nat.add_assoc, Nat.add_comm]

theorem bitsLeft_div_eight (h : unread s = bytesToBits b ++ rest) (hrest : rest.length < 8) :
    bitsLeft s / 8 = b.length := by
  rw [bitsLeft_eq, h, List.length_append, bytesToBits_length]
  omega

theorem countsOf_nil : countsOf [] = Vector.replicate 256 0 := by
  ext1 i hi
  simp [countsOf]

/-- COUNT on fewer than `2^32` bytes, or on more without an overflow, completes with their counts (R122). -/
theorem bodyCount_bytes (h : unread s = bytesToBits b ++ rest) (hrest : rest.length < 8)
    (hsmall : ∀ x, b.count x < 2 ^ 32) :
    bodyCount s = .ok (withCounts b (inReset s)) := by
  rw [bodyCount, bitsLeft_div_eight h hrest,
    countLoop_bytes (s := ftClear s) (a := []) countsOf_nil.symm h (by simpa using hsmall)]
  rfl

/-- A byte that occurs, in fewer than `2^32` places, has a non-zero count (R123). -/
theorem ftRead_byteSym_ne_zero (hft : s.ft = countsOf b) (hsmall : b.count x < 2 ^ 32) (hx : x ∈ b) :
    ftRead s (byteSym x) ≠ 0 := by
  have hpos : 0 < b.count x := List.count_pos_iff.mpr hx
  rw [ftRead_byteSym hft]
  intro e
  have hzero : b.count x = 0 := eq_toNat_of_ofNat_eq hsmall e
  omega

end

end Sys2Proof.Machine
end

