-- ==== Sys2Proof/Proofs/EncodedBytes.lean ====
section
/-! PROOF. The body of ENC_PAYLOAD with a code for every byte, and the codes a tree's code table gives (R140, R171). -/

namespace Sys2Proof.Machine

section
variable {s : State} {b : List Byte} {rest : List Bool}

theorem writeCode_present {x : Sym} (hx : (s.ct[x]).present = true) (hopen : s.output.closed = false) :
    writeCode x s = .ok (appendOutput (s.ct[x]).code s) := by
  rw [writeCode, if_pos hx]
  exact outBits_open _ hopen

/-- The codes of bytes in the code table, one after the other (R171). -/
def tableCodes (ct : Vector CtEntry 257) (b : List Byte) : List Bool := b.flatMap fun x => (ct[byteSym x]).code

/-- The emitting loop appends the codes of the bytes it reads (R171). -/
theorem encLoop_bytes (h : unread s = bytesToBits b ++ rest) (hpresent : ∀ x ∈ b, (s.ct[byteSym x]).present = true)
    (hopen : s.output.closed = false) :
    encLoop b.length s = .ok (appendOutput (tableCodes s.ct b) (advance (8 * b.length) s)) := by
  induction b generalizing s with
  | nil =>
    simp only [List.length_nil, encLoop, tableCodes, List.flatMap_nil, appendOutput, advance, List.append_nil,
      Nat.mul_zero, Nat.add_zero, output_eq_of_open hopen]
  | cons x b ih =>
    obtain ⟨hx, hb⟩ := List.forall_mem_cons.mp hpresent
    let t : State := appendOutput (s.ct[byteSym x]).code (advance 8 s)
    have hstep : encLoop (b.length + 1) s = encLoop b.length t := by
      simp only [encLoop, inRead_byte h, byte_ofNat_toNat]
      exact congrArg (·.bind (encLoop b.length)) (writeCode_present (s := advance 8 s) hx hopen)
    rw [List.length_cons, hstep, ih (s := t) (unread_advance_byte h) hb rfl]
    simp [t, appendOutput, advance, tableCodes, Nat.mul_add, Nat.add_assoc, Nat.add_comm]

/-- ENC_PAYLOAD with a code for every byte of the input and for the marker (R171). -/
theorem bodyEncPayload_present (hdata : s.input.data = bytesToBits b ++ rest) (hrest : rest.length < 8)
    (hpresent : ∀ x ∈ b, (s.ct[byteSym x]).present = true) (heos : (s.ct[Config.eos]).present = true)
    (hopen : s.output.closed = false) :
    bodyEncPayload s = .ok (appendOutput (tableCodes s.ct b ++ (s.ct[Config.eos]).code)
      { s with input := ⟨s.input.data, 8 * b.length⟩ }) := by
  have hpasses : s.input.data.length / 8 = b.length := bitsLeft_div_eight (s := inReset s) hdata hrest
  let t : State := appendOutput (tableCodes s.ct b) (advance (8 * b.length) (inReset s))
  have hloop : encLoop b.length (inReset s) = .ok t := encLoop_bytes (s := inReset s) hdata hpresent hopen
  rw [bodyEncPayload, hpasses, hloop, ok_bind, writeCode_present (s := t) heos rfl]
  simp only [t, appendOutput, advance, inReset, Nat.zero_add, List.append_assoc]

end

/-! ## The codes of a tree -/

section
variable {T : Tree} {x : Sym}

theorem entryOf_of_path {p : List Bool} (hp : T.path x = some p) : entryOf T x = ⟨true, p⟩ := by
  rw [entryOf, hp]

/-- The table entry of a leaf is present and holds its path (R27, R140). -/
theorem entryOf_of_mem_leaves (hx : x ∈ T.leaves) :
    (entryOf T x).present = true ∧ T.path x = some (entryOf T x).code := by
  obtain ⟨p, hp⟩ := Option.isSome_iff_exists.mp ((T.path_isSome_iff x).mpr hx)
  rw [entryOf_of_path hp]
  exact ⟨rfl, hp⟩

/-- The codes of bytes that are leaves, read off the tree's code table. -/
theorem codesOf_eq_tableCodes {b : List Byte} (hb : ∀ x ∈ b, byteSym x ∈ T.leaves) :
    codesOf T b = some (tableCodes (Vector.ofFn (entryOf T)) b) := by
  induction b with
  | nil => rfl
  | cons x b ih =>
    obtain ⟨hx, hb⟩ := List.forall_mem_cons.mp hb
    refine codesOf_cons.mpr ⟨_, _, (entryOf_of_mem_leaves hx).2, ih hb, ?_⟩
    simp [tableCodes]

end

end Sys2Proof.Machine
end

