-- ==== Sys2Proof/Proofs/CompressBody.lean ====
section
/-! PROOF. The body of COMPRESS on the bits of bytes: it completes, and its output is the magic, the header of a tree
with distinct symbols, the codes of the bytes, the marker's code, and padding (R174, R175). -/

namespace Sys2Proof.Machine

/-- BUILD touches neither the channels nor `ERR` when it completes (R130). -/
theorem bodyBuild_unchanged {s t : State} (h : bodyBuild s = .ok t) :
    t.input = s.input ∧ t.output = s.output ∧ t.err = s.err := by
  have hframe := (bodyBuild_frame s).of_ok h
  rw [hframe]
  exact ⟨rfl, rfl, rfl⟩

/-- What is written of a tree and bytes between the start of the blob and its padding (R94, R175). -/
def blobBits (m : Word) (T : Tree) (q e : List Bool) : List Bool := bitsMSB 32 m.toNat ++ T.header ++ q ++ e

/-- The steps of COMPRESS from WR_MAGIC on (R174). -/
def writeBlob (m : Word) (s : State) : Result State :=
  (bodyWrMagic m s).bind fun s => (bodyWrHeader s).bind fun s => (bodyEncPayload s).bind bodyCloseOut

/-- With the tree `T` in the store and its code table made the blob is written, padded and the output closed. -/
theorem writeBlob_of_treeOf (m : Word) {s : State} {b : List Byte} {T : Tree} (hT : treeOf s = some T)
    (hct : s.ct = Vector.ofFn (entryOf T)) (hdata : s.input.data = bytesToBits b)
    (hb : ∀ x ∈ b, byteSym x ∈ T.leaves) (heos : Config.eos ∈ T.leaves) (hopen : s.output.closed = false) :
    ∃ q e, codesOf T b = some q ∧ T.path Config.eos = some e ∧
      writeBlob m s =
        .ok (padAndClose (appendOutput (blobBits m T q e) { s with input := ⟨s.input.data, 8 * b.length⟩ })) := by
  have hentry : ∀ x : Sym, s.ct[x] = entryOf T x := fun x => by simp [hct]
  let s₁ : State := appendOutput (bitsMSB 32 m.toNat) s
  let s₂ : State := appendOutput T.header s₁
  have hmagic : bodyWrMagic m s = .ok s₁ := outBits_open _ hopen
  have hheader : bodyWrHeader s₁ = .ok s₂ := bodyWrHeader_of_treeOf hT rfl
  have hpresent : ∀ x ∈ T.leaves, (s.ct[x]).present = true := fun x hx => by
    rw [hentry]
    exact (entryOf_of_mem_leaves hx).1
  have hpayload := bodyEncPayload_present (s := s₂) (b := b) (rest := []) (by rw [List.append_nil]; exact hdata)
    (by simp) (fun x hx => hpresent _ (hb x hx)) (hpresent _ heos) rfl
  refine ⟨_, _, codesOf_eq_tableCodes hb, (entryOf_of_mem_leaves heos).2, ?_⟩
  rw [writeBlob, hmagic, ok_bind, hheader, ok_bind, hpayload, ok_bind, bodyCloseOut_open rfl, ← hct, ← hentry]
  simp [s₂, s₁, appendOutput, blobBits]

/-- COMPRESS on fewer than `2^32` bytes completes with the blob of a tree with distinct symbols (R174, R175). -/
theorem bodyCompress_bytes (m : Word) {s : State} {b : List Byte} (hin : s.input = ⟨bytesToBits b, 0⟩)
    (hlength : b.length < 2 ^ 32) (hopen : s.output.closed = false) :
    ∃ t T q e, bodyCompress m s = .ok t ∧ T.leaves.Nodup ∧ codesOf T b = some q ∧ T.path Config.eos = some e ∧
      t.err = s.err ∧ t.oclosed = true ∧ t.output = (padAndClose (appendOutput (blobBits m T q e) s)).output := by
  have hsmall : ∀ x, b.count x < 2 ^ 32 := fun x => List.count_le_length.trans_lt hlength
  have hunread : unread s = bytesToBits b ++ [] := by simp [unread, hin]
  let s₁ : State := withCounts b (inReset s)
  have hcount : bodyCount s = .ok s₁ := bodyCount_bytes hunread (by simp) hsmall
  obtain ⟨hinput₁, houtput₁, herr₁⟩ := withCounts_unchanged b (inReset s)
  obtain ⟨s₂, T, hbuild, hT, hleaves⟩ := bodyBuild_usedSymbols s₁
  obtain ⟨hinput₂, houtput₂, herr₂⟩ := bodyBuild_unchanged hbuild
  have hdata : s₂.input.data = bytesToBits b := by rw [hinput₂, hinput₁, inReset, hin]
  have houtput : s₂.output = s.output := houtput₂.trans houtput₁
  have hnodup : T.leaves.Nodup := hleaves.nodup_iff.mpr (usedSymbols_nodup s₁)
  have hmem : ∀ x, x ∈ T.leaves ↔ ftRead s₁ x ≠ 0 := fun x => hleaves.mem_iff.trans mem_usedSymbols
  have hgencodes : bodyCompress m s = writeBlob m (withCodes T s₂) := by
    rw [bodyCompress, hcount, ok_bind, hbuild, ok_bind, bodyGencodes_of_treeOf hT, ok_bind]
    rfl
  obtain ⟨q, e, hq, he, hwrite⟩ := writeBlob_of_treeOf m (s := withCodes T s₂) hT (walk_absent hnodup) hdata
    (fun x hx => (hmem _).mpr (ftRead_byteSym_ne_zero (withCounts_ft b (inReset s)) (hsmall x) hx))
    ((hmem _).mpr (by simp)) (houtput ▸ hopen)
  refine ⟨_, T, q, e, hgencodes.trans hwrite, hnodup, hq, he, herr₂.trans herr₁, rfl, ?_⟩
  simp only [padAndClose, appendOutput, withCodes, houtput]

end Sys2Proof.Machine
end

