-- ==== Sys2Proof/Proofs/RoundTrip.lean ====
section
/-! PROOF. DECOMPRESS turns what COMPRESS writes back into the same bytes (R196). -/

namespace Sys2Proof.Machine

/-! ## The body of DECOMPRESS on a blob -/

/-- A tree with the marker and a byte among its leaves is no single leaf. -/
theorem exists_internal_root {s : State} {T : Tree} {b : List Byte} {q e : List Bool} (hT : treeOf s = some T)
    (hq : codesOf T b = some q) (he : T.path Config.eos = some e) (hb : b ≠ []) :
    ∃ w l r, s.node[s.root] = .internal w l r := by
  obtain ⟨x, b, rfl⟩ := List.exists_cons_of_ne_nil hb
  obtain ⟨p, -, hp, -⟩ := codesOf_cons.mp hq
  have hx : byteSym x ∈ T.leaves := (T.path_isSome_iff _).mp (by rw [hp, Option.isSome_some])
  have heos : Config.eos ∈ T.leaves := (T.path_isSome_iff _).mp (by rw [he, Option.isSome_some])
  cases T with
  | leaf y =>
    rw [Tree.leaves, List.mem_singleton] at hx heos
    exact absurd (hx.trans heos.symm) (byteSym_ne_eos x)
  | node l r =>
    obtain ⟨-, w, i, j, hn, -⟩ := treeAt_eq_node hT
    exact ⟨w, i, j, hn⟩

/-- The body of DEC_PAYLOAD on the codes of bytes and the marker's code emits the bytes and stops at the marker's leaf
(R192, R197). -/
theorem bodyDecPayload_codes {s : State} {T : Tree} {b : List Byte} {q e rest : List Bool} (hT : treeOf s = some T)
    (hq : codesOf T b = some q) (he : T.path Config.eos = some e) (h : unread s = q ++ e ++ rest)
    (hopen : s.output.closed = false) :
    ∃ c, nodeAlong s.node e s.root = some c ∧
      bodyDecPayload s = .ok (walkDone e c (toRoot (afterCodes b q.length s))) := by
  obtain ⟨c, w, hc, hn⟩ := nodeAlong_path hT he
  rw [List.append_assoc] at h
  have hcodes : unread (toRoot (afterCodes b q.length s)) = e ++ rest := by
    rw [unread_toRoot]
    exact unread_afterCodes b h
  refine ⟨c, hc, ?_⟩
  rw [bodyDecPayload_eq_decRest, decRest_codes hT (exists_internal_root hT hq he) hq h hopen]
  exact decRest_eos_code hc hn hcodes

/-- The body of DECOMPRESS on a blob, whatever follows it, appends the bytes, pads and closes the output (R195). -/
theorem bodyDecompress_blob (m : Word) {s : State} {T : Tree} {b : List Byte} {q e rest : List Bool}
    (hnodup : T.leaves.Nodup) (hq : codesOf T b = some q) (he : T.path Config.eos = some e)
    (h : unread s = blobBits m T q e ++ rest) (hopen : s.output.closed = false) :
    ∃ t, bodyDecompress m s = .ok t ∧ t.err = s.err ∧ t.oclosed = true ∧
      t.output = (padAndClose (appendOutput (bytesToBits b) s)).output := by
  simp only [blobBits, List.append_assoc] at h
  have hmagic : bodyRdMagic m s = .ok (advance 32 s) := bodyRdMagic_match h
  have hheader : unread (advance 32 s) = T.header ++ (q ++ (e ++ rest)) := by
    rw [unread_advance, h, List.drop_left' (bitsMSB_length 32 m.toNat)]
  obtain ⟨s₁, hread, hT, hframe⟩ := bodyRdHeader_header hnodup hheader
  have herr : s₁.err = s.err := by rw [hframe, advance]
  have houtput : s₁.output = s.output := by rw [hframe, advance]
  have hpayload : unread s₁ = q ++ e ++ rest := by
    have hinput : s₁.input = (advance T.header.length (advance 32 s)).input := by rw [hframe]; rfl
    rw [unread_congr hinput, unread_advance, hheader, List.drop_left, List.append_assoc]
  obtain ⟨c, -, hdec⟩ := bodyDecPayload_codes hT hq he hpayload (houtput ▸ hopen)
  have hbody : bodyDecompress m s = .ok (padAndClose (walkDone e c (toRoot (afterCodes b q.length s₁)))) := by
    rw [bodyDecompress, hmagic, ok_bind, hread, ok_bind, hdec, ok_bind, bodyCloseOut_open rfl]
  refine ⟨_, hbody, ?_, rfl, ?_⟩
  · simp only [padAndClose, walkDone, afterCodes, toRoot, herr]
  · simp only [padAndClose, walkDone, afterCodes, appendOutput, toRoot, houtput]

/-! ## The calls -/

/-- A command on a ready block whose checks pass and whose body ends with `ERR` as it was and the output closed is a
call that succeeds (R271). -/
theorem exists_callSucceeded {i : Instr} (hc : i.isCommand = true) (hi : i ≠ .sreset) {s t : State} (hs : Ready s)
    (hn : failedNeed (needsOf i) s = none) (hbody : bodyOf i (accept s) = .ok t) (herr : t.err = s.err)
    (hclosed : t.oclosed = true) : ∃ t', exec i s = .next t' ∧ CallSucceeded t' ∧ t'.output = t.output := by
  refine ⟨complete t, by rw [exec_ready hc hi hs hn, hbody, finish], ⟨rfl, ?_, hclosed⟩, rfl⟩
  obtain ⟨-, hcode⟩ := hs
  simp [State.errf, herr, hcode]

/-- The bits of a closed, padded output are those of the bytes its reader sees (R38, R70). -/
theorem bytesToBits_wholeBytes {q : List Bool} (h : q.length % 8 = 0) : bytesToBits (wholeBytes q) = q := by
  obtain ⟨bs, tail, rfl, htail⟩ := exists_bytes q
  have hnil : tail = [] := by
    rw [List.length_append, bytesToBits_length] at h
    exact List.eq_nil_of_length_eq_zero (by omega)
  rw [wholeBytes_bytesToBits bs tail htail, hnil, List.append_nil]

/-- COMPRESS on the bits of bytes and an empty open output succeeds and writes a blob with its padding (R175). -/
theorem exec_compress_bytes {s : State} {b : List Byte} (hs : Ready s) (hoclosed : s.oclosed = false)
    (hin : s.input = ⟨bytesToBits b, 0⟩) (hout : s.output = ⟨[], false⟩) (hlength : b.length < 2 ^ 32) :
    ∃ t T q e, exec .compress s = .next t ∧ CallSucceeded t ∧ T.leaves.Nodup ∧ codesOf T b = some q ∧
      T.path Config.eos = some e ∧
      t.output = ⟨blobBits magic T q e ++ List.replicate (padCount (blobBits magic T q e).length) false, true⟩ := by
  have hopen : (accept s).output.closed = false := by rw [accept, hout]
  obtain ⟨t, T, q, e, hbody, hnodup, hq, he, herr, hclosed, houtput⟩ :=
    bodyCompress_bytes magic (s := accept s) hin hlength hopen
  obtain ⟨t', hexec, hsucceeded, hsame⟩ := exists_callSucceeded (i := .compress) rfl (by decide) hs
    (failedNeed_needsOut hoclosed) hbody herr hclosed
  refine ⟨t', T, q, e, hexec, hsucceeded, hnodup, hq, he, ?_⟩
  rw [hsame, houtput]
  simp [padAndClose, appendOutput, accept, hout]

/-- DECOMPRESS of a blob, whatever follows it, into an empty open output succeeds and writes the bytes (R195). -/
theorem exec_decompress_blob {s : State} {T : Tree} {b : List Byte} {q e rest : List Bool} (hs : Ready s)
    (hoclosed : s.oclosed = false) (hout : s.output = ⟨[], false⟩) (hnodup : T.leaves.Nodup)
    (hq : codesOf T b = some q) (he : T.path Config.eos = some e) (h : unread s = blobBits magic T q e ++ rest) :
    ∃ t, exec .decompress s = .next t ∧ CallSucceeded t ∧ t.output = ⟨bytesToBits b, true⟩ := by
  have hopen : (accept s).output.closed = false := by rw [accept, hout]
  obtain ⟨t, hbody, herr, hclosed, houtput⟩ := bodyDecompress_blob magic (s := accept s) hnodup hq he h hopen
  obtain ⟨t', hexec, hsucceeded, hsame⟩ := exists_callSucceeded (i := .decompress) rfl (by decide) hs
    (failedNeed_needsOut hoclosed) hbody herr hclosed
  refine ⟨t', hexec, hsucceeded, ?_⟩
  rw [hsame, houtput]
  simp [padAndClose, appendOutput, accept, hout, padCount]

/-- Settles O49: COMPRESS writes the blob of some tree with distinct symbols, and DECOMPRESS of that blob gives the
bytes whose codes it holds. -/
theorem decompressInvertsCompress : Obligations.DecompressInvertsCompress := by
  intro s u b hlength hs hoclosed hin hout hu huoclosed huout
  obtain ⟨t, T, q, e, hcompress, hsucceeded, hnodup, hq, he, houtput⟩ :=
    exec_compress_bytes hs hoclosed hin hout hlength
  refine ⟨t, hcompress, hsucceeded, by rw [houtput], fun huin => ?_⟩
  have hpadded : t.output.bits.length % 8 = 0 := by
    rw [houtput, List.length_append, List.length_replicate]
    exact (padCount_spec _).2
  have hblob : unread u =
      blobBits magic T q e ++ List.replicate (padCount (blobBits magic T q e).length) false := by
    rw [unread, huin, List.drop_zero, destination, bytesToBits_wholeBytes hpadded, houtput]
  obtain ⟨v, hdecompress, hsucceeded', houtput'⟩ := exec_decompress_blob hu huoclosed huout hnodup hq he hblob
  refine ⟨v, hdecompress, hsucceeded', by rw [houtput'], ?_⟩
  have hbytes : wholeBytes (bytesToBits b ++ []) = b := wholeBytes_bytesToBits b [] (by decide)
  rw [destination, houtput', ← List.append_nil (bytesToBits b)]
  exact hbytes

end Sys2Proof.Machine
end

