-- ==== Sys2Proof/Proofs/CommandEnd.lean ====
section
/-! PROOF. How a command on a ready block ends (R210 to R214, R232): no body writes `ERR`, so that of `DONE` and `ERRF`
completion leaves the one and fault entry the other. -/

namespace Sys2Proof.Machine

/-! ## No body writes `ERR` -/

/-- A body, or a part of one, started in `s` that ends without a fault leaves `ERR` as it was. -/
def Result.KeepsErr (s : State) (r : Result State) : Prop := r.Meets (fun t => t.err = s.err) fun _ _ => True

/-- A frame that gives `ERR` its old value, whatever it says of faults. -/
theorem Result.Meets.keepsErr {s : State} {r : Result State} {p : State → Prop} {q : BlockFault → State → Prop}
    (h : r.Meets p q) (hp : ∀ t, p t → t.err = s.err) : r.KeepsErr s :=
  h.imp hp fun _ _ _ => trivial

/-- The rule of sequencing. -/
theorem Result.KeepsErr.bind {s : State} {r : Result State} {f : State → Result State} (h : r.KeepsErr s)
    (hf : ∀ t, (f t).KeepsErr t) : (r.bind f).KeepsErr s :=
  Result.Meets.bind h (fun _ _ _ => trivial) fun t ht =>
    (hf t).keepsErr fun _ hu => hu.trans ht

theorem streamWrites.err {s t : State} (h : streamWrites s t) : t.err = s.err := by
  obtain ⟨_, _, rfl, -⟩ := h
  rfl

theorem walkWrites.err {s t : State} (h : walkWrites s t) : t.err = s.err := by
  obtain ⟨_, hstream, ht⟩ := h
  rw [ht]
  exact hstream.err

section
variable (m : Word) (s : State)

theorem bodyCount_keepsErr : (bodyCount s).KeepsErr s :=
  (bodyCount_frame s).keepsErr fun _ ht => by rw [ht]

theorem bodyBuild_keepsErr : (bodyBuild s).KeepsErr s :=
  (bodyBuild_frame s).keepsErr fun _ ht => by rw [ht]

theorem bodyGencodes_keepsErr : (bodyGencodes s).KeepsErr s :=
  (bodyGencodes_frame s).keepsErr fun _ ht => by rw [ht]

theorem bodyWrMagic_keepsErr : (bodyWrMagic m s).KeepsErr s :=
  (outBits_stream _ s).keepsErr fun _ => streamWrites.err

theorem bodyWrHeader_keepsErr : (bodyWrHeader s).KeepsErr s :=
  (bodyWrHeader_frame s).keepsErr fun _ ⟨_, ht, _⟩ => by rw [ht]

theorem bodyEncPayload_keepsErr : (bodyEncPayload s).KeepsErr s :=
  (bodyEncPayload_frame s).keepsErr fun _ => streamWrites.err

theorem bodyCloseOut_keepsErr : (bodyCloseOut s).KeepsErr s :=
  (bodyCloseOut_frame s).keepsErr fun _ ⟨_, ht⟩ => by rw [ht]

theorem bodyRdMagic_keepsErr : (bodyRdMagic m s).KeepsErr s :=
  (bodyRdMagic_frame m s).keepsErr fun _ ht => by rw [ht, advance]

theorem bodyRdHeader_keepsErr : (bodyRdHeader s).KeepsErr s :=
  (bodyRdHeader_frame s).keepsErr fun _ ⟨_, ht⟩ => by rw [ht]

theorem bodyDecPayload_keepsErr : (bodyDecPayload s).KeepsErr s :=
  (bodyDecPayload_frame s).keepsErr fun _ => walkWrites.err

/-- COMPRESS is seven bodies in sequence (R174). -/
theorem bodyCompress_keepsErr : (bodyCompress m s).KeepsErr s :=
  (bodyCount_keepsErr s).bind fun s => (bodyBuild_keepsErr s).bind fun s => (bodyGencodes_keepsErr s).bind fun s =>
    (bodyWrMagic_keepsErr m s).bind fun s => (bodyWrHeader_keepsErr s).bind fun s =>
      (bodyEncPayload_keepsErr s).bind bodyCloseOut_keepsErr

/-- DECOMPRESS is four bodies in sequence (R195). -/
theorem bodyDecompress_keepsErr : (bodyDecompress m s).KeepsErr s :=
  (bodyRdMagic_keepsErr m s).bind fun s => (bodyRdHeader_keepsErr s).bind fun s =>
    (bodyDecPayload_keepsErr s).bind bodyCloseOut_keepsErr

theorem bodyOf_keepsErr (i : Instr) : (bodyOf i s).KeepsErr s := by
  cases i with
  | count => exact bodyCount_keepsErr s
  | build => exact bodyBuild_keepsErr s
  | gencodes => exact bodyGencodes_keepsErr s
  | wrMagic => exact bodyWrMagic_keepsErr magic s
  | wrHeader => exact bodyWrHeader_keepsErr s
  | encPayload => exact bodyEncPayload_keepsErr s
  | closeOut => exact bodyCloseOut_keepsErr s
  | rdMagic => exact bodyRdMagic_keepsErr magic s
  | rdHeader => exact bodyRdHeader_keepsErr s
  | decPayload => exact bodyDecPayload_keepsErr s
  | compress => exact bodyCompress_keepsErr magic s
  | decompress => exact bodyDecompress_keepsErr magic s
  | nop | sreset | ftClr | hdrInternal | hdrLeaf _ => rfl

end

/-! ## The end of a command -/

/-- A command but SRESET that answers on a ready block has completed with `ERR` as it was, or has taken a fault
(R213, R214, R232). -/
theorem exec_ready_eq_next {i : Instr} (hc : i.isCommand = true) (hi : i ≠ .sreset) {s t : State} (hs : Ready s)
    (h : exec i s = .next t) : (∃ u, u.err = s.err ∧ t = complete u) ∨ ∃ f u, t = enterFault f u := by
  cases hn : failedNeed (needsOf i) s with
  | some f =>
    rw [exec_command hc hi, runCommand_failed hs hn, Host.Outcome.next.injEq] at h
    exact .inr ⟨f, accept s, h.symm⟩
  | none =>
    rw [exec_ready hc hi hs hn, finish_eq_next] at h
    obtain ⟨u, hok, rfl⟩ | ⟨f, u, -, rfl⟩ := h
    · exact .inl ⟨u, (bodyOf_keepsErr (accept s) i).of_ok hok, rfl⟩
    · exact .inr ⟨f, u, rfl⟩

/-- Completion leaves `ERRF` 0 where `ERR.CODE` was 0 (R32, R214). -/
theorem complete_errf {u : State} (h : u.err.code = 0) : (complete u).errf = false := by
  simp [State.errf, h]

/-- A command but SRESET that answers on a ready block ends with `BUSY` 0 and exactly one of `DONE` and `ERRF`: completion
sets the first, fault entry the second (R214, R232). -/
theorem exec_ready_done_iff {i : Instr} (hc : i.isCommand = true) (hi : i ≠ .sreset) {s t : State} (hs : Ready s)
    (h : exec i s = .next t) : t.busy = false ∧ (t.done = true ↔ t.errf = false) := by
  have hcode : s.err.code = 0 := hs.2
  obtain ⟨u, herr, rfl⟩ | ⟨f, u, rfl⟩ := exec_ready_eq_next hc hi hs h
  · rw [← herr] at hcode
    simp [complete_errf hcode]
  · simp

/-- SRESET on a ready block leaves the reset state (R211). -/
theorem exec_sreset_ready {s : State} (hs : Ready s) : exec .sreset s = .next (blockReset s) := by
  obtain ⟨⟨hbusy, -, -⟩, -⟩ := hs
  simp [exec_sreset, hbusy]

theorem blockReset_errf (s : State) : (blockReset s).errf = false := rfl

/-- Settles O14: every command but SRESET completes or takes a fault; SRESET leaves the reset state, whose flags are 0. -/
theorem commandEndsDoneOrFaulted : Obligations.CommandEndsDoneOrFaulted := by
  intro s t i hs hc h
  by_cases hi : i = .sreset
  · subst hi
    rw [exec_sreset_ready hs, Host.Outcome.next.injEq] at h
    subst h
    exact ⟨rfl, fun hne => absurd rfl hne, fun _ => ⟨rfl, blockReset_errf s⟩⟩
  · obtain ⟨hbusy, hdone⟩ := exec_ready_done_iff hc hi hs h
    exact ⟨hbusy, fun _ => hdone, fun e => absurd e hi⟩

/-! ## NOP -/

/-- Settles O15: NOP's body is empty, so the common steps are all it does. -/
theorem nopOnlySetsDone : Obligations.NopOnlySetsDone := by
  refine ⟨fun s hs => ?_, fun s hfault => ?_⟩
  · exact exec_ready_ok rfl (by decide) hs (failedNeed_needsNothing s) hs rfl
  · exact exec_ignored rfl (by decide) (ignored_of_fault hfault)

end Sys2Proof.Machine
end

