-- ==== Sys2Proof/Proofs/IllegalCommand.lean ====
section
/-! PROOF. Which words are command words, and what any other word written to `CMD` does (R92, R93, R225). -/

namespace Sys2Proof.Machine

/-! ## Command words -/

/-- The encoding of every row of the opcode map is its opcode, zero-extended (R92). -/
theorem encode_of_mem_commandRows : ∀ row ∈ commandRows, encode row.2 = .command (row.1.setWidth 32) := by
  decide

/-- The field `OPC` of a word as a number (R91). -/
theorem opcode_toNat (w : Word) : (w.extractLsb' 0 8).toNat = w.toNat % 256 := by
  simp

/-- The field `RSV` of a word as a number (R91). -/
theorem reserved_toNat (w : Word) : (w.extractLsb' 8 24).toNat = w.toNat / 256 := by
  rw [BitVec.extractLsb'_toNat, Nat.shiftRight_eq_div_pow]
  exact Nat.mod_eq_of_lt (by have := w.isLt; omega)

theorem reserved_eq_zero_iff (w : Word) : w.extractLsb' 8 24 = 0 ↔ w.toNat / 256 = 0 := by
  rw [← BitVec.toNat_inj, reserved_toNat]
  rfl

/-- A word whose bits above bit 7 are 0 is its low byte, zero-extended (R91). -/
theorem setWidth_opcode {w : Word} (h : w.extractLsb' 8 24 = 0) : (w.extractLsb' 0 8).setWidth 32 = w := by
  have hlow := opcode_toNat w
  rw [reserved_eq_zero_iff] at h
  rw [← BitVec.toNat_inj, BitVec.toNat_setWidth, hlow]
  omega

/-- The decoder accepts a command word only as the encoding of its command (R91, R92). -/
theorem encode_of_decodeCommand {w : Word} {i : Instr} (h : decodeCommand w = .ok i) : encode i = .command w := by
  unfold decodeCommand at h
  split at h
  case isTrue => cases h
  case isFalse hrsv =>
    split at h
    case h_1 row hrow =>
      have hopcode : row.1 = w.extractLsb' 0 8 := by simpa using List.find?_some hrow
      cases h
      rw [encode_of_mem_commandRows row (List.mem_of_find?_eq_some hrow), hopcode,
        setWidth_opcode (not_not.mp hrsv)]
    case h_2 => cases h

/-- A command word decodes to the command it encodes; a header token is encoded as bits, not as a word (R92, R96). -/
theorem decodeCommand_of_encode {w : Word} {i : Instr} (h : encode i = .command w) : decodeCommand w = .ok i := by
  cases i with
  | hdrInternal | hdrLeaf => cases h
  | _ => cases h; rfl

/-- The words that encode no command are those the decoder rejects. -/
theorem forall_encode_ne_iff (w : Word) :
    (∀ i : Instr, encode i ≠ .command w) ↔ ∃ e, decodeCommand w = .error e := by
  constructor
  · intro hno
    cases h : decodeCommand w with
    | ok i => exact absurd (encode_of_decodeCommand h) (hno i)
    | error e => exact ⟨e, rfl⟩
  · rintro ⟨e, he⟩ i hi
    rw [decodeCommand_of_encode hi] at he
    cases he

/-- The opcodes without a row (R93). -/
theorem find?_commandRows_eq_none_iff (o : BitVec 8) :
    commandRows.find? (fun row => row.1 == o) = none ↔
      (0x0D ≤ o.toNat ∧ o.toNat ≤ 0x0F) ∨ 0x12 ≤ o.toNat := by
  simp only [List.find?_eq_none, commandRows, List.forall_mem_cons, beq_iff_eq, List.not_mem_nil, false_imp_iff,
    implies_true, and_true]
  bv_omega

/-- The words the decoder rejects: a reserved bit is set, or the opcode has no row (R93). -/
theorem exists_decodeCommand_error_iff (w : Word) : (∃ e, decodeCommand w = .error e) ↔
    w.extractLsb' 8 24 ≠ 0 ∨ commandRows.find? (fun row => row.1 == w.extractLsb' 0 8) = none := by
  unfold decodeCommand
  split
  case isTrue hrsv => exact ⟨fun _ => .inl hrsv, fun _ => ⟨_, rfl⟩⟩
  case isFalse hrsv =>
    split
    case h_1 row hrow => simp [hrow, not_not.mp hrsv]
    case h_2 hrow => simp [hrow]

/-- The same in the numbers of R93: `RSV` is `w / 256` and `OPC` is `w % 256`. -/
theorem exists_decodeCommand_error_iff_toNat (w : Word) : (∃ e, decodeCommand w = .error e) ↔
    w.toNat / 256 ≠ 0 ∨ (0x0D ≤ w.toNat % 256 ∧ w.toNat % 256 ≤ 0x0F) ∨ 0x12 ≤ w.toNat % 256 := by
  rw [exists_decodeCommand_error_iff, find?_commandRows_eq_none_iff, opcode_toNat, Ne, reserved_eq_zero_iff]

/-! ## The fault -/

/-- A fault taken by an idle block writes `ERR` and drops `DONE`, nothing else (R232). -/
theorem enterFault_idle {s : State} (h : Idle s) (f : BlockFault) :
    enterFault f s = { s with err := f.toErr, done := false } := by
  obtain ⟨hbusy, hpq, hhdr⟩ := h
  simp only [enterFault, hbusy, hpq, hhdr]

/-- A write to `CMD`, whose address is 0, starts a command (R31). -/
theorem fetchHost_cmd (w : Word) (s : State) : fetchHost (.write 0x0000 w) s = fetchCommand w s := rfl

/-- A rejected word written to `CMD` of a ready block raises `ILLEGAL_CMD` (R225). -/
theorem fetchHost_illegal {s : State} {w : Word} {e : DecodeError} (hs : Ready s) (he : decodeCommand w = .error e) :
    fetchHost (.write 0x0000 w) s = .event { s with err := ⟨4, 0, 0⟩, done := false } := by
  have hillegal : illegalCommand s = enterFault .illegalCmd s := by simp [illegalCommand, ready_not_ignored hs]
  rw [fetchHost_cmd, fetchCommand, he]
  exact congrArg Fetched.event (hillegal.trans (enterFault_idle hs.1 .illegalCmd))

/-- Settles O9: the words that encode no command are those the decoder rejects, by `RSV` or by `OPC`. -/
theorem otherWordsRaiseIllegalCmd : Obligations.OtherWordsRaiseIllegalCmd := by
  refine fun w => ⟨?_, fun s rest hs hhost hno => ?_⟩
  · rw [forall_encode_ne_iff, exists_decodeCommand_error_iff_toNat]
  · obtain ⟨e, he⟩ := (forall_encode_ne_iff w).mp hno
    obtain ⟨⟨-, -, hhdr⟩, -⟩ := id hs
    rw [step_host hhdr hhost, fetchHost_illegal (s := { s with host := rest }) hs he]

end Sys2Proof.Machine
end

