-- ==== Sys2Proof/Proofs/Preconditions.lean ====
section
/-! PROOF. The checks of a command are those of R213's table, and no body raises `BAD_SEQUENCE` (R213, R226). -/

namespace Sys2Proof.Machine

/-! ## The checks -/

/-- The checks a command is given are its row of the table (R213). -/
theorem needsOf_eq (i : Instr) : needsOf i = ⟨(needFlags i).1, (needFlags i).2.1, (needFlags i).2.2⟩ := by
  cases i <;> rfl

/-- The check that fails first is the table's, its number in `INFO` (R213, R226). -/
theorem failedNeed_needsOf_toErr (i : Instr) (s : State) :
    (failedNeed (needsOf i) s).map BlockFault.toErr = (firstFailed i s).map fun k => ⟨5, k, 0⟩ := by
  simp only [failedNeed, firstFailed, needsOf_eq, Bool.and_eq_true, Bool.not_eq_true']
  split
  · rfl
  · split
    · rfl
    · split <;> rfl

theorem failedNeed_of_firstFailed {i : Instr} {s : State} {k : BitVec 4} (h : firstFailed i s = some k) :
    ∃ f, failedNeed (needsOf i) s = some f ∧ f.toErr = ⟨5, k, 0⟩ := by
  have herr := failedNeed_needsOf_toErr i s
  rw [h, Option.map_some, Option.map_eq_some_iff] at herr
  exact herr

theorem failedNeed_eq_none_of_firstFailed {i : Instr} {s : State} (h : firstFailed i s = none) :
    failedNeed (needsOf i) s = none := by
  have herr := failedNeed_needsOf_toErr i s
  rwa [h, Option.map_none, Option.map_eq_none_iff] at herr

theorem firstFailed_sreset (s : State) : firstFailed .sreset s = none := by
  simp [firstFailed, needFlags]

/-! ## No body raises `BAD_SEQUENCE` -/

/-- A body, or a part of one, raises no fault whose `CODE` is that of `BAD_SEQUENCE`, 5 (R221). -/
def Result.NoBadSequence (r : Result State) : Prop := r.Meets (fun _ => True) fun f _ => f.toErr.code ≠ 5

/-- A frame whose faults all have another code. -/
theorem Result.Meets.noBadSequence {r : Result State} {p : State → Prop} {q : BlockFault → State → Prop}
    (h : r.Meets p q) (hq : ∀ f t, q f t → f.toErr.code ≠ 5) : r.NoBadSequence :=
  h.imp (fun _ _ => trivial) hq

/-- The rule of sequencing. -/
theorem Result.NoBadSequence.bind {r : Result State} {f : State → Result State} (h : r.NoBadSequence)
    (hf : ∀ t, (f t).NoBadSequence) : (r.bind f).NoBadSequence :=
  Result.Meets.bind h (fun _ _ hb => hb) fun t _ => hf t

/-- Every fault of a header read is a `CORRUPT_HEADER`, its sub-cause one of the five of R153. -/
theorem isHeaderFault.toErr {f : BlockFault} (h : isHeaderFault f) : f.toErr.code = 2 ∧ f.toErr.info.toNat ≤ 4 := by
  cases f with
  | eofTag | eofSymbol | symRange _ | dupSymbol _ | tooDeep => exact ⟨rfl, by simp [BlockFault.toErr]⟩
  | _ => exact h.elim

/-- No fault of the decode walk is a `BAD_SEQUENCE`. -/
theorem isWalkFault.toErr_code_ne {f : BlockFault} (h : isWalkFault f) : f.toErr.code ≠ 5 := by
  cases f with
  | truncatedStream | degenerateTree _ => simp [BlockFault.toErr]
  | _ => exact h.elim

section
variable (m : Word) (s : State)

theorem bodyCount_noBadSequence : (bodyCount s).NoBadSequence :=
  (bodyCount_frame s).noBadSequence fun _ _ ⟨⟨_, hf⟩, _⟩ => by simp [hf, BlockFault.toErr]

theorem bodyBuild_noBadSequence : (bodyBuild s).NoBadSequence :=
  (bodyBuild_frame s).noBadSequence fun _ _ => False.elim

theorem bodyGencodes_noBadSequence : (bodyGencodes s).NoBadSequence :=
  (bodyGencodes_frame s).noBadSequence fun _ _ => False.elim

theorem bodyWrMagic_noBadSequence : (bodyWrMagic m s).NoBadSequence :=
  (outBits_frame _ s).noBadSequence fun _ _ => False.elim

theorem bodyWrHeader_noBadSequence : (bodyWrHeader s).NoBadSequence :=
  (bodyWrHeader_frame s).noBadSequence fun _ _ => False.elim

theorem bodyEncPayload_noBadSequence : (bodyEncPayload s).NoBadSequence :=
  (bodyEncPayload_frame s).noBadSequence fun _ _ ⟨⟨_, hf⟩, _⟩ => by simp [hf, BlockFault.toErr]

theorem bodyCloseOut_noBadSequence : (bodyCloseOut s).NoBadSequence :=
  (bodyCloseOut_frame s).noBadSequence fun _ _ => False.elim

theorem bodyRdMagic_noBadSequence : (bodyRdMagic m s).NoBadSequence :=
  (bodyRdMagic_frame m s).noBadSequence fun _ _ hf => by obtain ⟨rfl, -⟩ | ⟨rfl, -⟩ := hf <;> decide

theorem bodyRdHeader_noBadSequence : (bodyRdHeader s).NoBadSequence :=
  (bodyRdHeader_frame s).noBadSequence fun _ _ ⟨hf, _⟩ => by rw [hf.toErr.1]; decide

theorem bodyDecPayload_noBadSequence : (bodyDecPayload s).NoBadSequence :=
  (bodyDecPayload_frame s).noBadSequence fun _ _ ⟨hf, _⟩ => hf.toErr_code_ne

/-- COMPRESS is seven bodies in sequence (R174). -/
theorem bodyCompress_noBadSequence : (bodyCompress m s).NoBadSequence :=
  (bodyCount_noBadSequence s).bind fun s => (bodyBuild_noBadSequence s).bind fun s =>
    (bodyGencodes_noBadSequence s).bind fun s => (bodyWrMagic_noBadSequence m s).bind fun s =>
      (bodyWrHeader_noBadSequence s).bind fun s => (bodyEncPayload_noBadSequence s).bind bodyCloseOut_noBadSequence

/-- DECOMPRESS is four bodies in sequence (R195). -/
theorem bodyDecompress_noBadSequence : (bodyDecompress m s).NoBadSequence :=
  (bodyRdMagic_noBadSequence m s).bind fun s => (bodyRdHeader_noBadSequence s).bind fun s =>
    (bodyDecPayload_noBadSequence s).bind bodyCloseOut_noBadSequence

theorem bodyOf_noBadSequence (i : Instr) : (bodyOf i s).NoBadSequence := by
  cases i with
  | count => exact bodyCount_noBadSequence s
  | build => exact bodyBuild_noBadSequence s
  | gencodes => exact bodyGencodes_noBadSequence s
  | wrMagic => exact bodyWrMagic_noBadSequence magic s
  | wrHeader => exact bodyWrHeader_noBadSequence s
  | encPayload => exact bodyEncPayload_noBadSequence s
  | closeOut => exact bodyCloseOut_noBadSequence s
  | rdMagic => exact bodyRdMagic_noBadSequence magic s
  | rdHeader => exact bodyRdHeader_noBadSequence s
  | decPayload => exact bodyDecPayload_noBadSequence s
  | compress => exact bodyCompress_noBadSequence magic s
  | decompress => exact bodyDecompress_noBadSequence magic s
  | nop | sreset | ftClr | hdrInternal | hdrLeaf _ => trivial

end

/-! ## The command -/

/-- A command but SRESET whose checks pass on a ready block ends with another `CODE` than that of `BAD_SEQUENCE`. -/
theorem exec_code_ne_badSequence {i : Instr} (hc : i.isCommand = true) (hi : i ≠ .sreset) {s t : State} (hs : Ready s)
    (hn : failedNeed (needsOf i) s = none) (h : exec i s = .next t) : t.err.code ≠ 5 := by
  obtain ⟨-, hcode⟩ := id hs
  rw [exec_ready hc hi hs hn, finish_eq_next] at h
  obtain ⟨u, hok, rfl⟩ | ⟨f, u, hraised, rfl⟩ := h
  · have herr : u.err = s.err := (bodyOf_keepsErr (accept s) i).of_ok hok
    have hzero : (complete u).err.code = 0 := by simp only [complete_fields, herr, hcode]
    rw [hzero]
    decide
  · exact (bodyOf_noBadSequence (accept s) i).of_raised hraised

/-- Settles O12: the check that fails first is the table's; when none fails no body raises the fault, and SRESET, which
has no check, leaves `ERR` 0. -/
theorem preconditionsAreChecked : Obligations.PreconditionsAreChecked := by
  intro s i hs hc
  by_cases hi : i = .sreset
  · subst hi
    rw [firstFailed_sreset]
    intro t ht
    rw [exec_sreset_ready hs, Host.Outcome.next.injEq] at ht
    simp [← ht]
  · cases hfirst : firstFailed i s with
    | some k =>
      obtain ⟨f, hfailed, herr⟩ := failedNeed_of_firstFailed hfirst
      have hexec := exec_ready_failed hc hi hs hfailed
      rwa [herr] at hexec
    | none => exact fun t => exec_code_ne_badSequence hc hi hs (failedNeed_eq_none_of_firstFailed hfirst)

end Sys2Proof.Machine
end

