-- ==== Sys2Proof/Proofs/LeavingAFault.lean ====
section
/-! PROOF. What a step can do to a faulted block between two commands (R235, R236). -/

namespace Sys2Proof.Machine

/-- A host read leaves `ERR` as it was (R36). -/
theorem hostRead_err (a : Addr) (s : State) : (hostRead a s).err = s.err := by
  unfold hostRead
  split <;> rfl

/-- A host write to any register but `CMD` leaves `ERR` as it was (R36). -/
theorem hostWrite_err (a : Addr) (v : Word) (s : State) : (hostWrite a v s).err = s.err := by
  simp only [hostWrite]
  split
  · rfl
  · split <;> simp

/-- A word written to `CMD` of a faulted block is ignored, or it is SRESET's and the block is reset (R211, R236). -/
theorem faulted_command_cases {s t : State} {w : Word} {rest : List HostAction} (hhdr : s.hdr = none)
    (hfault : s.err.code ≠ 0) (hhost : s.host = .write 0x0000 w :: rest) (h : step s = .next t) :
    t = { s with host := rest } ∨ (w = 0x00000001 ∧ t = blockReset { s with host := rest }) := by
  have hignores : ignores { s with host := rest } = true := ignored_of_fault hfault
  rw [step_host hhdr hhost, fetchHost_cmd, fetchCommand] at h
  cases hdecode : decodeCommand w with
  | error e =>
    simp only [hdecode, illegalCommand, hignores, if_true, Host.Outcome.next.injEq] at h
    exact .inl h.symm
  | ok i =>
    simp only [hdecode] at h
    by_cases hi : i = .sreset
    · subst hi
      have hw : w = 0x00000001 := by simpa [encode] using (encode_of_decodeCommand hdecode).symm
      rw [exec_sreset] at h
      split at h <;> rw [Host.Outcome.next.injEq] at h
      · exact .inl h.symm
      · exact .inr ⟨hw, h.symm⟩
    · rw [exec_ignored (decodeCommand_isCommand hdecode) hi hignores, Host.Outcome.next.injEq] at h
      exact .inl h.symm

/-- Every flag of a block just reset is 0 (R39). -/
theorem blockReset_statusWord (s : State) : statusWord (blockReset s) = 0 := rfl

/-- Settles O13: of the host's and the environment's actions only a hardware reset and the SRESET word write `ERR`. -/
theorem onlyAResetLeavesAFault : Obligations.OnlyAResetLeavesAFault := by
  intro s t hhdr hfault h
  cases hhost : s.host with
  | nil =>
    rw [step_nothing hhdr hhost, Host.Outcome.next.injEq] at h
    exact .inl (h ▸ rfl)
  | cons a rest =>
    have hstep := h
    rw [step_host hhdr hhost] at hstep
    cases a with
    | read addr =>
      cases hstep
      exact .inl (hostRead_err addr _)
    | write addr v =>
      by_cases haddr : addr = cmdAddr
      · subst haddr
        obtain rfl | ⟨rfl, rfl⟩ := faulted_command_cases hhdr hfault hhost h
        · exact .inl rfl
        · exact .inr ⟨rfl, blockReset_statusWord _, rfl, rfl, rest, .inr rfl⟩
      · simp only [fetchHost, if_neg haddr, Host.Outcome.next.injEq] at hstep
        subst hstep
        exact .inl (hostWrite_err addr v _)
    | reset =>
      cases hstep
      exact .inr ⟨rfl, blockReset_statusWord _, rfl, rfl, rest, .inl rfl⟩
    | openSource bytes =>
      cases hstep
      exact .inl rfl
    | openDestination =>
      cases hstep
      exact .inl rfl

end Sys2Proof.Machine
end

