-- ==== Sys2Proof/Proofs/CountOverflow.lean ====
section
/-! PROOF. The body of COUNT on a byte whose count is full (R122, R228). -/

namespace Sys2Proof.Machine

/-- With no whole byte left the scanning loop is over, however many passes it has (R122). -/
theorem countLoop_of_inRead_none {s : State} (k : Nat) (h : inRead 8 s = none) : countLoop k s = .ok s := by
  cases k with
  | zero => rfl
  | succ k => simp only [countLoop, h]

/-- The scanning loop with `m + k` passes is that with `m` and then that with `k`. -/
theorem countLoop_add (m k : Nat) (s : State) : countLoop (m + k) s = (countLoop m s).bind (countLoop k) := by
  induction m generalizing s with
  | zero => rw [Nat.zero_add, countLoop, ok_bind]
  | succ m ih =>
    rw [Nat.succ_add, countLoop, countLoop]
    cases h : inRead 8 s with
    | none => exact (countLoop_of_inRead_none k h).symm
    | some p =>
      obtain ⟨r, s₁⟩ := p
      simp only [ih]
      split <;> rfl

section
variable {s : State} {a b : List Byte} {x : Byte} {rest : List Bool}

/-- A byte whose count is `2^32 - 1` stops the loop, with the position after it (R122). -/
theorem countLoop_overflow (k : Nat) (hft : s.ft = countsOf a) (h : unread s = bytesToBits [x] ++ rest)
    (hfull : a.count x = 2 ^ 32 - 1) : countLoop (k + 1) s = .raised (.countOverflow x) (advance 8 s) := by
  have hmax : ftRead (advance 8 s) (byteSym x) = maxCount := by
    rw [ftRead_byteSym (s := advance 8 s) hft, hfull]
    rfl
  simp only [countLoop, inRead_byte h, byte_ofNat_toNat, hmax, if_true]

theorem unread_advance_bytes (h : unread s = bytesToBits b ++ rest) : unread (advance (8 * b.length) s) = rest := by
  rw [unread_advance, h, List.drop_left' (bytesToBits_length b)]

/-- COUNT on bytes `b` whose counts fit and then a byte whose count is full (R228). -/
theorem bodyCount_overflow (h : unread s = bytesToBits (b ++ [x]) ++ rest) (hsmall : ∀ y, b.count y < 2 ^ 32)
    (hfull : b.count x = 2 ^ 32 - 1) :
    bodyCount s = .raised (.countOverflow x) (withCounts b (advance (8 * (b.length + 1)) s)) := by
  have hpasses : bitsLeft s / 8 = b.length + (rest.length / 8 + 1) := by
    rw [bitsLeft_eq, h, List.length_append, bytesToBits_length, List.length_append, List.length_singleton]
    omega
  rw [bytesToBits_append, List.append_assoc] at h
  let t : State := withCounts b (advance (8 * b.length) (ftClear s))
  have hcounted : countLoop b.length (ftClear s) = .ok t :=
    countLoop_bytes (s := ftClear s) (a := []) countsOf_nil.symm h (by simpa using hsmall)
  have hrest : unread t = bytesToBits [x] ++ rest := by
    rw [unread_withCounts]
    exact unread_advance_bytes (s := ftClear s) h
  rw [bodyCount, hpasses, countLoop_add, hcounted, ok_bind,
    countLoop_overflow _ (withCounts_ft b _) hrest hfull, raised_bind]
  simp [withCounts, advance, ftClear, Nat.mul_add, Nat.add_assoc]

end

/-- Reading and counting touch nothing that a command's acceptance writes. -/
theorem withCounts_advance_accept (b : List Byte) (n : Nat) (s : State) :
    withCounts b (advance n (accept s)) = accept (withCounts b (advance n s)) := rfl

theorem ready_withCounts (b : List Byte) {s : State} (h : Ready s) : Ready (withCounts b s) := by
  simpa only [Ready, Idle, withCounts] using h

/-- Settles O18: the bytes before the full one are counted, and the loop stops at it. -/
theorem countOverflowIsReported : Obligations.CountOverflowIsReported := by
  intro s b x rest hs h hsmall hfull
  have hbody := bodyCount_overflow (s := accept s) h hsmall hfull
  rw [withCounts_advance_accept] at hbody
  rw [exec_ready_raised (i := .count) (t := withCounts b (advance (8 * (b.length + 1)) s)) rfl (by decide) hs
    (failedNeed_needsNothing s) (ready_withCounts b (ready_advance hs)) hbody]
  simp only [withCounts, advance, BlockFault.toErr]

end Sys2Proof.Machine
end

