-- ==== Sys2Proof/Proofs/MissingCode.lean ====
section
/-! PROOF. The body of ENC_PAYLOAD on a byte without a code, and without a code for the marker (R171, R227). -/

namespace Sys2Proof.Machine

/-- With no whole byte left the emitting loop is over, however many passes it has (R171). -/
theorem encLoop_of_inRead_none {s : State} (k : Nat) (h : inRead 8 s = none) : encLoop k s = .ok s := by
  cases k with
  | zero => rfl
  | succ k => simp only [encLoop, h]

/-- The emitting loop with `m + k` passes is that with `m` and then that with `k`. -/
theorem encLoop_add (m k : Nat) (s : State) : encLoop (m + k) s = (encLoop m s).bind (encLoop k) := by
  induction m generalizing s with
  | zero => rw [Nat.zero_add, encLoop, ok_bind]
  | succ m ih =>
    rw [Nat.succ_add, encLoop, encLoop]
    cases h : inRead 8 s with
    | none => exact (encLoop_of_inRead_none k h).symm
    | some p => simp only [bind_assoc, ← ih]

theorem failedNeed_needsCtOut {s : State} (hvalid : s.ctValid = true) (hoclosed : s.oclosed = false) :
    failedNeed needsCtOut s = none := by
  simp [failedNeed, needsCtOut, hvalid, hoclosed]

/-- `AUX` of the fault is the byte (R33, R227). -/
theorem toErr_noCode_byteSym (x : Byte) : (BlockFault.noCode (byteSym x)).toErr = ⟨6, 0, x.setWidth 9⟩ := by
  simp [BlockFault.toErr, symAux, byteSym, BitVec.ofNat_toNat]

/-- What ENC_PAYLOAD has done after `n` bits of the input, when it has written the codes of `b`. -/
def afterEncoding (b : List Byte) (n : Nat) (s : State) : State :=
  appendOutput (tableCodes s.ct b) { s with input := ⟨s.input.data, n⟩ }

/-- Reading and writing touch nothing that a command's acceptance writes. -/
theorem afterEncoding_accept (b : List Byte) (n : Nat) (s : State) :
    afterEncoding b n (accept s) = accept (afterEncoding b n s) := rfl

section
variable {s : State} {b : List Byte} {rest : List Bool}

theorem writeCode_absent {x : Sym} (hx : (s.ct[x]).present = false) : writeCode x s = .raised (.noCode x) s := by
  rw [writeCode, if_neg (Bool.eq_false_iff.mp hx)]

/-- The emitting loop, from the start of the input, over bytes that all have a code (R171). -/
theorem encLoop_inReset (h : s.input.data = bytesToBits b ++ rest)
    (hpresent : ∀ x ∈ b, (s.ct[byteSym x]).present = true) (hopen : s.output.closed = false) :
    encLoop b.length (inReset s) = .ok (afterEncoding b (8 * b.length) s) := by
  have hloop := encLoop_bytes (s := inReset s) h hpresent hopen
  simpa [afterEncoding, appendOutput, advance, inReset] using hloop

/-- ENC_PAYLOAD on bytes that all have a code and then a byte without one (R227). -/
theorem bodyEncPayload_byte_absent {x : Byte} (h : s.input.data = bytesToBits (b ++ [x]) ++ rest)
    (hpresent : ∀ y ∈ b, (s.ct[byteSym y]).present = true) (hx : (s.ct[byteSym x]).present = false)
    (hopen : s.output.closed = false) :
    bodyEncPayload s = .raised (.noCode (byteSym x)) (afterEncoding b (8 * (b.length + 1)) s) := by
  have hpasses : s.input.data.length / 8 = b.length + (rest.length / 8 + 1) := by
    rw [h, List.length_append, bytesToBits_length, List.length_append, List.length_singleton]
    omega
  rw [bytesToBits_append, List.append_assoc] at h
  have hrest : unread (afterEncoding b (8 * b.length) s) = bytesToBits [x] ++ rest :=
    (congrArg (List.drop (8 * b.length)) h).trans (List.drop_left' (bytesToBits_length b))
  have hstop : encLoop (rest.length / 8 + 1) (afterEncoding b (8 * b.length) s) =
      .raised (.noCode (byteSym x)) (afterEncoding b (8 * (b.length + 1)) s) := by
    simp only [encLoop, inRead_byte hrest, byte_ofNat_toNat]
    rw [writeCode_absent (s := advance 8 (afterEncoding b (8 * b.length) s)) hx, raised_bind]
    rfl
  rw [bodyEncPayload, hpasses, encLoop_add, encLoop_inReset h hpresent hopen, ok_bind, hstop, raised_bind]

/-- ENC_PAYLOAD on bytes that all have a code, the marker having none (R227). -/
theorem bodyEncPayload_eos_absent (h : s.input.data = bytesToBits b ++ rest) (hrest : rest.length < 8)
    (hpresent : ∀ y ∈ b, (s.ct[byteSym y]).present = true) (heos : (s.ct[Config.eos]).present = false)
    (hopen : s.output.closed = false) :
    bodyEncPayload s = .raised (.noCode Config.eos) (afterEncoding b (8 * b.length) s) := by
  have hpasses : s.input.data.length / 8 = b.length := bitsLeft_div_eight (s := inReset s) h hrest
  rw [bodyEncPayload, hpasses, encLoop_inReset h hpresent hopen, ok_bind]
  exact writeCode_absent heos

end

/-- Settles O38: the codes before the missing one are written, and the loop stops there, or the marker's turn does. -/
theorem missingCodeIsReported : Obligations.MissingCodeIsReported := by
  intro s b hs hvalid hoclosed hopen hpresent
  have hneed := failedNeed_needsCtOut hvalid hoclosed
  refine ⟨fun x rest h hx => ?_, fun tail h htail heos => ?_⟩
  · have hbody := bodyEncPayload_byte_absent (s := accept s) h hpresent hx hopen
    rw [afterEncoding_accept] at hbody
    rw [exec_ready_raised (i := .encPayload) (t := afterEncoding b (8 * (b.length + 1)) s) rfl (by decide) hs
      hneed hs hbody, toErr_noCode_byteSym]
    rfl
  · have hbody := bodyEncPayload_eos_absent (s := accept s) h htail hpresent heos hopen
    rw [afterEncoding_accept] at hbody
    exact exec_ready_raised (i := .encPayload) (t := afterEncoding b (8 * b.length) s) rfl (by decide) hs
      hneed hs hbody

end Sys2Proof.Machine
end

