-- ==== Sys2Proof/Proofs/StoredTreeWf.lean ====
section
/-! PROOF. A tree with distinct leaf symbols, stored with children below their parents in as many entries as it has
nodes, makes a well-formed store (R25). Two addresses of one node would give its leaves twice, so the tree's `2·L - 1`
addresses lead to as many entries, which are all there are. -/

namespace Sys2Proof.Machine

section
variable {node : Vector Node 513} {t : Tree} {n : Nat} {i c : NodeIdx} {p : List Bool}

/-- A stored tree's root is below the bound. -/
theorem Stores.val_lt (h : Stores node t n i) : i.val < n := by
  cases t <;> exact h.1

/-- Bits that lead to a node of a stored tree lead to a stored tree. -/
theorem Stores.of_nodeAlong (h : Stores node t n i) (hp : nodeAlong node p i = some c) : ∃ u, Stores node u n c := by
  induction p generalizing t i with
  | nil =>
    cases hp
    exact ⟨t, h⟩
  | cons b p ih =>
    cases t with
    | leaf x =>
      obtain ⟨-, w, hn⟩ := h
      rw [nodeAlong_cons_leaf hn] at hp
      cases hp
    | node tl tr =>
      obtain ⟨hi, w, l, r, hn, hl, hr⟩ := h
      rw [nodeAlong_cons hn] at hp
      cases b with
      | false => exact ih (hl.mono hi.le) hp
      | true => exact ih (hr.mono hi.le) hp

/-- The children of a stored node are below it. -/
theorem Stores.children_lt {w : Weight} {l r : NodeIdx} (h : Stores node t n i) (hn : node[i] = .internal w l r) :
    l.val < i.val ∧ r.val < i.val := by
  cases t with
  | leaf x =>
    obtain ⟨-, w', hn'⟩ := h
    rw [hn] at hn'
    cases hn'
  | node tl tr =>
    obtain ⟨-, w', l', r', hn', hl, hr⟩ := h
    rw [hn] at hn'
    cases hn'
    exact ⟨hl.val_lt, hr.val_lt⟩

/-- Bits that lead to a leaf of a tree with distinct leaf symbols are the path of its symbol. -/
theorem path_of_nodeAlong {k : Nat} {x : Sym} {w : Weight} (ht : treeAt node k i = some t) (hnodup : t.leaves.Nodup)
    (hp : nodeAlong node p i = some c) (hc : node[c] = .leaf x w) : t.path x = some p := by
  induction t generalizing k i p with
  | leaf y =>
    obtain ⟨w', hn⟩ := treeAt_eq_leaf ht
    cases p with
    | nil =>
      cases hp
      obtain ⟨rfl, -⟩ : x = y ∧ w = w' := by simpa [hn] using hc.symm
      simp [Tree.path]
    | cons b q => simp [nodeAlong_cons_leaf hn] at hp
  | node tl tr ihl ihr =>
    obtain ⟨hnodupl, hnodupr, hdisjoint⟩ := List.nodup_append.mp hnodup
    obtain ⟨k', w', l, r, hn, htl, htr⟩ := treeAt_eq_node ht
    cases p with
    | nil =>
      cases hp
      rw [hn] at hc
      cases hc
    | cons b q =>
      rw [nodeAlong_cons hn] at hp
      cases b with
      | false => rw [Tree.path, ihl htl hnodupl hp]
      | true =>
        have hr : tr.path x = some q := ihr htr hnodupr hp
        have hxr : x ∈ tr.leaves := (Tree.path_isSome_iff tr x).mp (by rw [hr, Option.isSome_some])
        have hl : tl.path x = none := by
          rw [← Option.not_isSome_iff_eq_none, Tree.path_isSome_iff]
          exact fun hxl => hdisjoint x hxl x hxr rfl
        rw [Tree.path, hl, hr]

/-- In a tree with distinct leaf symbols one address leads to each node: it begins the path of a leaf below the node. -/
theorem Stores.nodeAlong_injective {q : List Bool} (h : Stores node t n i) (hnodup : t.leaves.Nodup)
    (hp : nodeAlong node p i = some c) (hq : nodeAlong node q i = some c) : p = q := by
  obtain ⟨u, hu⟩ := h.of_nodeAlong hp
  obtain ⟨x, hx⟩ := List.exists_mem_of_length_pos u.leaves_pos
  obtain ⟨r, hr⟩ := Option.isSome_iff_exists.mp ((u.path_isSome_iff x).mpr hx)
  obtain ⟨d, w, hd, hleaf⟩ := nodeAlong_path hu.treeAt hr
  have hpath : ∀ p', nodeAlong node p' i = some c → t.path x = some (p' ++ r) := fun p' hp' =>
    path_of_nodeAlong h.treeAt hnodup (by rw [nodeAlong_append, hp', Option.bind_some, hd]) hleaf
  have happend : p ++ r = q ++ r := Option.some.inj ((hpath p hp).symm.trans (hpath q hq))
  exact List.append_cancel_right happend

end

section
variable {s : State} {T : Tree}

/-- With one entry for each node of the tree, every entry is one of its nodes. -/
theorem Stores.exists_nodeAlong (h : Stores s.node T s.ncount.val s.root) (hnodup : T.leaves.Nodup)
    (hcount : s.ncount.val + 1 = 2 * T.leaves.length) (c : NodeIdx) (hc : c.val < s.ncount.val) :
    ∃ p, nodeAlong s.node p s.root = some c := by
  have hindex : (T.addresses.map (indexAt s)).Nodup := by
    refine T.addresses_nodup.map_on fun p hp q _ hpq => ?_
    obtain ⟨d, hd⟩ := (mem_addresses_iff h.treeOf p).mp hp
    obtain ⟨e, he, hde⟩ := indexAt_eq_some.mp (hpq.symm.trans (indexAt_eq_some.mpr ⟨d, hd, rfl⟩))
    obtain rfl : e = d := Fin.ext hde
    exact h.nodeAlong_injective hnodup hd he
  have hbelow : T.addresses.map (indexAt s) ⊆ (List.range s.ncount.val).map some := by
    intro o ho
    obtain ⟨p, hp, rfl⟩ := List.mem_map.mp ho
    obtain ⟨d, hd⟩ := (mem_addresses_iff h.treeOf p).mp hp
    obtain ⟨u, hu⟩ := h.of_nodeAlong hd
    exact List.mem_map.mpr ⟨d.val, List.mem_range.mpr hu.val_lt, (indexAt_eq_some.mpr ⟨d, hd, rfl⟩).symm⟩
  have hlength : ((List.range s.ncount.val).map some).length ≤ (T.addresses.map (indexAt s)).length := by
    have haddresses := T.addresses_length
    simp only [List.length_map, List.length_range]
    omega
  have hperm := (List.subperm_of_subset hindex hbelow).perm_of_length_le hlength
  obtain ⟨p, -, hp⟩ := List.mem_map.mp
    (hperm.mem_iff.mpr (List.mem_map.mpr ⟨c.val, List.mem_range.mpr hc, rfl⟩))
  obtain ⟨d, hd, hdc⟩ := indexAt_eq_some.mp hp
  exact ⟨p, by rw [hd, Fin.ext hdc]⟩

/-- The store of a tree with distinct leaf symbols, one entry for each node and the root last, whose internal nodes
weigh what their children do, is well-formed (R25). -/
theorem Stores.treeWf (h : Stores s.node T s.ncount.val s.root) (hnodup : T.leaves.Nodup)
    (hcount : s.ncount.val + 1 = 2 * T.leaves.length) (hroot : s.root.val + 1 = s.ncount.val)
    (hweight : ∀ (i : NodeIdx) (w : Weight) (l r : NodeIdx), i.val < s.ncount.val → s.node[i] = .internal w l r →
      w.toNat = (nodeWeight s.node[l]).toNat + (nodeWeight s.node[r]).toNat) : TreeWf s := by
  have hreach := h.exists_nodeAlong hnodup hcount
  have hstep {p : List Bool} {j c : NodeIdx} (hp : nodeAlong s.node p s.root = some j)
      (hchild : isChild s.node[j] c) : ∃ b, nodeAlong s.node (p ++ [b]) s.root = some c := by
    obtain ⟨b, hb⟩ := exists_nodeAlong_of_isChild hchild
    exact ⟨b, by rw [nodeAlong_append, hp, Option.bind_some, hb]⟩
  have hlt {p : List Bool} {j : NodeIdx} (hp : nodeAlong s.node p s.root = some j) :
      j.val < s.ncount.val := by
    obtain ⟨u, hu⟩ := h.of_nodeAlong hp
    exact hu.val_lt
  refine ⟨by omega, by omega, hroot, fun i w l r hi hn => ?_, fun i hi hne => ?_, fun j hj hchild => ?_,
    fun i j x w w' hi hj hni hnj => ?_, ?_, hweight⟩
  · obtain ⟨p, hp⟩ := hreach i hi
    obtain ⟨u, hu⟩ := h.of_nodeAlong hp
    obtain ⟨hl, hr⟩ := hu.children_lt hn
    refine ⟨hl, hr, ?_⟩
    rintro rfl
    have hboth (b : Bool) : nodeAlong s.node (p ++ [b]) s.root = some l := by
      rw [nodeAlong_append, hp, Option.bind_some, nodeAlong_cons hn, ite_self, nodeAlong_nil]
    simpa using h.nodeAlong_injective hnodup (hboth false) (hboth true)
  · obtain ⟨q, hq⟩ := hreach i hi
    obtain rfl | ⟨p, b, rfl⟩ := List.eq_nil_or_concat' q
    · cases hq
      exact absurd rfl hne
    · obtain ⟨j, w, l, r, hj, hn, rfl⟩ := nodeAlong_concat hq
      refine ⟨j, ⟨hlt hj, isChild_of_internal hn b⟩, fun j' ⟨hj', hchild⟩ => ?_⟩
      obtain ⟨p', hp'⟩ := hreach j' hj'
      obtain ⟨b', hb'⟩ := hstep hp' hchild
      obtain ⟨rfl, -⟩ := List.append_inj' (h.nodeAlong_injective hnodup hb' hq) rfl
      exact Option.some.inj (hp'.symm.trans hj)
  · obtain ⟨p, hp⟩ := hreach j hj
    obtain ⟨b, hb⟩ := hstep hp hchild
    simpa using h.nodeAlong_injective hnodup hb (nodeAlong_nil s.node s.root)
  · obtain ⟨p, hp⟩ := hreach i hi
    obtain ⟨q, hq⟩ := hreach j hj
    have hpq : p = q := Option.some.inj ((path_of_nodeAlong h.treeAt hnodup hp hni).symm.trans
      (path_of_nodeAlong h.treeAt hnodup hq hnj))
    exact Option.some.inj (hp.symm.trans (hpq ▸ hq))
  · obtain ⟨x, hx⟩ := List.exists_mem_of_length_pos T.leaves_pos
    obtain ⟨p, hp⟩ := Option.isSome_iff_exists.mp ((T.path_isSome_iff x).mpr hx)
    obtain ⟨c, w, hc, hleaf⟩ := nodeAlong_path h.treeAt hp
    exact ⟨c, x, w, hlt hc, hleaf⟩

end

end Sys2Proof.Machine
end

