-- ==== Sys2Proof/Proofs/RdHeaderEnds.lean ====
section
/-! PROOF. RD_HEADER always ends (R157, R223). Between two tokens the open nodes hold the roots of stored trees whose
leaves are distinct symbols, all marked in `SEEN`; their number bounds the nodes, so the store never runs full, and the
one tree that is left makes a well-formed store. -/

namespace Sys2Proof.Machine

/-! ## A body that ends -/

/-- A body, or a part of one, ends in a state that meets `p` or with a fault of the block, never outside the spec. -/
def Result.Ends (p : State → Prop) (r : Result State) : Prop :=
  (∃ t, r = .ok t ∧ p t) ∨ ∃ f t, r = .raised f t

theorem Result.ends_ok {p : State → Prop} {t : State} (h : p t) : (Result.ok t).Ends p := .inl ⟨t, rfl, h⟩

theorem Result.ends_raised (p : State → Prop) (f : BlockFault) (t : State) : (Result.raised f t).Ends p :=
  .inr ⟨f, t, rfl⟩

/-- The rule of sequencing. -/
theorem Result.Ends.bind {p q : State → Prop} {r : Result State} {f : State → Result State} (h : r.Ends p)
    (hf : ∀ t, p t → (f t).Ends q) : (r.bind f).Ends q := by
  obtain ⟨t, rfl, ht⟩ | ⟨b, t, rfl⟩ := h
  · exact hf t ht
  · exact .inr ⟨b, t, rfl⟩

/-! ## The trees read so far -/

/-- `roots` are the roots of stored trees with distinct leaf symbols, all marked in `seen`; the entries allocated and
the roots add up to two for each leaf, and every entry has weight 0. -/
structure TreesRead (seen : Vector Bool 257) (roots : List NodeIdx) (s : State) : Prop where
  stored : ∃ ts, QueueStores s roots ts ∧ (ts.flatMap Tree.leaves).Nodup ∧
    (∀ x ∈ ts.flatMap Tree.leaves, seen[x] = true) ∧
    s.ncount.val + roots.length = 2 * (ts.flatMap Tree.leaves).length
  weightless : ∀ i : NodeIdx, i.val < s.ncount.val → nodeWeight s.node[i] = 0

section
variable {seen : Vector Bool 257} {roots : List NodeIdx} {s : State}

/-- Only the node store and `NCOUNT` matter. -/
theorem TreesRead.congr {t : State} (h : TreesRead seen roots s) (hnode : t.node = s.node)
    (hcount : t.ncount = s.ncount) : TreesRead seen roots t := by
  obtain ⟨hstored, hweightless⟩ := h
  exact ⟨by simpa only [QueueStores, hnode, hcount] using hstored, by simpa only [hnode, hcount] using hweightless⟩

theorem treesRead_startHeader (s : State) : TreesRead seen [] (startHeader s) := by
  refine ⟨⟨[], .nil, List.nodup_nil, by simp, rfl⟩, fun i hi => ?_⟩
  simp at hi

/-- A node of weight 0 is allocated above entries of weight 0. -/
theorem TreesRead.weightless_withNode {nd : Node} (h : TreesRead seen roots s) (hnd : nodeWeight nd = 0)
    (hroom : s.ncount.val < 513) (i : NodeIdx) (hi : i.val < (withNode nd s hroom).ncount.val) :
    nodeWeight (withNode nd s hroom).node[i] = 0 := by
  rw [withNode_ncount] at hi
  by_cases hnew : i.val = s.ncount.val
  · obtain rfl : i = ⟨s.ncount.val, hroom⟩ := Fin.ext hnew
    rw [withNode_getElem_new, hnd]
  · rw [withNode_getElem_of_lt hroom (by omega)]
    exact h.weightless i (by omega)

/-- The trees stored so far stay stored, and the new root is put before them. -/
theorem QueueStores.cons_withNode {ts : List Tree} {nd : Node} {t : Tree} (h : QueueStores s roots ts)
    (hroom : s.ncount.val < 513)
    (ht : Stores (withNode nd s hroom).node t (withNode nd s hroom).ncount.val ⟨s.ncount.val, hroom⟩) :
    QueueStores (withNode nd s hroom) (⟨s.ncount.val, hroom⟩ :: roots) (t :: ts) :=
  .cons ht (h.imp fun _ _ hi => (hi.withNode hroom).mono (Nat.le_succ _))

/-- There are no more leaves than symbols, so with a tree in hand and another one open the store has room. -/
theorem TreesRead.room (h : TreesRead seen roots s) (htwo : 2 ≤ roots.length) : s.ncount.val < 513 := by
  obtain ⟨⟨ts, -, hnodup, -, hcount⟩, -⟩ := h
  have hle : (ts.flatMap Tree.leaves).length ≤ 257 := by simpa using hnodup.length_le_card
  omega

/-- A symbol that is not marked is no leaf yet. -/
theorem nodup_cons_of_unmarked {x : Sym} {ts : List Tree} (hnodup : (ts.flatMap Tree.leaves).Nodup)
    (hseen : ∀ y ∈ ts.flatMap Tree.leaves, seen[y] = true) (hx : seen[x] = false) :
    (x :: ts.flatMap Tree.leaves).Nodup :=
  List.nodup_cons.mpr ⟨fun hmem => by simp [hseen x hmem] at hx, hnodup⟩

/-- With a symbol left unmarked the store has room for its leaf. -/
theorem TreesRead.room_leaf {x : Sym} (h : TreesRead seen roots s) (hx : seen[x] = false) : s.ncount.val < 513 := by
  obtain ⟨⟨ts, -, hnodup, hseen, hcount⟩, -⟩ := h
  have hle : (x :: ts.flatMap Tree.leaves).length ≤ 257 := by
    simpa using (nodup_cons_of_unmarked hnodup hseen hx).length_le_card
  rw [List.length_cons] at hle
  omega

/-- The leaf of a symbol not yet marked joins the trees (R155). -/
theorem TreesRead.push_leaf {x : Sym} (h : TreesRead seen roots s) (hx : seen[x] = false)
    (hroom : s.ncount.val < 513) :
    TreesRead (seen.set x.val true) (⟨s.ncount.val, hroom⟩ :: roots) (withNode (.leaf x 0) s hroom) := by
  obtain ⟨⟨ts, hq, hnodup, hseen, hcount⟩, -⟩ := id h
  refine ⟨⟨.leaf x :: ts, hq.cons_withNode hroom (stores_withNode_leaf x 0 hroom), ?_, ?_, ?_⟩,
    h.weightless_withNode rfl hroom⟩
  · exact nodup_cons_of_unmarked hnodup hseen hx
  · refine List.forall_mem_cons.mpr ⟨by simp, fun y hy => ?_⟩
    by_cases hxy : x.val = y.val
    · simp [← hxy]
    · exact (Vector.getElem_set_ne _ _ hxy).trans (hseen y hy)
  · simp only [withNode_ncount, List.flatMap_cons, Tree.leaves, List.length_cons, List.length_append, List.length_nil]
    omega

/-- A node is constructed over the two innermost trees, the later one its right child (R152). -/
theorem TreesRead.push_internal {l i : NodeIdx} (h : TreesRead seen (i :: l :: roots) s)
    (hroom : s.ncount.val < 513) :
    TreesRead seen (⟨s.ncount.val, hroom⟩ :: roots) (withNode (.internal 0 l i) s hroom) := by
  obtain ⟨⟨us, hq, hnodup, hseen, hcount⟩, -⟩ := id h
  obtain ⟨ti, us, hi, hq', rfl⟩ := List.forall₂_cons_left_iff.mp hq
  obtain ⟨tl, ts, hl, hrest, rfl⟩ := List.forall₂_cons_left_iff.mp hq'
  have hperm : ((Tree.node tl ti :: ts).flatMap Tree.leaves).Perm ((ti :: tl :: ts).flatMap Tree.leaves) := by
    simpa [Tree.leaves] using
      (List.perm_append_comm (l₁ := tl.leaves) (l₂ := ti.leaves)).append_right (ts.flatMap Tree.leaves)
  refine ⟨⟨.node tl ti :: ts, QueueStores.cons_withNode hrest hroom (stores_withNode_internal 0 hl hi hroom),
    hperm.nodup_iff.mpr hnodup, fun x hx => hseen x (hperm.mem_iff.mp hx), ?_⟩, h.weightless_withNode rfl hroom⟩
  rw [hperm.length_eq, ← hcount, withNode_ncount, List.length_cons, List.length_cons, List.length_cons]
  omega

/-- The last tree makes the store well-formed once its root, the last entry, is `ROOT` (R25). -/
theorem TreesRead.treeWf (h : TreesRead seen [s.root] s) (hlast : s.root.val + 1 = s.ncount.val) : TreeWf s := by
  have hzero := h.weightless
  obtain ⟨us, hq, hnodup, -, hcount⟩ := h.stored
  obtain ⟨T, us, hT, hnil, rfl⟩ := List.forall₂_cons_left_iff.mp hq
  obtain rfl := List.forall₂_nil_left_iff.mp hnil
  simp only [List.flatMap_cons, List.flatMap_nil, List.append_nil] at hnodup hcount
  refine Stores.treeWf hT hnodup hcount hlast fun i w l r hi hn => ?_
  obtain ⟨p, hp⟩ := Stores.exists_nodeAlong hT hnodup hcount i hi
  obtain ⟨u, hu⟩ := Stores.of_nodeAlong hT hp
  obtain ⟨hl, hr⟩ := hu.children_lt hn
  have hw : nodeWeight s.node[i] = w := by rw [hn, nodeWeight]
  rw [← hw, hzero i hi, hzero l (by omega), hzero r (by omega)]
  rfl

end

/-! ## The token machine -/

/-- The roots in a stack of open nodes, innermost first: the left children already known. -/
def openRoots (stack : List (Option NodeIdx)) : List NodeIdx := stack.filterMap id

/-- The state between two tokens, or the header's end. -/
def BetweenTokens (s : State) : Prop :=
  (∃ seen stack, s.hdr = some ⟨seen, stack⟩ ∧ TreesRead seen (openRoots stack) s) ∨ (s.hdr = none ∧ TreeWf s)

/-- Handing on the root of a tree just completed, the last node allocated, never runs out of room (R152, R157). -/
theorem closeSubtree_ends {seen : Vector Bool 257} {stack : List (Option NodeIdx)} {i : NodeIdx} {s : State}
    (h : TreesRead seen (i :: openRoots stack) s) (hlast : i.val + 1 = s.ncount.val) :
    (closeSubtree seen stack i s).Ends BetweenTokens := by
  induction stack generalizing i s with
  | nil =>
    have hwf : TreeWf { s with root := i, treeValid := true, hdr := none } :=
      TreesRead.treeWf (h.congr rfl rfl) hlast
    exact Result.ends_ok (.inr ⟨rfl, hwf⟩)
  | cons o rest ih =>
    cases o with
    | none => exact Result.ends_ok (.inl ⟨seen, some i :: rest, rfl, h.congr rfl rfl⟩)
    | some l =>
      have hroom : s.ncount.val < 513 := h.room (by simp [openRoots])
      rw [closeSubtree, alloc_eq_withNode _ hroom, ok_bind]
      exact ih (TreesRead.push_internal h hroom) rfl

/-- A symbol that passes the checks is not yet marked (R155). -/
theorem checkSymbol_eq_ok {seen : Vector Bool 257} {v : BitVec 9} {x : Sym} (h : checkSymbol seen v = .ok x) :
    seen[x] = false := by
  unfold checkSymbol at h
  split at h
  · split at h
    · cases h
    case isFalse hseen =>
      cases h
      simpa using hseen
  · cases h

/-- A token read inside a header leads to the next state between two tokens, to the header's end, or to a fault
(R154, R155). -/
theorem applyToken_ends {seen : Vector Bool 257} {stack : List (Option NodeIdx)} {s : State} (k : HdrToken)
    (hhdr : s.hdr = some ⟨seen, stack⟩) (h : TreesRead seen (openRoots stack) s) :
    (applyToken k s).Ends BetweenTokens := by
  simp only [applyToken, hhdr]
  cases k with
  | internal =>
    simp only [readInternal]
    split
    · exact Result.ends_raised _ _ _
    · exact Result.ends_ok (.inl ⟨seen, none :: stack, rfl, h.congr rfl rfl⟩)
  | leaf v =>
    simp only [readLeaf]
    split
    case h_1 => exact Result.ends_raised _ _ _
    case h_2 x hx =>
      have hunseen := checkSymbol_eq_ok hx
      have hroom := h.room_leaf hunseen
      rw [alloc_eq_withNode _ hroom, ok_bind]
      exact closeSubtree_ends (h.push_leaf hunseen hroom) rfl

/-- Reading tokens ends with a well-formed tree or with a fault (R157). -/
theorem readTokens_ends (k : Nat) {seen : Vector Bool 257} {stack : List (Option NodeIdx)} {s : State}
    (hhdr : s.hdr = some ⟨seen, stack⟩) (h : TreesRead seen (openRoots stack) s) : (readTokens k s).Ends TreeWf := by
  induction k generalizing seen stack s with
  | zero => exact Result.ends_raised _ _ _
  | succ k ih =>
    rw [readTokens]
    obtain ⟨tk, n, -, -, htoken⟩ | ⟨-, heof⟩ | ⟨-, heof⟩ := fetchToken_frame s
    · rw [htoken]
      refine (applyToken_ends (s := advance n s) tk hhdr (h.congr rfl rfl)).bind fun t ht => ?_
      obtain ⟨seen', stack', hopen, ht⟩ | ⟨hclosed, hwf⟩ := ht
      · rw [hopen]
        exact ih hopen ht
      · rw [hclosed]
        exact Result.ends_ok hwf
    · rw [heof]
      exact Result.ends_raised _ _ _
    · rw [heof]
      exact Result.ends_raised _ _ _

theorem bodyRdHeader_ends (s : State) : (bodyRdHeader s).Ends TreeWf :=
  readTokens_ends (bitsLeft s) rfl (treesRead_startHeader s)

/-! ## The command -/

/-- What RD_HEADER leaves as it was when it ends in `t`: all but the tree, the flags, `ERR` and the read position. -/
def HeaderFrame (s t : State) : Prop :=
  t = { s with node := t.node, ncount := t.ncount, root := t.root, treeValid := t.treeValid, ctValid := false,
               done := t.done, err := t.err, input := ⟨s.input.data, t.input.pos⟩ }

section
variable {s u : State}

/-- RD_HEADER completes with the tree valid and the block's other fields as they were (R152, R214). -/
theorem bodyRdHeader_ok_complete (hs : Ready s) (h : bodyRdHeader (accept s) = .ok u) :
    HeaderFrame s (complete u) ∧ u.err = s.err ∧ u.treeValid = true := by
  obtain ⟨⟨hbusy, hpq, hhdr⟩, -⟩ := hs
  obtain ⟨hdata, hframe⟩ := (bodyRdHeader_frame (accept s)).of_ok h
  have hsource : s.input.data = u.input.data := hdata.symm
  refine ⟨?_, by rw [hframe, accept], by rw [hframe]⟩
  unfold HeaderFrame
  rw [hframe]
  simp only [complete, accept, hsource, hbusy, hpq, hhdr]

/-- RD_HEADER takes a `CORRUPT_HEADER` with both flags down and the block's other fields as they were (R223, R232). -/
theorem bodyRdHeader_raised_enterFault {f : BlockFault} (hs : Ready s)
    (h : bodyRdHeader (accept s) = .raised f u) :
    HeaderFrame s (enterFault f u) ∧ isHeaderFault f ∧ u.treeValid = false := by
  obtain ⟨⟨hbusy, hpq, hhdr⟩, -⟩ := hs
  obtain ⟨hfault, hdata, hframe⟩ := (bodyRdHeader_frame (accept s)).of_raised h
  have hsource : s.input.data = u.input.data := hdata.symm
  refine ⟨?_, hfault, by rw [hframe]⟩
  unfold HeaderFrame
  rw [hframe]
  simp only [enterFault, accept, hsource, hbusy, hpq, hhdr]

end

/-- Settles O30: the body ends with a well-formed tree or with a fault, and its frame says what either has written. -/
theorem rdHeaderAlwaysEnds : Obligations.RdHeaderAlwaysEnds := by
  intro s hs
  have hexec : exec .rdHeader s = finish (bodyRdHeader (accept s)) :=
    exec_ready rfl (by decide) hs (failedNeed_needsNothing s)
  obtain ⟨u, hok, hwf⟩ | ⟨f, u, hraised⟩ := bodyRdHeader_ends (accept s)
  · obtain ⟨hframe, herr, hvalid⟩ := bodyRdHeader_ok_complete hs hok
    exact ⟨complete u, by rw [hexec, hok, finish], hframe,
      .inl ⟨herr, hvalid, rfl, treeWf_congr (s := u) rfl rfl rfl hwf⟩⟩
  · obtain ⟨hframe, hfault, hvalid⟩ := bodyRdHeader_raised_enterFault hs hraised
    obtain ⟨hcode, hinfo⟩ := hfault.toErr
    exact ⟨enterFault f u, by rw [hexec, hraised, finish], hframe, .inr ⟨hcode, hinfo, hvalid, rfl⟩⟩

end Sys2Proof.Machine
end

