-- ==== Sys2Proof/Proofs/ResetTable.lean ====
section
/-! PROOF. The reset table, and the two resets that lead to it (R39, R211, R261). -/

namespace Sys2Proof.Machine

/-- `MAGICR` reads the constant whenever the block is not busy (R35, R36). -/
theorem regWord_magicr {s : State} (hbusy : s.busy = false) : regWord s 6 = some magic := by
  simp [regWord, hbusy]

/-- A byte's count is 0 in a frequency table of zeros (R39). -/
theorem ftRead_of_ft_zero {s : State} (hft : s.ft = Vector.replicate 256 0) {x : Sym} (hx : x.val < 256) :
    ftRead s x = 0 := by
  simp [ftRead, hx, hft]

/-- The table of R39 does not look at `NODE`, `CT`, the channels or the host's side, so two resets that differ only
there (hardware and SRESET draw their own unspecified tables) meet it alike. -/
theorem blockIsReset_of_eq {s : State}
    (h : s = { State.reset with node := s.node, ct := s.ct, input := s.input, output := s.output,
                                host := s.host, record := s.record, free := s.free }) : BlockIsReset s := by
  rw [h]
  exact {
    byte_counts := fun _ hx => ftRead_of_ft_zero rfl hx
    marker_count := ftRead_eos _
    root_zero := rfl
    ncount_zero := rfl
    walk_at_root := ⟨rfl, rfl⟩
    status_zero := rfl
    err_zero := rfl
    magic_constant := regWord_magicr rfl
    no_working_state := ⟨rfl, rfl⟩ }

theorem blockIsReset_blockReset (s : State) : BlockIsReset (blockReset s) := blockIsReset_of_eq rfl

/-- The reset input resets the block, the action being taken off the host's list (R260, R261). -/
theorem step_reset {s : State} {rest : List HostAction} (hhdr : s.hdr = none) (hhost : s.host = .reset :: rest) :
    step s = .next (blockReset { s with host := rest }) := by
  rw [step_host hhdr hhost, fetchHost]

/-- Settles O1: SRESET and the hardware reset both lead to `blockReset`, which keeps the channels. -/
theorem resetsLeaveTheResetTable : Obligations.ResetsLeaveTheResetTable := by
  refine ⟨blockIsReset_of_eq rfl, fun s hbusy => ?_, fun s rest hhdr hhost => ?_⟩
  · have hexec : exec .sreset s = .next (blockReset s) := by simp [exec_sreset, hbusy]
    exact ⟨blockReset s, hexec, blockIsReset_blockReset s, rfl, rfl, rfl, rfl⟩
  · exact ⟨blockReset { s with host := rest }, step_reset hhdr hhost, blockIsReset_blockReset _, rfl, rfl, rfl, rfl⟩

end Sys2Proof.Machine
end

