-- ==== Sys2Proof/Proofs/Decoding.lean ====
section
/-! PROOF. Encoding and decoding are inverse to each other (R91, R92, R96, R97). -/

namespace Sys2Proof.Machine

/-- The statement made for each instruction holds of every instruction. -/
theorem decode_encode (i : Instr) : Laws.RoundTrip.Statement i := by
  cases i with
  | hdrLeaf v => exact Laws.RoundTrip.hdrLeaf v
  | _ => exact fun _ => rfl

/-- Settles O6: the token's bits are read off the front of what follows, and the decoder accepts no other word. -/
theorem decodingInvertsEncoding : Obligations.DecodingInvertsEncoding :=
  ⟨decode_encode, decodeToken_encodeToken_append, fun _ _ => encode_of_decodeCommand⟩

/-- Settles O5: concrete words and tokens, which the decoder evaluates. -/
theorem wordsOfTheSpecDecode : Obligations.WordsOfTheSpecDecode := by
  unfold Obligations.WordsOfTheSpecDecode
  decide

end Sys2Proof.Machine
end

