-- ==== Sys2Proof/Proofs/HeaderRoundTrip.lean ====
section
/-! PROOF. RD_HEADER on the header of a tree with distinct symbols (R152, R156): besides the tree, every weight is 0. -/

namespace Sys2Proof.Machine

theorem Result.Ends.of_ok {p : State → Prop} {r : Result State} {t : State} (h : r.Ends p) (e : r = .ok t) : p t := by
  subst e
  obtain ⟨u, hu, hp⟩ | ⟨f, u, hu⟩ := h
  · cases hu
    exact hp
  · cases hu

/-- Every allocated entry of the node store has weight 0 (R152: a header carries no weights). -/
def Weightless (s : State) : Prop := ∀ i : NodeIdx, i.val < s.ncount.val → nodeWeight s.node[i] = 0

/-- A body, or a part of one, that ends without a fault leaves every weight 0. -/
def Result.LeavesWeightless (r : Result State) : Prop := r.Meets Weightless fun _ _ => True

section
variable {s : State}

theorem weightless_withNode {nd : Node} (h : Weightless s) (hnd : nodeWeight nd = 0) (hroom : s.ncount.val < 513) :
    Weightless (withNode nd s hroom) := by
  intro i hi
  rw [withNode_ncount] at hi
  by_cases hnew : i.val = s.ncount.val
  · obtain rfl : i = ⟨s.ncount.val, hroom⟩ := Fin.ext hnew
    rw [withNode_getElem_new, hnd]
  · rw [withNode_getElem_of_lt hroom (by omega)]
    exact h i (by omega)

/-- A node of weight 0 is allocated, or the store is full. -/
theorem alloc_leavesWeightless {nd : Node} {f : NodeIdx × State → Result State} (h : Weightless s)
    (hnd : nodeWeight nd = 0) (hf : ∀ i t, Weightless t → (f (i, t)).LeavesWeightless) :
    ((alloc nd s).bind f).LeavesWeightless := by
  rcases alloc_cases nd s with ⟨hroom, e⟩ | ⟨-, e⟩ <;> rw [e]
  · exact hf _ _ (weightless_withNode h hnd hroom)
  · trivial

theorem closeSubtree_leavesWeightless (seen : Vector Bool 257) (stack : List (Option NodeIdx)) (i : NodeIdx)
    (h : Weightless s) : (closeSubtree seen stack i s).LeavesWeightless := by
  induction stack generalizing i s with
  | nil => exact h
  | cons o rest ih =>
    cases o with
    | none => exact h
    | some l => exact alloc_leavesWeightless h rfl fun j t ht => ih j ht

theorem applyToken_leavesWeightless (k : HdrToken) (h : Weightless s) : (applyToken k s).LeavesWeightless := by
  unfold applyToken
  split
  · trivial
  · cases k with
    | internal =>
      simp only [readInternal]
      split
      · trivial
      · exact h
    | leaf v =>
      simp only [readLeaf]
      split
      · trivial
      · exact alloc_leavesWeightless h rfl fun i t ht => closeSubtree_leavesWeightless _ _ i ht

theorem readTokens_leavesWeightless (k : Nat) (h : Weightless s) : (readTokens k s).LeavesWeightless := by
  induction k generalizing s with
  | zero => trivial
  | succ k ih =>
    unfold readTokens
    obtain ⟨tk, n, -, -, e⟩ | ⟨-, e⟩ | ⟨-, e⟩ := fetchToken_frame s <;> rw [e]
    · refine (applyToken_leavesWeightless (s := advance n s) tk h).bind (fun _ _ _ => trivial) fun t ht => ?_
      split
      · exact ih ht
      · exact ht
    · trivial
    · trivial

/-- RD_HEADER starts from an empty store and allocates nodes of weight 0 only (R152). -/
theorem bodyRdHeader_leavesWeightless (s : State) : (bodyRdHeader s).LeavesWeightless :=
  readTokens_leavesWeightless _ fun i hi => absurd hi (by simp)

end

/-- Settles O28: the body stores the tree, which makes a well-formed store of `2·L - 1` nodes, all of weight 0. -/
theorem rdHeaderReadsTheHeaderBack : Obligations.RdHeaderReadsTheHeaderBack := by
  intro s T rest hs hnodup h
  obtain ⟨u, hbody, hT, hframe⟩ := bodyRdHeader_header (s := accept s) hnodup h
  have hwf : TreeWf u := (bodyRdHeader_ends (accept s)).of_ok hbody
  have hweightless : Weightless u := (bodyRdHeader_leavesWeightless (accept s)).of_ok hbody
  have hexec := exec_ready (i := .rdHeader) rfl (by decide) hs (failedNeed_needsNothing s)
  rw [bodyOf, hbody, finish] at hexec
  refine ⟨complete u, hexec, ?_, hT, treeWf_congr (s := u) rfl rfl rfl hwf, ncount_eq_of_treeOf hwf hT, hweightless⟩
  obtain ⟨⟨hbusy, hpq, hhdr⟩, -⟩ := hs
  rw [hframe]
  simp only [complete, accept, hbusy, hpq, hhdr]

end Sys2Proof.Machine
end

