-- ==== Sys2Proof/Proofs/DecodedCodes.lean ====
section
/-! PROOF. DEC_PAYLOAD on the codes of bytes and the marker's code (R192, R197). -/

namespace Sys2Proof.Machine

theorem walkDone_accept (p : List Bool) (c : NodeIdx) (s : State) :
    walkDone p c (accept s) = accept (walkDone p c s) := rfl

/-- Settles O44: the walk emits the bytes and stops at the leaf that the marker's code leads to. -/
theorem decPayloadDecodesTheCodes : Obligations.DecPayloadDecodesTheCodes := by
  intro s T b q e rest hs hvalid hoclosed hopen hT hq he h
  obtain ⟨c, w, hc, hleaf⟩ := nodeAlong_path hT he
  obtain ⟨c', hc', hbody⟩ := bodyDecPayload_codes (s := accept s) hT hq he h hopen
  obtain rfl : c = c' := Option.some.inj (hc.symm.trans hc')
  rw [afterCodes_accept, toRoot_accept, walkDone_accept] at hbody
  exact ⟨c, w, hc, hleaf, exec_ready_ok (i := .decPayload) (t := walkDone e c (toRoot (afterCodes b q.length s))) rfl
    (by decide) hs (failedNeed_needsTreeOut hvalid hoclosed) hs hbody⟩

end Sys2Proof.Machine
end

