-- ==== Sys2Proof/Proofs/DecompressBlob.lean ====
section
/-! PROOF. DECOMPRESS of a blob, whatever follows it, and the whole state it leaves (R195). -/

namespace Sys2Proof.Machine

/-- The body of DECOMPRESS on a blob: the state that RD_HEADER leaves, walked over the codes, padded and closed. -/
theorem bodyDecompress_blob_state (m : Word) {s : State} {T : Tree} {b : List Byte} {q e rest : List Bool}
    (hnodup : T.leaves.Nodup) (hq : codesOf T b = some q) (he : T.path Config.eos = some e)
    (h : unread s = blobBits m T q e ++ rest) (hopen : s.output.closed = false) :
    ∃ u c, treeOf u = some T ∧ nodeAlong u.node e u.root = some c ∧
      u = { s with node := u.node, ncount := u.ncount, root := u.root, treeValid := true, ctValid := false,
                   hdr := none, input := ⟨s.input.data, s.input.pos + 32 + T.header.length⟩ } ∧
      bodyDecompress m s = .ok (padAndClose (walkDone e c (toRoot (afterCodes b q.length u)))) := by
  simp only [blobBits, List.append_assoc] at h
  have hmagic : bodyRdMagic m s = .ok (advance 32 s) := bodyRdMagic_match h
  have hheader : unread (advance 32 s) = T.header ++ (q ++ (e ++ rest)) := by
    rw [unread_advance, h, List.drop_left' (bitsMSB_length 32 m.toNat)]
  obtain ⟨u, hread, hT, hframe⟩ := bodyRdHeader_header hnodup hheader
  have hpayload : unread u = q ++ e ++ rest := by
    have hinput : u.input = (advance T.header.length (advance 32 s)).input := by rw [hframe]; rfl
    rw [unread_congr hinput, unread_advance, hheader, List.drop_left, List.append_assoc]
  have houtput : u.output = s.output := by rw [hframe, advance]
  obtain ⟨c, hc, hdec⟩ := bodyDecPayload_codes hT hq he hpayload (houtput ▸ hopen)
  refine ⟨u, c, hT, hc, hframe, ?_⟩
  rw [bodyDecompress, hmagic, ok_bind, hread, ok_bind, hdec, ok_bind, bodyCloseOut_open rfl]

/-- Settles O48: the output starts empty, so the bytes need no padding. -/
theorem decompressDecodesABlob : Obligations.DecompressDecodesABlob := by
  intro s T b q e rest hs hoclosed hout hnodup hq he h
  have hopen : (accept s).output.closed = false := by rw [accept, hout]
  obtain ⟨u, c, hT, hc, hframe, hbody⟩ := bodyDecompress_blob_state magic (s := accept s) hnodup hq he h hopen
  have hexec := exec_ready (i := .decompress) rfl (by decide) hs (failedNeed_needsOut hoclosed)
  rw [bodyOf, hbody, finish] at hexec
  refine ⟨_, hexec, ?_, hT, hc⟩
  obtain ⟨⟨hbusy, hpq, hhdr⟩, -⟩ := hs
  rw [hframe]
  simp [complete, padAndClose, walkDone, toRoot, afterCodes, accept, hbusy, hpq, hhdr, hout, padCount]

end Sys2Proof.Machine
end

