-- ==== Sys2Proof/Proofs/HuffmanStep.lean ====
section
/-! PROOF. The exchange argument behind the optimality of BUILD's tree (R134), on weights and code lengths alone: from
any lengths that satisfy Kraft's inequality, giving the two smallest weights the two greatest lengths and joining them
costs no more than their weights. -/

namespace Sys2Proof.Machine

/-- Kraft's inequality for code lengths of at most `N`, multiplied by `2 ^ N`. -/
structure Kraft (N : Nat) (lengths : Multiset Nat) : Prop where
  le : ∀ l ∈ lengths, l ≤ N
  sum_le : (lengths.map fun l => 2 ^ (N - l)).sum ≤ 2 ^ N

/-- The sum of weight times length over pairs of a weight and a code length. -/
def lengthCost (p : Multiset (Nat × Nat)) : Nat := (p.map fun e => e.1 * e.2).sum

@[simp] theorem lengthCost_cons (w l : Nat) (p : Multiset (Nat × Nat)) :
    lengthCost ((w, l) ::ₘ p) = w * l + lengthCost p := by
  simp [lengthCost]

/-- The pair of a given weight can be put first. -/
theorem exists_cons_of_map_fst {p : Multiset (Nat × Nat)} {w : Nat} {ws : Multiset Nat}
    (h : p.map Prod.fst = w ::ₘ ws) : ∃ k p', p = (w, k) ::ₘ p' ∧ p'.map Prod.fst = ws := by
  obtain ⟨⟨w', k⟩, hmem, rfl⟩ := Multiset.mem_map.mp (h ▸ Multiset.mem_cons_self w ws)
  obtain ⟨p', rfl⟩ := Multiset.exists_cons_of_mem hmem
  rw [Multiset.map_cons] at h
  exact ⟨k, p', rfl, (Multiset.cons_inj_right w').mp h⟩

/-- The greatest length can be given to a smallest weight at no cost. -/
theorem exists_longest_at (w k : Nat) (p : Multiset (Nat × Nat)) (hmin : ∀ e ∈ p, w ≤ e.1) :
    ∃ M p', p'.map Prod.fst = p.map Prod.fst ∧ M ::ₘ p'.map Prod.snd = k ::ₘ p.map Prod.snd ∧
      (∀ l ∈ p'.map Prod.snd, l ≤ M) ∧ w * M + lengthCost p' ≤ w * k + lengthCost p := by
  obtain ⟨⟨v, M⟩, hmem, hmax⟩ := Multiset.exists_max_image Prod.snd (Multiset.cons_ne_zero (a := (w, k)) (m := p))
  obtain ⟨hk, hp⟩ := Multiset.forall_mem_cons.mp hmax
  rcases Multiset.mem_cons.mp hmem with e | hmem
  · cases e
    exact ⟨k, p, rfl, rfl, by simpa using fun l v h => hp (v, l) h, le_rfl⟩
  · obtain ⟨r, rfl⟩ := Multiset.exists_cons_of_mem hmem
    have hw : w ≤ v := hmin (v, M) hmem
    have hr : ∀ e ∈ r, e.2 ≤ M := fun e he => hp e (Multiset.mem_cons_of_mem he)
    refine ⟨M, (v, k) ::ₘ r, by simp, by simp [Multiset.cons_swap], ?_, ?_⟩
    · simpa using ⟨hk, fun l v h => hr (v, l) h⟩
    · obtain ⟨x, rfl⟩ := Nat.exists_eq_add_of_le hw
      obtain ⟨y, rfl⟩ := Nat.exists_eq_add_of_le hk
      simp only [lengthCost_cons]
      nlinarith [Nat.zero_le (x * y)]

/-- Of the two greatest lengths the greater can be cut to the other, and one bit less is then enough for both
together: the other terms of Kraft's sum are multiples of the one cut to. -/
theorem Kraft.join {N M₁ M₂ : Nat} {ls : Multiset Nat} (h : Kraft N (M₁ ::ₘ M₂ ::ₘ ls)) (hls : ∀ l ∈ ls, l ≤ M₂) :
    1 ≤ M₂ ∧ Kraft N ((M₂ - 1) ::ₘ ls) := by
  obtain ⟨hle, hsum⟩ := h
  simp only [Multiset.map_cons, Multiset.sum_cons] at hsum
  have hM₂ : M₂ ≤ N := hle M₂ (by simp)
  have hrest : 2 ^ (N - M₂) ∣ (ls.map fun l => 2 ^ (N - l)).sum :=
    Multiset.dvd_sum fun n hn => by
      obtain ⟨l, hl, rfl⟩ := Multiset.mem_map.mp hn
      have := hls l hl
      exact pow_dvd_pow 2 (by omega)
  have hpow : 2 ^ (N - M₂) ∣ 2 ^ N := pow_dvd_pow 2 (by omega)
  have hpos : 0 < 2 ^ (N - M₁) := Nat.two_pow_pos _
  have hpos' : 0 < 2 ^ (N - M₂) := Nat.two_pow_pos _
  have hdouble : 2 * 2 ^ (N - M₂) + (ls.map fun l => 2 ^ (N - l)).sum ≤ 2 ^ N := by
    obtain ⟨x, hx⟩ := hrest
    obtain ⟨y, hy⟩ := hpow
    rw [hx, hy] at hsum ⊢
    have hlt : 1 + x < y := by
      refine Nat.lt_of_mul_lt_mul_left (a := 2 ^ (N - M₂)) ?_
      rw [Nat.mul_add]
      omega
    calc 2 * 2 ^ (N - M₂) + 2 ^ (N - M₂) * x = 2 ^ (N - M₂) * (1 + x + 1) := by ring
      _ ≤ 2 ^ (N - M₂) * y := Nat.mul_le_mul_left _ hlt
  have hone : 1 ≤ M₂ := by
    by_contra h0
    obtain rfl : M₂ = 0 := by omega
    rw [Nat.sub_zero] at hdouble hpos'
    omega
  have hexp : N - (M₂ - 1) = N - M₂ + 1 := by omega
  refine ⟨hone, ⟨?_, ?_⟩⟩
  · refine Multiset.forall_mem_cons.mpr ⟨by omega, fun l hl => hle l (by simp [hl])⟩
  · rw [Multiset.map_cons, Multiset.sum_cons, hexp, pow_succ']
    exact hdouble

/-- One round of BUILD on weights: the two smallest become one, which costs their sum. -/
theorem exists_joined {N a b k₁ k₂ : Nat} {p : Multiset (Nat × Nat)}
    (h : Kraft N (k₁ ::ₘ k₂ ::ₘ p.map Prod.snd)) (hab : a ≤ b) (hb : ∀ e ∈ p, b ≤ e.1) :
    ∃ k p', p'.map Prod.fst = p.map Prod.fst ∧ Kraft N (k ::ₘ p'.map Prod.snd) ∧
      (a + b) * k + lengthCost p' + (a + b) ≤ a * k₁ + (b * k₂ + lengthCost p) := by
  obtain ⟨M₁, p₁, hfst₁, hsnd₁, hmax₁, hcost₁⟩ := exists_longest_at a k₁ ((b, k₂) ::ₘ p)
    (Multiset.forall_mem_cons.mpr ⟨hab, fun e he => hab.trans (hb e he)⟩)
  rw [Multiset.map_cons] at hfst₁ hsnd₁
  obtain ⟨k, p₂, rfl, hfst₂⟩ := exists_cons_of_map_fst hfst₁
  rw [Multiset.map_cons] at hsnd₁ hmax₁
  have hb₂ : ∀ e ∈ p₂, b ≤ e.1 := fun e he => by
    obtain ⟨e', he', heq⟩ := Multiset.mem_map.mp (hfst₂ ▸ Multiset.mem_map_of_mem Prod.fst he)
    exact heq ▸ hb e' he'
  obtain ⟨M₂, p₃, hfst₃, hsnd₃, hmax₃, hcost₃⟩ := exists_longest_at b k p₂ hb₂
  have hM : M₂ ≤ M₁ := hmax₁ M₂ (hsnd₃ ▸ Multiset.mem_cons_self M₂ _)
  obtain ⟨hone, hkraft⟩ := Kraft.join (M₁ := M₁) (by rw [hsnd₃, hsnd₁]; exact h) hmax₃
  refine ⟨M₂ - 1, p₃, hfst₃.trans hfst₂, hkraft, ?_⟩
  obtain ⟨m, rfl⟩ := Nat.exists_eq_add_of_le hone
  simp only [lengthCost_cons, Nat.add_sub_cancel_left] at hcost₁ ⊢
  nlinarith [Nat.mul_le_mul_left a hM]

end Sys2Proof.Machine
end

