-- ==== Sys2Proof/Proofs/PrefixCodes.lean ====
section
/-! PROOF. Prefix codes satisfy Kraft's inequality (R134), by Mathlib's inequality of Kraft and McMillan. -/

namespace Sys2Proof.Machine

/-- Codes of which none starts another, and none is empty, are read back from their concatenation. -/
theorem uniquelyDecodable_of_prefixFree {S : Set (List Bool)} (hfree : ∀ v ∈ S, ∀ w ∈ S, v <+: w → v = w)
    (hne : [] ∉ S) : InformationTheory.UniquelyDecodable S := by
  intro L₁
  induction L₁ with
  | nil =>
    intro L₂ _ h₂ hflat
    cases L₂ with
    | nil => rfl
    | cons w L₂ =>
      obtain ⟨rfl, -⟩ := List.append_eq_nil_iff.mp hflat.symm
      exact absurd (h₂ [] (by simp)) hne
  | cons v L₁ ih =>
    intro L₂ h₁ h₂ hflat
    obtain ⟨hv, h₁⟩ := List.forall_mem_cons.mp h₁
    cases L₂ with
    | nil =>
      obtain ⟨rfl, -⟩ := List.append_eq_nil_iff.mp hflat
      exact absurd hv hne
    | cons w L₂ =>
      obtain ⟨hw, hL₂⟩ := List.forall_mem_cons.mp h₂
      rw [List.flatten_cons, List.flatten_cons] at hflat
      have hvw : v = w := by
        rcases List.prefix_or_prefix_of_prefix (List.prefix_append v L₁.flatten)
          (hflat ▸ List.prefix_append w L₂.flatten) with h | h
        · exact hfree v hv w hw h
        · exact (hfree w hw v hv h).symm
      subst hvw
      rw [ih L₂ h₁ hL₂ (List.append_cancel_left hflat)]

/-- Kraft's inequality for a code assignment in which no code of a symbol starts another symbol's. -/
theorem kraft_of_prefixFree {xs : List Sym} (hnodup : xs.Nodup) {c : Sym → List Bool}
    (hfree : ∀ x ∈ xs, ∀ y ∈ xs, x ≠ y → ¬ c x <+: c y) {N : Nat} (hN : ∀ x ∈ xs, (c x).length ≤ N) :
    Kraft N ((xs : Multiset Sym).map fun x => (c x).length) := by
  refine ⟨by simpa using hN, ?_⟩
  have hsum : (((xs : Multiset Sym).map fun x => (c x).length).map fun l => 2 ^ (N - l)).sum =
      ∑ x ∈ xs.toFinset, 2 ^ (N - (c x).length) := by
    rw [Finset.sum, List.toFinset_val, hnodup.dedup, Multiset.map_map]
    rfl
  rw [hsum]
  by_cases hnil : ∃ x ∈ xs, c x = []
  · obtain ⟨x, hx, hcx⟩ := hnil
    have honly : xs.toFinset ⊆ {x} := fun y hy => by
      by_contra hne
      exact hfree x hx y (by simpa using hy) (fun e => hne (by simp [e])) (hcx ▸ List.nil_prefix)
    calc ∑ y ∈ xs.toFinset, 2 ^ (N - (c y).length)
        ≤ ∑ y ∈ {x}, 2 ^ (N - (c y).length) := Finset.sum_le_sum_of_subset honly
      _ = 2 ^ N := by simp [hcx]
  · push Not at hnil
    have hinj : Set.InjOn c (xs.toFinset : Set Sym) := fun x hx y hy hxy => by
      by_contra hne
      exact hfree x (by simpa using hx) y (by simpa using hy) hne (hxy ▸ List.prefix_refl _)
    have hdecodable :
        InformationTheory.UniquelyDecodable ((xs.toFinset.image c : Finset (List Bool)) : Set (List Bool)) := by
      refine uniquelyDecodable_of_prefixFree (fun v hv w hw hvw => ?_) (by simpa using hnil)
      obtain ⟨x, hx, rfl⟩ : ∃ x ∈ xs, c x = v := by simpa using hv
      obtain ⟨y, hy, rfl⟩ : ∃ y ∈ xs, c y = w := by simpa using hw
      by_contra hne
      exact hfree x hx y hy (fun e => hne (congrArg c e)) hvw
    have hkraft := InformationTheory.kraft_mcmillan_inequality hdecodable
    rw [Finset.sum_image hinj, Fintype.card_bool] at hkraft
    have hterm : ∀ x ∈ xs.toFinset,
        (2 : ℝ) ^ (N - (c x).length) = 2 ^ N * (1 / (2 : ℕ)) ^ (c x).length := fun x hx => by
      have hle := hN x (by simpa using hx)
      rw [pow_sub₀ _ two_ne_zero hle]
      simp
    have hreal : ((∑ x ∈ xs.toFinset, 2 ^ (N - (c x).length) : ℕ) : ℝ) ≤ (2 ^ N : ℕ) := by
      push_cast
      rw [Finset.sum_congr rfl hterm, ← Finset.mul_sum]
      exact mul_le_of_le_one_right (by positivity) hkraft
    exact_mod_cast hreal

end Sys2Proof.Machine
end

