-- ==== Sys2Proof/Proofs/HuffmanForest.lean ====
section
/-! PROOF. Optimality of a forest that BUILD joins (R134): whatever code lengths its symbols are given, its trees can be
placed at depths that satisfy Kraft's inequality and cost no more in all. -/

namespace Sys2Proof.Machine

section
variable {count : Sym → Nat}

/-- The sum of the counts of a tree's leaves. -/
def Tree.leafSum (count : Sym → Nat) (t : Tree) : Nat := (t.leaves.map count).sum

theorem Tree.leafSum_node (l r : Tree) : (Tree.node l r).leafSum count = l.leafSum count + r.leafSum count := by
  simp [leafSum, leaves]

/-- One level deeper every leaf costs its count once more. -/
theorem Tree.weightedLength_succ (t : Tree) (d : Nat) :
    t.weightedLength count (d + 1) = t.weightedLength count d + t.leafSum count := by
  induction t generalizing d with
  | leaf x => simp [weightedLength, leafSum, leaves, Nat.mul_succ]
  | node l r ihl ihr =>
    rw [weightedLength, weightedLength, ihl, ihr, leafSum_node]
    omega

/-- Joining two trees costs the counts of all their leaves. -/
theorem Tree.weightedLength_node (l r : Tree) : (Tree.node l r).weightedLength count 0 =
    l.weightedLength count 0 + r.weightedLength count 0 + (Tree.node l r).leafSum count := by
  rw [weightedLength, weightedLength_succ, weightedLength_succ, leafSum_node]
  omega

/-- The weighted lengths inside the trees of a forest. -/
def forestCost (count : Sym → Nat) (ts : List Tree) : Nat := (ts.map (Tree.weightedLength count 0)).sum

/-- However the symbols `xs` are coded, the trees `ts` can be coded as well so that they cost no more in all: the codes
of the trees, given as pairs of a leaf sum and a length, and what the trees cost inside. -/
def NoWorse (count : Sym → Nat) (xs : List Sym) (ts : List Tree) : Prop :=
  ∀ (N : Nat) (len : Sym → Nat), Kraft N (xs.map len) →
    ∃ p : Multiset (Nat × Nat), p.map Prod.fst = ts.map (Tree.leafSum count) ∧
      Kraft N (p.map Prod.snd) ∧ forestCost count ts + lengthCost p ≤ (xs.map fun x => count x * len x).sum

variable {xs : List Sym}

/-- A forest of single leaves costs what its symbols do. -/
theorem noWorse_leaves : NoWorse count xs (xs.map Tree.leaf) := by
  intro N len h
  have hinside : forestCost count (xs.map Tree.leaf) = 0 := by
    simp [forestCost, Function.comp_def, Tree.weightedLength]
  refine ⟨xs.map fun x => (count x, len x), ?_, by simpa [Function.comp_def] using h, ?_⟩
  · simp [Tree.leafSum, Tree.leaves, Function.comp_def]
  · simp [hinside, lengthCost, Function.comp_def]

theorem NoWorse.perm {ts us : List Tree} (h : NoWorse count xs ts) (hperm : us.Perm ts) : NoWorse count xs us := by
  intro N len hk
  obtain ⟨p, hfst, hsnd, hcost⟩ := h N len hk
  have hinside : forestCost count us = forestCost count ts := (hperm.map _).sum_eq
  exact ⟨p, by rw [hfst, Multiset.coe_eq_coe.mpr (hperm.map _)], hsnd, hinside ▸ hcost⟩

/-- Joining the two trees with the smallest leaf sums keeps the forest optimal. -/
theorem NoWorse.join {ta tb : Tree} {ts : List Tree} (h : NoWorse count xs (ta :: tb :: ts))
    (hab : ta.leafSum count ≤ tb.leafSum count) (hb : ∀ t ∈ ts, tb.leafSum count ≤ t.leafSum count) :
    NoWorse count xs (.node ta tb :: ts) := by
  intro N len hk
  obtain ⟨p, hfst, hsnd, hcost⟩ := h N len hk
  simp only [List.map_cons, ← Multiset.cons_coe] at hfst
  obtain ⟨k₁, p₁, rfl, hfst₁⟩ := exists_cons_of_map_fst hfst
  obtain ⟨k₂, p₂, rfl, hfst₂⟩ := exists_cons_of_map_fst hfst₁
  have hmin : ∀ e ∈ p₂, tb.leafSum count ≤ e.1 := fun e he => by
    have hmem : e.1 ∈ (ts.map (Tree.leafSum count) : Multiset Nat) := hfst₂ ▸ Multiset.mem_map_of_mem Prod.fst he
    obtain ⟨t, ht, heq⟩ := List.mem_map.mp (Multiset.mem_coe.mp hmem)
    exact heq ▸ hb t ht
  simp only [Multiset.map_cons] at hsnd
  obtain ⟨k, p₃, hfst₃, hkraft, hjoined⟩ := exists_joined hsnd hab hmin
  refine ⟨((Tree.node ta tb).leafSum count, k) ::ₘ p₃, ?_, by simpa using hkraft, ?_⟩
  · rw [Multiset.map_cons, hfst₃, hfst₂, List.map_cons, Multiset.cons_coe]
  · simp only [forestCost, List.map_cons, List.sum_cons, lengthCost_cons, Tree.weightedLength_node,
      Tree.leafSum_node] at hcost ⊢
    omega

/-- A single tree that is left is optimal. -/
theorem NoWorse.weightedLength_le {T : Tree} (h : NoWorse count xs [T]) {N : Nat} {len : Sym → Nat}
    (hk : Kraft N (xs.map len)) :
    T.weightedLength count 0 ≤ (xs.map fun x => count x * len x).sum := by
  obtain ⟨p, -, -, hcost⟩ := h N len hk
  simp only [forestCost, List.map_cons, List.map_nil, List.sum_cons, List.sum_nil] at hcost
  omega

end

end Sys2Proof.Machine
end

