-- ==== Sys2Proof/Proofs/BuiltStore.lean ====
section
/-! PROOF. What BUILD puts into the node store (R130, R131, R133): the leaves in symbol order, above them internal nodes
with exact weights, and trees that stay optimal, since `RemoveMin` takes the smallest weights. -/

namespace Sys2Proof.Machine

/-! ## The entries -/

/-- What BUILD leaves at index `i`: the leaf of the symbol at place `i` of `xs`, or, above the leaves, an internal node
over earlier nodes that weighs what they do (R130). -/
def BuiltEntry (count : Sym → Nat) (xs : List Sym) (node : Vector Node 513) (i : NodeIdx) : Prop :=
  (∃ x w, xs[i.val]? = some x ∧ node[i] = .leaf x w ∧ w.toNat = count x) ∨
  (xs.length ≤ i.val ∧ ∃ w l r, node[i] = .internal w l r ∧ l.val < i.val ∧ r.val < i.val ∧
    w.toNat = (nodeWeight node[l]).toNat + (nodeWeight node[r]).toNat)

/-- The queue holds the roots of the stored trees `ts`, the last of them being the node allocated last, and every entry
allocated is as BUILD leaves it. -/
structure Grove (count : Sym → Nat) (xs : List Sym) (ts : List Tree) (s : State) : Prop where
  stored : QueueStores s s.pq ts
  last : ∀ i ∈ s.pq.getLast?, i.val + 1 = s.ncount.val
  entries : ∀ i : NodeIdx, i.val < s.ncount.val → BuiltEntry count xs s.node i

section
variable {count : Sym → Nat} {xs : List Sym} {s : State}

/-- An entry depends on the entries up to it alone. -/
theorem BuiltEntry.congr {node node' : Vector Node 513} {i : NodeIdx} (h : BuiltEntry count xs node i)
    (hsame : ∀ j : NodeIdx, j.val ≤ i.val → node'[j] = node[j]) : BuiltEntry count xs node' i := by
  obtain ⟨x, w, hx, hn, hw⟩ | ⟨hi, w, l, r, hn, hl, hr, hw⟩ := h
  · exact .inl ⟨x, w, hx, (hsame i le_rfl).trans hn, hw⟩
  · exact .inr ⟨hi, w, l, r, (hsame i le_rfl).trans hn, hl, hr, by rw [hsame l hl.le, hsame r hr.le, hw]⟩

/-- A tree with the node just allocated as its root joins the queue. -/
theorem Grove.push {ts : List Tree} {t : Tree} {nd : Node} (hq : QueueStores s s.pq ts)
    (hentries : ∀ i : NodeIdx, i.val < s.ncount.val → BuiltEntry count xs s.node i) (h : s.ncount.val < 513)
    (ht : Stores (withNode nd s h).node t (withNode nd s h).ncount.val ⟨s.ncount.val, h⟩)
    (hnew : BuiltEntry count xs (withNode nd s h).node ⟨s.ncount.val, h⟩) :
    Grove count xs (ts ++ [t]) (enqueued nd s h) := by
  refine ⟨hq.push h ht, fun i hi => ?_, fun i hi => ?_⟩
  · obtain rfl : ⟨s.ncount.val, h⟩ = i := by simpa [enqueued] using hi
    rfl
  · by_cases hi' : i.val < s.ncount.val
    · exact (hentries i hi').congr fun j hj => withNode_getElem_of_lt h (by omega)
    · obtain rfl : i = ⟨s.ncount.val, h⟩ := Fin.ext (by
        have : i.val < s.ncount.val + 1 := hi
        simp only
        omega)
      exact hnew

/-- A stored tree's root weighs the sum of the counts of its leaves (R133). -/
theorem Stores.weight_eq {t : Tree} {n : Nat} {i : NodeIdx} (h : Stores s.node t n i)
    (hentries : ∀ j : NodeIdx, j.val < n → BuiltEntry count xs s.node j) :
    (nodeWeight s.node[i]).toNat = t.leafSum count := by
  induction t generalizing n i with
  | leaf x =>
    obtain ⟨hi, w, hn⟩ := h
    obtain ⟨x', w', -, hn', hw⟩ | ⟨-, w', l, r, hn', -⟩ := hentries i hi
    · obtain ⟨rfl, rfl⟩ : x = x' ∧ w = w' := by simpa [hn] using hn'
      simp [hn, nodeWeight, hw, Tree.leafSum, Tree.leaves]
    · simp [hn] at hn'
  | node tl tr ihl ihr =>
    obtain ⟨hi, w, l, r, hn, hl, hr⟩ := h
    have hbelow : ∀ j : NodeIdx, j.val < i.val → BuiltEntry count xs s.node j := fun j hj => hentries j (hj.trans hi)
    obtain ⟨x', w', -, hn', hw⟩ | ⟨-, w', l', r', hn', -, -, hw⟩ := hentries i hi
    · simp [hn] at hn'
    · obtain ⟨rfl, rfl, rfl⟩ : w = w' ∧ l = l' ∧ r = r' := by simpa [hn] using hn'
      rw [hn, nodeWeight, hw, ihl hl hbelow, ihr hr hbelow, Tree.leafSum_node]

/-! ## The first loop -/

/-- Putting a node into the queue allocates it, unless the store is full. -/
theorem enqueue_cases (nd : Node) (s : State) :
    (∃ h, enqueue nd s = .ok (enqueued nd s h)) ∨ enqueue nd s = .stuck .nodeStoreFull := by
  by_cases h : s.ncount.val < 513
  · exact .inl ⟨h, enqueue_eq_enqueued nd h⟩
  · exact .inr (by simp [enqueue, alloc, h])

/-- The first loop makes a leaf of each symbol with a non-zero count, in the order given (R130). -/
theorem buildLeaves_grove {ys zs : List Sym} (hcount : ∀ x, count x = (ftRead s x).toNat)
    (hxs : xs = ys ++ zs.filter fun x => ftRead s x ≠ 0) (hg : Grove count xs (ys.map .leaf) s)
    (hn : s.ncount.val = ys.length) :
    (buildLeaves zs s).Meets (fun t => Grove count xs (xs.map .leaf) t ∧ t.ncount.val = xs.length)
      fun _ _ => True := by
  induction zs generalizing s ys with
  | nil =>
    rw [List.filter_nil, List.append_nil] at hxs
    subst hxs
    exact ⟨hg, hn⟩
  | cons x zs ih =>
    rw [buildLeaves]
    split
    case isTrue hx => exact ih hcount (by simpa [hx] using hxs) hg hn
    case isFalse hx =>
      obtain ⟨h, e⟩ | e := enqueue_cases (.leaf x ((ftRead s x).setWidth 41)) s <;> rw [e]
      · have hfilter : (x :: zs).filter (fun y => ftRead s y ≠ 0) = x :: zs.filter fun y => ftRead s y ≠ 0 :=
          List.filter_cons_of_pos (decide_eq_true hx)
        rw [hfilter, List.append_cons] at hxs
        have hplace : xs[s.ncount.val]? = some x := by simp [hxs, hn]
        have hweight : ((ftRead s x).setWidth 41).toNat = count x := by
          have := (ftRead s x).isLt
          rw [BitVec.toNat_setWidth, hcount, Nat.mod_eq_of_lt (by omega)]
        have hnew : Grove count xs ((ys ++ [x]).map .leaf) (enqueued (.leaf x ((ftRead s x).setWidth 41)) s h) := by
          rw [List.map_append]
          exact Grove.push hg.stored hg.entries h (stores_withNode_leaf x _ h)
            (.inl ⟨x, _, hplace, withNode_getElem_new h, hweight⟩)
        exact ih hcount hxs hnew (by simp [enqueued, withNode_ncount, hn])
      · trivial

/-! ## The second loop -/

/-- What the second loop keeps: the leaves of the trees in the queue are `xs`, all allocated, and the trees are
optimal. -/
def HuffmanGrove (count : Sym → Nat) (xs : List Sym) (s : State) : Prop :=
  xs.length ≤ s.ncount.val ∧ ∃ ts, Grove count xs ts s ∧ (ts.flatMap Tree.leaves).Perm xs ∧ NoWorse count xs ts

theorem weight_le_of_nodeKey_le {node : Vector Node 513} {a b : NodeIdx} (h : nodeKey node a ≤ nodeKey node b) :
    (nodeWeight node[a]).toNat ≤ (nodeWeight node[b]).toNat := by
  obtain h | ⟨h, -⟩ := Prod.Lex.toLex_le_toLex.mp h
  · exact h.le
  · exact h.le

/-- The weights in the queue are the leaf sums of the trees. -/
theorem QueueStores.map_weight {q : List NodeIdx} {ts : List Tree} (hq : QueueStores s q ts)
    (hentries : ∀ i : NodeIdx, i.val < s.ncount.val → BuiltEntry count xs s.node i) :
    q.map (fun i => (nodeWeight s.node[i]).toNat) = ts.map (Tree.leafSum count) := by
  induction hq with
  | nil => rfl
  | cons hi _ ih => rw [List.map_cons, List.map_cons, ih, hi.weight_eq hentries]

/-- What `RemoveMin` answers, if it does: an index that weighs least, and the rest. -/
theorem removeMin_eq_some {node : Vector Node 513} {q q' : List NodeIdx} {a : NodeIdx}
    (h : removeMin node q = some (a, q')) :
    (a :: q').Perm q ∧ ∀ j ∈ q', (nodeWeight node[a]).toNat ≤ (nodeWeight node[j]).toNat := by
  have hne : q ≠ [] := by
    rintro rfl
    cases h
  obtain ⟨i, rest, hremove, hperm, hleast⟩ := removeMin_spec (node := node) hne
  obtain ⟨rfl, rfl⟩ : a = i ∧ q' = rest := by simpa [h] using hremove
  exact ⟨hperm, fun j hj => weight_le_of_nodeKey_le (hleast j (hperm.subset (List.mem_cons_of_mem a hj)))⟩

/-- Joining two trees, of all those whose leaves are `xs`, makes no weight too great for its 41 bits (R133). -/
theorem leafSum_add_le {ta tb : Tree} {ts : List Tree} (h : ((ta :: tb :: ts).flatMap Tree.leaves).Perm xs) :
    ta.leafSum count + tb.leafSum count ≤ (xs.map count).sum := by
  rw [← (h.map count).sum_eq]
  simp only [List.flatMap_cons, List.map_append, List.sum_append, Tree.leafSum]
  omega

/-- A round of the second loop joins the two trees that weigh least (R130, R131). -/
theorem HuffmanGrove.round {a b : NodeIdx} {q₁ q₂ : List NodeIdx} (hs : HuffmanGrove count xs s)
    (hbound : (xs.map count).sum < 2 ^ 41) (ha : removeMin s.node s.pq = some (a, q₁))
    (hb : removeMin s.node q₁ = some (b, q₂)) (h : s.ncount.val < 513) :
    HuffmanGrove count xs (enqueued (.internal (nodeWeight s.node[a] + nodeWeight s.node[b]) a b)
      { s with pq := q₂ } h) := by
  obtain ⟨hlen, ts, ⟨hq, -, hentries⟩, hleaves, hno⟩ := hs
  obtain ⟨hperm₁, hleast₁⟩ := removeMin_eq_some ha
  obtain ⟨hperm₂, hleast₂⟩ := removeMin_eq_some hb
  obtain ⟨us, hus, husts⟩ := List.perm_comp_forall₂ ((hperm₂.cons a).trans hperm₁) hq
  obtain ⟨ta, us, hta, hbus, rfl⟩ := List.forall₂_cons_left_iff.mp hus
  obtain ⟨tb, us, htb, hrest, rfl⟩ := List.forall₂_cons_left_iff.mp hbus
  have hwa := hta.weight_eq hentries
  have hwb := htb.weight_eq hentries
  have hleaves' := (husts.flatMap_right Tree.leaves).trans hleaves
  have hab : ta.leafSum count ≤ tb.leafSum count := by
    rw [← hwa, ← hwb]
    exact hleast₁ b (hperm₂.subset (List.mem_cons_self ..))
  have hmin : ∀ t ∈ us, tb.leafSum count ≤ t.leafSum count := fun t ht => by
    have hmem := List.mem_map_of_mem (f := Tree.leafSum count) ht
    rw [← QueueStores.map_weight hrest hentries] at hmem
    obtain ⟨j, hj, heq⟩ := List.mem_map.mp hmem
    rw [← heq, ← hwb]
    exact hleast₂ j hj
  have hweight : (nodeWeight s.node[a] + nodeWeight s.node[b]).toNat =
      (nodeWeight s.node[a]).toNat + (nodeWeight s.node[b]).toNat := by
    have hle : ta.leafSum count + tb.leafSum count ≤ (xs.map count).sum := leafSum_add_le hleaves'
    rw [BitVec.toNat_add, hwa, hwb, Nat.mod_eq_of_lt (by omega)]
  have hkept (i : NodeIdx) (hi : i.val < s.ncount.val) (nd : Node) :
      (withNode nd { s with pq := q₂ } h).node[i] = s.node[i] := withNode_getElem_of_lt (s := { s with pq := q₂ }) h hi
  refine ⟨Nat.le_succ_of_le hlen, us ++ [.node ta tb], ?_, ?_, ?_⟩
  · refine Grove.push (s := { s with pq := q₂ }) hrest hentries h (stores_withNode_internal _ hta htb h)
      (.inr ⟨hlen, _, a, b, withNode_getElem_new (s := { s with pq := q₂ }) h, hta.val_lt, htb.val_lt, ?_⟩)
    rw [hkept a hta.val_lt, hkept b htb.val_lt, hweight]
  · refine List.Perm.trans ?_ hleaves'
    simpa [Tree.leaves] using List.perm_append_comm (l₁ := us.flatMap Tree.leaves) (l₂ := ta.leaves ++ tb.leaves)
  · exact ((hno.perm husts).join hab hmin).perm (List.perm_append_singleton _ us)

/-- The second loop keeps what a round of it does. -/
theorem combineLoop_huffman (k : Nat) (hs : HuffmanGrove count xs s) (hbound : (xs.map count).sum < 2 ^ 41) :
    (combineLoop k s).Meets (HuffmanGrove count xs) fun _ _ => True := by
  induction k generalizing s with
  | zero => exact hs
  | succ k ih =>
    rw [combineLoop]
    split
    · exact hs
    case h_2 a q₁ ha =>
      split
      · exact hs
      case h_2 b q₂ hb =>
        obtain ⟨h, e⟩ | e := enqueue_cases (.internal (nodeWeight s.node[a] + nodeWeight s.node[b]) a b)
          { s with pq := q₂ } <;> rw [e]
        · exact ih (hs.round hbound ha hb h)
        · trivial

end

end Sys2Proof.Machine
end

