-- ==== Sys2Proof/Proofs/Build.lean ====
section
/-! PROOF. BUILD on a ready block: its node store, its tree, the root's weight and the tree's optimality (R130 to
R134). -/

namespace Sys2Proof.Machine

/-! ## Counts -/

/-- The count of a symbol as a number (R22, R23). -/
def countOf (s : State) (x : Sym) : Nat := (ftRead s x).toNat

section
variable {s : State}

/-- A sum over all symbols is one over those with a non-zero count, if the others add nothing. -/
theorem sum_usedSymbols {f : Sym → Nat} (hf : ∀ x, ftRead s x = 0 → f x = 0) :
    ((usedSymbols s).map f).sum = ((List.finRange 257).map f).sum := by
  rw [usedSymbols]
  induction List.finRange 257 with
  | nil => rfl
  | cons x xs ih =>
    by_cases hx : ftRead s x = 0
    · rw [List.filter_cons_of_neg (by simpa using hx), ih, List.map_cons, List.sum_cons, hf x hx, Nat.zero_add]
    · rw [List.filter_cons_of_pos (by simpa using hx), List.map_cons, List.sum_cons, ih, List.map_cons, List.sum_cons]

theorem countOf_eq_zero {x : Sym} (h : ftRead s x = 0) : countOf s x = 0 := by
  simp [countOf, h]

/-- The counts of the used symbols add up to all the counts (R133). -/
theorem sum_countOf_usedSymbols (s : State) : ((usedSymbols s).map (countOf s)).sum = totalCount s :=
  sum_usedSymbols fun _ => countOf_eq_zero

theorem totalCount_eq (s : State) : totalCount s = ((List.finRange 257).map (countOf s)).sum := rfl

theorem sum_countOf_le (s : State) (xs : List Sym) : (xs.map (countOf s)).sum ≤ xs.length * (2 ^ 32 - 1) := by
  induction xs with
  | nil => simp
  | cons x xs ih =>
    have hx : countOf s x < 2 ^ 32 := (ftRead s x).isLt
    rw [List.map_cons, List.sum_cons, List.length_cons]
    omega

/-- 257 counts of 32 bits add up to less than 41 bits hold (R133). -/
theorem totalCount_lt (s : State) : totalCount s < 2 ^ 41 := by
  have hle := sum_countOf_le s (List.finRange 257)
  simp only [List.length_finRange] at hle
  rw [← totalCount_eq] at hle
  omega

theorem ftRead_bne_zero (s : State) (x : Sym) : (ftRead s x != 0) = decide (ftRead s x ≠ 0) := by
  rw [bne, Bool.beq_eq_decide_eq, decide_not]

theorem usedSymbols_length (s : State) : (usedSymbols s).length = symbolCount s := by
  simp only [usedSymbols, symbolCount, List.countP_eq_length_filter, ftRead_bne_zero]

/-- In an ascending list the place of an element is the number of smaller ones. -/
theorem eq_countP_lt_of_pairwise {l : List Sym} (hl : l.Pairwise (· < ·)) {n : Nat} {x : Sym} (hx : l[n]? = some x) :
    n = l.countP fun y => decide (y < x) := by
  induction l generalizing n with
  | nil => simp at hx
  | cons y l ih =>
    obtain ⟨hy, hl⟩ := List.pairwise_cons.mp hl
    cases n with
    | zero =>
      obtain rfl : y = x := by simpa using hx
      have hnone : l.countP (fun z => decide (z < y)) = 0 := by
        simpa [List.countP_eq_zero] using fun z hz => (hy z hz).le
      simp [hnone]
    | succ n =>
      rw [List.getElem?_cons_succ] at hx
      have hlt : y < x := hy x (List.mem_of_getElem? hx)
      rw [List.countP_cons_of_pos (by simpa using hlt), ← ih hl hx]

/-- The place of a used symbol is the number of smaller ones (R130). -/
theorem usedSymbols_place {n : Nat} {x : Sym} (hx : (usedSymbols s)[n]? = some x) :
    n = (List.finRange 257).countP fun y => ftRead s y != 0 && decide (y < x) := by
  have hsorted : (usedSymbols s).Pairwise (· < ·) := (List.pairwise_lt_finRange 257).filter _
  rw [eq_countP_lt_of_pairwise hsorted hx, usedSymbols, List.countP_filter]
  simp only [ftRead_bne_zero, Bool.and_comm]

end

/-! ## The body -/

/-- What BUILD, started in `s`, leaves in `t`: the tree `T`, stored over leaves for the used symbols in order, its root
last, and optimal. -/
structure BuiltTree (s t : State) (T : Tree) : Prop where
  stored : Stores t.node T t.ncount.val t.root
  leaves : T.leaves.Perm (usedSymbols s)
  root_last : t.root.val + 1 = t.ncount.val
  count : t.ncount.val + 1 = 2 * (usedSymbols s).length
  entries : ∀ i : NodeIdx, i.val < t.ncount.val → BuiltEntry (countOf s) (usedSymbols s) t.node i
  optimal : NoWorse (countOf s) (usedSymbols s) [T]

theorem used_ne_nil (s : State) : usedSymbols s ≠ [] :=
  List.ne_nil_of_mem (mem_usedSymbols.mpr (by simp : ftRead s Config.eos ≠ 0))

theorem usedSymbols_length_le (s : State) : (usedSymbols s).length ≤ 257 := by
  simpa using (usedSymbols_nodup s).length_le_card

/-- The body of BUILD always completes, and leaves such a tree (R130). -/
theorem bodyBuild_builtTree (s : State) : ∃ t T, bodyBuild s = .ok t ∧ BuiltTree s t T := by
  let s₀ : State := { s with ctValid := false, ncount := 0, pq := [] }
  have hbound : ((usedSymbols s).map (countOf s)).sum < 2 ^ 41 := by
    rw [sum_countOf_usedSymbols]
    exact totalCount_lt s
  obtain ⟨s₁, hs₁, hf₁⟩ := buildLeaves_forest (xs := List.finRange 257) (s := s₀) (ys := [])
    ⟨⟨[], .nil, .refl []⟩, rfl⟩ (by simp)
  rw [List.nil_append] at hf₁
  obtain ⟨hg₁, hn₁⟩ := (buildLeaves_grove (count := countOf s) (xs := usedSymbols s) (s := s₀) (ys := [])
    (zs := List.finRange 257) (fun _ => rfl) rfl ⟨.nil, by simp [s₀], by simp [s₀]⟩ rfl).of_ok hs₁
  have hh₁ : HuffmanGrove (countOf s) (usedSymbols s) s₁ :=
    ⟨hn₁.ge, _, hg₁, by simp [List.flatMap_map, Tree.leaves], noWorse_leaves⟩
  obtain ⟨s₂, hs₂, hf₂, hone⟩ := combineLoop_forest s₁.pq.length hf₁ (usedSymbols_length_le s) (Nat.le_succ _)
  obtain ⟨-, ts, ⟨hq, hlast, hentries⟩, hleaves, hno⟩ := (combineLoop_huffman _ hh₁ hbound).of_ok hs₂
  obtain ⟨r, hr⟩ := (eq_nil_or_eq_singleton hone).resolve_left (hf₂.pq_ne_nil (used_ne_nil s))
  rw [hr] at hq
  obtain ⟨T, us, hT, hus, rfl⟩ := List.forall₂_cons_left_iff.mp hq
  obtain rfl := List.forall₂_nil_left_iff.mp hus
  let t : State := { s₂ with root := r, treeValid := true, pq := [] }
  have hbody : bodyBuild s = .ok t := by
    rw [bodyBuild, hs₁, ok_bind, hs₂, ok_bind, takeRoot, hr]
  have hcount := hf₂.count
  rw [hr, List.length_singleton] at hcount
  exact ⟨t, T, hbody, hT, by simpa using hleaves, hlast r (by simp [hr]), hcount, hentries, hno⟩

section
variable {s t : State} {T : Tree}

/-- BUILD's store is well-formed (R25, R130). -/
theorem BuiltTree.treeWf (h : BuiltTree s t T) : TreeWf t := by
  obtain ⟨hstored, hleaves, hroot, hcount, hentries, -⟩ := h
  refine hstored.treeWf (hleaves.nodup_iff.mpr (usedSymbols_nodup s)) (by rw [hleaves.length_eq, hcount]) hroot
    fun i w l r hi hn => ?_
  obtain ⟨x, w', -, hn', -⟩ | ⟨-, w', l', r', hn', -, -, hw⟩ := hentries i hi
  · simp [hn] at hn'
  · obtain ⟨rfl, rfl, rfl⟩ : w = w' ∧ l = l' ∧ r = r' := by simpa [hn] using hn'
    exact hw

/-- A leaf of BUILD's store is that of a used symbol, at the symbol's place (R130). -/
theorem BuiltTree.leaf (h : BuiltTree s t T) {i : NodeIdx} {x : Sym} {w : Weight} (hi : i.val < t.ncount.val)
    (hn : t.node[i] = .leaf x w) : (usedSymbols s)[i.val]? = some x ∧ w.toNat = countOf s x := by
  obtain ⟨x', w', hx, hn', hw⟩ | ⟨-, w', l, r, hn', -⟩ := h.entries i hi
  · obtain ⟨rfl, rfl⟩ : x = x' ∧ w = w' := by simpa [hn] using hn'
    exact ⟨hx, hw⟩
  · simp [hn] at hn'

/-- Every used symbol has a leaf in BUILD's store (R130). -/
theorem BuiltTree.exists_leaf (h : BuiltTree s t T) {x : Sym} (hx : x ∈ usedSymbols s) :
    ∃ (i : NodeIdx) (w : Weight), i.val < t.ncount.val ∧ t.node[i] = .leaf x w := by
  obtain ⟨p, hp⟩ := Option.isSome_iff_exists.mp ((T.path_isSome_iff x).mpr (h.leaves.mem_iff.mpr hx))
  obtain ⟨c, w, hc, hn⟩ := nodeAlong_path h.stored.treeAt hp
  exact ⟨c, w, nodeAlong_root_lt_ncount h.treeWf hc, hn⟩

/-- The root weighs all the counts together (R133). -/
theorem BuiltTree.root_weight (h : BuiltTree s t T) : (nodeWeight t.node[t.root]).toNat = totalCount s := by
  rw [h.stored.weight_eq h.entries, Tree.leafSum, (h.leaves.map _).sum_eq, sum_countOf_usedSymbols]

/-- No code of the used symbols of which none starts another costs less than BUILD's tree (R134). -/
theorem BuiltTree.weightedLength_le (h : BuiltTree s t T) {c : Sym → List Bool}
    (hfree : ∀ x y : Sym, x ≠ y → ftRead s x ≠ 0 → ftRead s y ≠ 0 → ¬ c x <+: c y) :
    T.weightedLength (countOf s) 0 ≤ ((List.finRange 257).map fun x => countOf s x * (c x).length).sum := by
  have hkraft := kraft_of_prefixFree (N := ((usedSymbols s).map fun x => (c x).length).sum) (usedSymbols_nodup s)
    (fun x hx y hy hne => hfree x y hne (mem_usedSymbols.mp hx) (mem_usedSymbols.mp hy))
    fun x hx => List.le_sum_of_mem (List.mem_map_of_mem hx)
  rw [← sum_usedSymbols (s := s) fun x hx => by rw [countOf_eq_zero hx, Nat.zero_mul]]
  exact h.optimal.weightedLength_le hkraft

end

/-! ## The command -/

/-- BUILD on a ready block (R130, R214). -/
theorem exec_build {s : State} (hs : Ready s) : ∃ t T, exec .build s = .next t ∧ BuiltTree s t T ∧
    t = { s with node := t.node, ncount := t.ncount, root := t.root, treeValid := true, ctValid := false,
                 done := true } := by
  obtain ⟨u, T, hbody, hbuilt⟩ := bodyBuild_builtTree (accept s)
  have hexec := exec_ready (i := .build) rfl (by decide) hs (failedNeed_needsNothing s)
  rw [bodyOf, hbody, finish] at hexec
  refine ⟨complete u, T, hexec, ⟨hbuilt.stored, hbuilt.leaves, hbuilt.root_last, hbuilt.count, hbuilt.entries,
    hbuilt.optimal⟩, ?_⟩
  have hframe := (bodyBuild_frame (accept s)).of_ok hbody
  obtain ⟨⟨hbusy, hpq, hhdr⟩, -⟩ := hs
  rw [hframe]
  simp only [complete, accept, hbusy, hpq, hhdr]

/-- What BUILD leaves when it answers. -/
theorem builtTree_of_exec {s t : State} (hs : Ready s) (h : exec .build s = .next t) : ∃ T, BuiltTree s t T := by
  obtain ⟨u, T, hexec, hbuilt, -⟩ := exec_build hs
  obtain rfl : u = t := by simpa [h] using hexec.symm
  exact ⟨T, hbuilt⟩

/-- Settles O20: the store has an entry for each node of a tree with a leaf for each used symbol. -/
theorem buildAllocatesTwoLMinusOneNodes : Obligations.BuildAllocatesTwoLMinusOneNodes := by
  intro s hs
  obtain ⟨t, T, hexec, hbuilt, hframe⟩ := exec_build hs
  have hcount := hbuilt.count
  have hlast := hbuilt.root_last
  rw [usedSymbols_length] at hcount
  exact ⟨t, hexec, hframe, by omega, by omega⟩

/-- Settles O21: the leaves were allocated first, one for each used symbol in ascending order. -/
theorem buildEstablishesTheTree : Obligations.BuildEstablishesTheTree := by
  intro s t hs h
  obtain ⟨T, hbuilt⟩ := builtTree_of_exec hs h
  refine ⟨hbuilt.treeWf, fun i x w hi hn => ?_, fun x hx => hbuilt.exists_leaf (mem_usedSymbols.mpr hx)⟩
  obtain ⟨hplace, hw⟩ := hbuilt.leaf hi hn
  exact ⟨mem_usedSymbols.mp (List.mem_of_getElem? hplace), hw, usedSymbols_place hplace⟩

/-- Settles O22: every internal node weighs what its children do, without overflow. -/
theorem buildRootWeighsTheTotal : Obligations.BuildRootWeighsTheTotal := by
  intro s t hs h
  obtain ⟨T, hbuilt⟩ := builtTree_of_exec hs h
  exact ⟨hbuilt.root_weight, totalCount_lt s⟩

/-- Settles O23: the queue's trees stay optimal under every round of the second loop, by the exchange argument. -/
theorem buildTreeIsOptimal : Obligations.BuildTreeIsOptimal := by
  intro s t hs h
  obtain ⟨T, hbuilt⟩ := builtTree_of_exec hs h
  exact ⟨T, hbuilt.stored.treeOf, fun c => hbuilt.weightedLength_le⟩

end Sys2Proof.Machine
end

