-- ==== Sys2Proof/Proofs/TokenRun.lean ====
section
/-! PROOF. The run of the header tokens without its bound: enough passes are as good as any (R152, R153, R157). -/

namespace Sys2Proof.Machine

/-- What is left to read starts with a token, ends inside one, or is nothing at all (R96, R153). -/
theorem unread_token_cases (s : State) : unread s = [] ∨ (∃ q, unread s = true :: q ∧ q.length < 9) ∨
    ∃ k rest, unread s = encodeToken k ++ rest := by
  cases hu : unread s with
  | nil => exact .inl rfl
  | cons b q =>
    cases b with
    | false => exact .inr (.inr ⟨.internal, q, rfl⟩)
    | true =>
      by_cases hq : q.length < 9
      · exact .inr (.inl ⟨q, rfl, hq⟩)
      · have hlength : (q.take 9).length = 9 := by simp; omega
        have hvalue : valMSB (q.take 9) < 2 ^ 9 := by have := valMSB_lt (q.take 9); rwa [hlength] at this
        have hbits : bitsMSB 9 (BitVec.ofNat 9 (valMSB (q.take 9))).toNat = q.take 9 := by
          rw [BitVec.toNat_ofNat, Nat.mod_eq_of_lt hvalue]
          have := bitsMSB_valMSB (q.take 9)
          rwa [hlength] at this
        refine .inr (.inr ⟨.leaf (BitVec.ofNat 9 (valMSB (q.take 9))), q.drop 9, ?_⟩)
        rw [encodeToken, hbits, List.cons_append, List.take_append_drop]

/-- The run of the header tokens over all the bits left. -/
def readRest (s : State) : Result State := readTokens (bitsLeft s) s

/-- What RD_HEADER does after a token: it reads on while the header is open (R152). -/
def readOnRest (s : State) : Result State := if s.hdr.isSome then readRest s else .ok s

theorem bodyRdHeader_eq_readRest (s : State) : bodyRdHeader s = readRest (startHeader s) := rfl

section
variable {s : State}

theorem fetchToken_eofTag (h : unread s = []) : fetchToken s = .error (.eofTag, s) := by
  simp [fetchToken, h, decodeToken]

theorem fetchToken_eofSymbol {q : List Bool} (h : unread s = true :: q) (hq : q.length < 9) :
    fetchToken s = .error (.eofSymbol, advance 1 s) := by
  simp [fetchToken, h, decodeToken, hq]

/-- A token's effect leaves the read position to the step (log entry 8). -/
theorem applyToken_input {k : HdrToken} {t : State} (h : applyToken k s = .ok t) : t.input = s.input := by
  obtain ⟨-, hinput, -⟩ := (applyToken_frame k s).of_ok h
  exact hinput

theorem encodeToken_length_pos (k : HdrToken) : 1 ≤ (encodeToken k).length := by
  cases k <;> simp [encodeToken]

theorem bitsLeft_advance (n : Nat) (s : State) : bitsLeft (advance n s) = bitsLeft s - n := by
  simp [bitsLeft_eq, unread_advance]

/-- With no bit left the run ends, however many tokens it may read (R153). -/
theorem readTokens_eofTag (k : Nat) (h : bitsLeft s = 0) : readTokens k s = .raised .eofTag s := by
  rw [bitsLeft_eq, List.length_eq_zero_iff] at h
  cases k with
  | zero => rfl
  | succ k => rw [readTokens, fetchToken_eofTag h]

/-- Any bounds that allow a token for each bit left give the same run: every token takes a bit. -/
theorem readTokens_bound_irrelevant {k m : Nat} (hk : bitsLeft s ≤ k) (hm : bitsLeft s ≤ m) :
    readTokens k s = readTokens m s := by
  induction k generalizing m s with
  | zero => rw [readTokens_eofTag 0 (by omega), readTokens_eofTag m (by omega)]
  | succ k ih =>
    cases m with
    | zero => rw [readTokens_eofTag (k + 1) (by omega), readTokens_eofTag 0 (by omega)]
    | succ m =>
      rw [readTokens, readTokens]
      obtain ⟨tk, n, hpos, hle, e⟩ | ⟨-, e⟩ | ⟨-, e⟩ := fetchToken_frame s <;> rw [e]
      simp only
      cases htoken : applyToken tk (advance n s) with
      | ok t =>
        have hbits : bitsLeft t = bitsLeft s - n := by
          rw [← bitsLeft_advance, bitsLeft, bitsLeft, applyToken_input htoken]
        simp only [ok_bind, ih (s := t) (m := m) (by omega) (by omega)]
      | _ => rfl

theorem readRest_eofTag (h : unread s = []) : readRest s = .raised .eofTag s := by
  rw [readRest, bitsLeft_eq, h]
  rfl

theorem readRest_eofSymbol {q : List Bool} (h : unread s = true :: q) (hq : q.length < 9) :
    readRest s = .raised .eofSymbol (advance 1 s) := by
  rw [readRest, bitsLeft_eq, h, List.length_cons, readTokens, fetchToken_eofSymbol h hq]

/-- The run reads a token, does what it does, and reads on (R152). -/
theorem readRest_token {k : HdrToken} {rest : List Bool} (h : unread s = encodeToken k ++ rest) :
    readRest s = (applyToken k (advance (encodeToken k).length s)).bind readOnRest := by
  have hpos := encodeToken_length_pos k
  have hbits : bitsLeft s = (encodeToken k).length + rest.length := by rw [bitsLeft_eq, h, List.length_append]
  obtain ⟨m, hm⟩ : ∃ m, bitsLeft s = m + 1 := ⟨bitsLeft s - 1, by omega⟩
  rw [readRest, hm, readTokens_encodeToken h]
  cases htoken : applyToken k (advance (encodeToken k).length s) with
  | ok t =>
    have hleft : bitsLeft t ≤ m := by
      rw [bitsLeft, applyToken_input htoken, ← bitsLeft, bitsLeft_advance]
      omega
    rw [ok_bind, ok_bind, readOn, readOnRest, readRest, readTokens_bound_irrelevant hleft le_rfl]
  | _ => rfl

end

end Sys2Proof.Machine
end

