-- ==== Sys2Proof/Proofs/HeaderRecursion.lean ====
section
/-! PROOF. The run of the token machine is the recursive pseudocode of R152: reading a subtree by recursion is what the
machine does from the subtree's first token until its root is handed on to the open nodes. -/

namespace Sys2Proof.Machine

/-! ## The recursion, one token at a time -/

section
variable {s : State} {d : Nat} {seen : Vector Bool 257} {rest : List Bool}

theorem inRead_tag {b : Bool} (h : unread s = b :: rest) : inRead 1 s = some (b.toNat, advance 1 s) := by
  have hread := inRead_append (q := [b]) h rfl
  simpa [valMSB] using hread

theorem rdNode_eofTag (h : unread s = []) : rdNode d seen s = .raised .eofTag s := by
  rw [rdNode.eq_def]
  simp only [inRead_short (n := 1) (s := s) (by simp [h])]

theorem rdNode_eofSymbol {q : List Bool} (h : unread s = true :: q) (hq : q.length < 9) :
    rdNode d seen s = .raised .eofSymbol (advance 1 s) := by
  have hshort : inRead 9 (advance 1 s) = none := inRead_short (by simpa [unread_advance, h] using hq)
  rw [rdNode.eq_def]
  simp [inRead_tag h, hshort]

/-- A leaf in the recursion: checked, then constructed and marked (R152). -/
def rdLeaf (seen : Vector Bool 257) (v : BitVec 9) (s : State) : Result (NodeIdx × Vector Bool 257 × State) :=
  match checkSymbol seen v with
  | .error f => .raised f s
  | .ok x => (alloc (.leaf x 0) s).bind fun (i, t) => .ok (i, seen.set x.val true, t)

theorem rdNode_leaf {v : BitVec 9} (h : unread s = encodeToken (.leaf v) ++ rest) :
    rdNode d seen s = rdLeaf seen v (advance 10 s) := by
  rw [encodeToken, List.cons_append] at h
  have hread : inRead 9 (advance 1 s) = some (v.toNat, advance 9 (advance 1 s)) :=
    inRead_bitVec (rest := rest) (by rw [unread_advance, h]; rfl)
  have hpast : advance 9 (advance 1 s) = advance 10 s := rfl
  rw [rdNode.eq_def]
  simp only [inRead_tag h, Bool.toNat_true, if_true, hread, hpast, rdLeaf, checkSymbol]
  by_cases hv : v.toNat < 257
  · by_cases hs : seen[v.toNat] = true <;> simp [hv, hs]
  · simp [hv]

theorem rdNode_zero_internal (h : unread s = false :: rest) : rdNode 0 seen s = .raised .tooDeep (advance 1 s) := by
  rw [rdNode.eq_def]
  simp [inRead_tag h]

theorem rdNode_succ_internal (h : unread s = false :: rest) :
    rdNode (d + 1) seen s = (rdNode d seen (advance 1 s)).bind fun (l, seen₁, s₁) =>
      (rdNode d seen₁ s₁).bind fun (r, seen₂, s₂) =>
        (alloc (.internal 0 l r) s₂).bind fun (i, s₃) => .ok (i, seen₂, s₃) := by
  rw [rdNode.eq_def]
  simp [inRead_tag h]

end

/-! ## The simulation -/

/-- What the machine does from `s`, the open nodes being `stack`, against what the recursion answers for the subtree
that begins there: it hands the subtree's root on and reads on, or it stops as the recursion does. -/
def Simulates (stack : List (Option NodeIdx)) (s : State) : Result (NodeIdx × Vector Bool 257 × State) → Prop
  | .ok (i, seen, u) => u.hdr = none ∧ readRest s = (closeSubtree seen stack i u).bind readOnRest
  | .raised f u => ∃ t, readRest s = .raised f t ∧ u = { t with hdr := none }
  | .refused x => readRest s = .refused x
  | .stuck x => readRest s = .stuck x

section
variable {s : State} {seen : Vector Bool 257} {stack : List (Option NodeIdx)}

theorem alloc_full {s : State} (nd : Node) (h : ¬ s.ncount.val < 513) : alloc nd s = .stuck .nodeStoreFull := by
  simp [alloc, h]

/-- A subtree read first, the rest of the recursion after it. -/
theorem Simulates.bind {stack stack' : List (Option NodeIdx)} {s s' : State}
    {r : Result (NodeIdx × Vector Bool 257 × State)}
    {g : NodeIdx × Vector Bool 257 × State → Result (NodeIdx × Vector Bool 257 × State)}
    (h : Simulates stack' s' r) (hrun : readRest s = readRest s')
    (hg : ∀ i seen u, u.hdr = none → readRest s = (closeSubtree seen stack' i u).bind readOnRest →
      Simulates stack s (g (i, seen, u))) : Simulates stack s (r.bind g) := by
  cases r with
  | ok a =>
    obtain ⟨hnone, h⟩ := h
    exact hg _ _ _ hnone (hrun.trans h)
  | raised f u =>
    obtain ⟨t, ht, hu⟩ := h
    exact ⟨t, hrun.trans ht, hu⟩
  | refused x => exact hrun.trans h
  | stuck x => exact hrun.trans h

/-- What is handed on replaces the working state of the header read. -/
theorem closeSubtree_hdr (seen : Vector Bool 257) (stack : List (Option NodeIdx)) (i : NodeIdx) (s : State)
    (h : Option HeaderRead) : closeSubtree seen stack i { s with hdr := h } = closeSubtree seen stack i s := by
  induction stack generalizing i s with
  | nil => rfl
  | cons o rest ih =>
    cases o with
    | none => rfl
    | some l =>
      by_cases hroom : s.ncount.val < 513
      · rw [closeSubtree, closeSubtree, alloc_eq_withNode _ hroom, alloc_eq_withNode (s := { s with hdr := h }) _ hroom]
        exact ih _ (withNode (.internal 0 l i) s hroom)
      · rw [closeSubtree, closeSubtree, alloc_full _ hroom, alloc_full (s := { s with hdr := h }) _ hroom]

/-- A leaf's token, the subtree being that leaf. -/
theorem simulates_leaf {v : BitVec 9} {rest : List Bool} (hhdr : s.hdr = some ⟨seen, stack⟩)
    (h : unread s = encodeToken (.leaf v) ++ rest) :
    Simulates stack s (rdLeaf seen v (advance 10 { s with hdr := none })) := by
  have hrun : readRest s = (readLeaf ⟨seen, stack⟩ v (advance 10 s)).bind readOnRest := by
    rw [readRest_token h, applyToken]
    simp [hhdr, encodeToken]
  rw [rdLeaf]
  cases hx : checkSymbol seen v with
  | error f => exact ⟨advance 10 s, by rw [hrun, readLeaf, hx, raised_bind], rfl⟩
  | ok x =>
    rw [readLeaf, hx] at hrun
    by_cases hroom : s.ncount.val < 513
    · simp only [alloc_eq_withNode (s := advance 10 s) _ hroom, ok_bind] at hrun
      simp only [alloc_eq_withNode (s := advance 10 { s with hdr := none }) _ hroom, ok_bind]
      have hhand := closeSubtree_hdr (seen.set x.val true) stack ⟨s.ncount.val, hroom⟩
        (withNode (.leaf x 0) (advance 10 s) hroom) none
      exact ⟨rfl, hrun.trans (congrArg (·.bind readOnRest) hhand.symm)⟩
    · simp only [alloc_full (s := advance 10 s) _ hroom, stuck_bind] at hrun
      simp only [alloc_full (s := advance 10 { s with hdr := none }) _ hroom, stuck_bind]
      exact hrun

/-- With the open node's left subtree and then its right one read, the node is constructed and handed on. -/
theorem simulates_internal {d : Nat} {rest : List Bool} (hhdr : s.hdr = some ⟨seen, stack⟩)
    (hdepth : stack.length < 256) (h : unread s = false :: rest)
    (ih : ∀ {s : State} {seen : Vector Bool 257} {o : Option NodeIdx}, s.hdr = some ⟨seen, o :: stack⟩ →
      Simulates (o :: stack) s (rdNode d seen { s with hdr := none })) :
    Simulates stack s (rdNode (d + 1) seen { s with hdr := none }) := by
  let s₀ : State := { advance 1 s with hdr := some ⟨seen, none :: stack⟩ }
  have hrun : readRest s = readRest s₀ := by
    rw [readRest_token (k := .internal) h]
    exact congrArg (·.bind readOnRest) (applyToken_internal (s := advance 1 s) hhdr hdepth)
  rw [rdNode_succ_internal (s := { s with hdr := none }) h]
  refine Simulates.bind (s' := s₀) (ih rfl) hrun fun l seen₁ u₁ hnone₁ hleft => ?_
  let s₁ : State := { u₁ with hdr := some ⟨seen₁, some l :: stack⟩ }
  have hu₁ : ({ s₁ with hdr := none } : State) = u₁ := by rw [← hnone₁]
  refine Simulates.bind (s' := s₁) (hu₁ ▸ ih (s := s₁) rfl) hleft fun r seen₂ u₂ hnone₂ hright => ?_
  rw [closeSubtree] at hright
  by_cases hroom : u₂.ncount.val < 513
  · simp only [alloc_eq_withNode _ hroom, ok_bind] at hright ⊢
    exact ⟨hnone₂, hright⟩
  · simp only [alloc_full _ hroom, stuck_bind] at hright ⊢
    exact hright

/-- A subtree that does not begin with the token HDR_INTERNAL, or not with a token at all. -/
theorem simulates_of_internal {d : Nat} (hhdr : s.hdr = some ⟨seen, stack⟩)
    (hinternal : ∀ rest, unread s = false :: rest → Simulates stack s (rdNode d seen { s with hdr := none })) :
    Simulates stack s (rdNode d seen { s with hdr := none }) := by
  obtain h | ⟨q, h, hq⟩ | ⟨k, rest, h⟩ := unread_token_cases s
  · exact rdNode_eofTag (s := { s with hdr := none }) h ▸ ⟨s, readRest_eofTag h, rfl⟩
  · exact rdNode_eofSymbol (s := { s with hdr := none }) h hq ▸ ⟨advance 1 s, readRest_eofSymbol h hq, rfl⟩
  · cases k with
    | leaf v => exact rdNode_leaf (s := { s with hdr := none }) h ▸ simulates_leaf hhdr h
    | internal => exact hinternal rest h

/-- The token HDR_INTERNAL with 256 nodes open (R154). -/
theorem readRest_tooDeep {rest : List Bool} (hhdr : s.hdr = some ⟨seen, stack⟩) (hdepth : 256 ≤ stack.length)
    (h : unread s = false :: rest) : readRest s = .raised .tooDeep (advance 1 s) := by
  have htoken : applyToken .internal (advance 1 s) = .raised .tooDeep (advance 1 s) := by
    simp [applyToken, hhdr, readInternal, hdepth]
  rw [readRest_token (k := .internal) h]
  exact congrArg (·.bind readOnRest) htoken

/-- Reading a subtree by recursion is what the machine does from the subtree's first token on (R152, R154, R155). -/
theorem simulates_rdNode (d : Nat) (hhdr : s.hdr = some ⟨seen, stack⟩) (hdepth : stack.length + d = 256) :
    Simulates stack s (rdNode d seen { s with hdr := none }) := by
  induction d generalizing s seen stack with
  | zero =>
    refine simulates_of_internal hhdr fun rest h => ?_
    rw [rdNode_zero_internal (s := { s with hdr := none }) h]
    exact ⟨advance 1 s, readRest_tooDeep hhdr (by omega) h, rfl⟩
  | succ d ih =>
    refine simulates_of_internal hhdr fun rest h => ?_
    exact simulates_internal hhdr (by omega) h fun hhdr' => ih hhdr' (by simp only [List.length_cons]; omega)

end

/-! ## The two readers of a header -/

/-- The recursion where the machine starts: no working state (R152). -/
def rdRoot (s : State) : Result (NodeIdx × Vector Bool 257 × State) :=
  rdNode 256 (Vector.replicate 257 false) { startHeader s with hdr := none }

theorem rdHeaderRecursive_eq (s : State) :
    rdHeaderRecursive s = (rdRoot s).bind fun (r, _, u) => .ok { u with root := r, treeValid := true } := rfl

theorem simulates_rdRoot (s : State) : Simulates [] (startHeader s) (rdRoot s) :=
  simulates_rdNode 256 rfl rfl

/-- RD_HEADER completes as the pseudocode does, or raises the same fault in the same state but for the open nodes. -/
theorem bodyRdHeader_rdHeaderRecursive (s : State) :
    (∃ t, bodyRdHeader s = .ok t ∧ rdHeaderRecursive s = .ok t) ∨
    (∃ f t, bodyRdHeader s = .raised f t ∧ rdHeaderRecursive s = .raised f { t with hdr := none }) := by
  have hsim := simulates_rdRoot s
  have hends := bodyRdHeader_ends s
  rw [bodyRdHeader_eq_readRest] at hends ⊢
  rw [rdHeaderRecursive_eq]
  cases hr : rdRoot s with
  | ok a =>
    obtain ⟨r, seen, u⟩ := a
    rw [hr] at hsim
    obtain ⟨hnone, hrun⟩ := hsim
    refine .inl ⟨_, hrun, ?_⟩
    simp only [ok_bind, hnone]
  | raised f u =>
    rw [hr] at hsim
    obtain ⟨t, ht, rfl⟩ := hsim
    exact .inr ⟨f, t, ht, rfl⟩
  | refused x | stuck x =>
    rw [hr] at hsim
    obtain ⟨t, ht, -⟩ | ⟨f, t, ht⟩ := hends <;> cases hsim.symm.trans ht

/-- Settles O31: the machine simulates the recursion, from the start of the header to its end. -/
theorem tokenMachineIsTheRecursion : Obligations.TokenMachineIsTheRecursion := by
  intro s _
  obtain ⟨t, hbody, hrec⟩ | ⟨f, t, hbody, hrec⟩ := bodyRdHeader_rdHeaderRecursive s
  · rw [hbody, hrec]
    exact ⟨fun _ => Iff.rfl, by simp, by simp⟩
  · rw [hbody, hrec]
    refine ⟨by simp, fun g u h => ?_, fun g u h => ?_⟩
    · cases h
      rfl
    · cases h
      exact ⟨t, rfl⟩

/-! ## What an accepted header was -/

theorem checkSymbol_val {seen : Vector Bool 257} {v : BitVec 9} {x : Sym} (h : checkSymbol seen v = .ok x) :
    BitVec.ofNat 9 x.val = v := by
  unfold checkSymbol at h
  split at h
  · split at h
    · cases h
    · cases h
      rw [BitVec.ofNat_toNat, BitVec.setWidth_eq]
  · cases h

/-- What a subtree read from `s` was: the header of a stored tree, under the index that is answered (R156). -/
def ReadsSubtree (s : State) (a : NodeIdx × Vector Bool 257 × State) : Prop :=
  ∃ t, SubtreeRead t s a.2.2 a.1 ∧ unread s = t.header ++ unread a.2.2

theorem rdLeaf_reads {s : State} {seen : Vector Bool 257} {v : BitVec 9} {rest : List Bool}
    (h : unread s = encodeToken (.leaf v) ++ rest) :
    (rdLeaf seen v (advance 10 s)).Meets (ReadsSubtree s) fun _ _ => True := by
  rw [rdLeaf]
  cases hx : checkSymbol seen v with
  | error f => trivial
  | ok x =>
    by_cases hroom : s.ncount.val < 513
    · simp only [alloc_eq_withNode (s := advance 10 s) _ hroom, ok_bind]
      have hread := subtreeRead_leaf x hroom
      have hheader : unread s = (Tree.leaf x).header ++ rest := by rw [Tree.header_leaf, checkSymbol_val hx, h]
      exact ⟨.leaf x, hread, by rw [hread.unread hheader, hheader]⟩
    · simp only [alloc_full (s := advance 10 s) _ hroom, stuck_bind]
      trivial

/-- A subtree that does not begin with the token HDR_INTERNAL, or not with a token at all. -/
theorem reads_of_internal {d : Nat} {seen : Vector Bool 257} {s : State}
    (hinternal : ∀ rest, unread s = false :: rest → (rdNode d seen s).Meets (ReadsSubtree s) fun _ _ => True) :
    (rdNode d seen s).Meets (ReadsSubtree s) fun _ _ => True := by
  obtain h | ⟨q, h, hq⟩ | ⟨k, rest, h⟩ := unread_token_cases s
  · exact rdNode_eofTag h ▸ trivial
  · exact rdNode_eofSymbol h hq ▸ trivial
  · cases k with
    | leaf v => exact rdNode_leaf h ▸ rdLeaf_reads h
    | internal => exact hinternal rest h

/-- Every subtree that the recursion accepts was the header of the tree it stored (R156). -/
theorem rdNode_reads (d : Nat) (seen : Vector Bool 257) (s : State) :
    (rdNode d seen s).Meets (ReadsSubtree s) fun _ _ => True := by
  induction d generalizing seen s with
  | zero => exact reads_of_internal fun rest h => rdNode_zero_internal h ▸ trivial
  | succ d ih =>
    refine reads_of_internal fun rest h => ?_
    rw [rdNode_succ_internal h]
    refine (ih seen (advance 1 s)).bind (fun _ _ _ => trivial) fun ⟨l, seen₁, u₁⟩ ⟨tl, hl, hheaderl⟩ => ?_
    refine (ih seen₁ u₁).bind (fun _ _ _ => trivial) fun ⟨r, seen₂, u₂⟩ ⟨tr, hr, hheaderr⟩ => ?_
    by_cases hroom : u₂.ncount.val < 513
    · simp only [alloc_eq_withNode _ hroom, ok_bind]
      refine ⟨.node tl tr, SubtreeRead.node (h₀ := s.hdr) (h₁ := u₁.hdr) hl hr hroom, ?_⟩
      have hrest : rest = tl.header ++ (tr.header ++ unread u₂) := by
        rw [← hheaderr, ← hheaderl, unread_advance, h]
        rfl
      rw [h, hrest, Tree.header_node, List.cons_append, List.append_assoc]
      rfl
    · simp only [alloc_full _ hroom, stuck_bind]
      trivial

/-- A header that RD_HEADER accepts is that of the tree it makes (R156). -/
theorem bodyRdHeader_reads {s t : State} (h : bodyRdHeader s = .ok t) :
    ∃ T, treeOf t = some T ∧ unread s = T.header ++ unread t := by
  obtain ⟨t', hbody, hrec⟩ | ⟨f, t', hbody, -⟩ := bodyRdHeader_rdHeaderRecursive s
  · obtain rfl : t' = t := by simpa [h] using hbody.symm
    rw [rdHeaderRecursive_eq, bind_eq_ok] at hrec
    obtain ⟨⟨r, seen, u⟩, hr, hu⟩ := hrec
    obtain ⟨T, hread, hheader⟩ := (rdNode_reads _ _ _).of_ok hr
    cases hu
    exact ⟨T, Stores.treeOf (s := { u with root := r, treeValid := true }) hread.stored, hheader⟩
  · simp [h] at hbody

/-- Settles O29: a fault would show in `ERRF`, and what the body accepts is the header of its tree. -/
theorem acceptedHeaderIsTheTreesHeader : Obligations.AcceptedHeaderIsTheTreesHeader := by
  intro s t hs h herrf
  rw [exec_ready (i := .rdHeader) rfl (by decide) hs (failedNeed_needsNothing s), finish_eq_next] at h
  obtain ⟨u, hbody, rfl⟩ | ⟨f, u, -, rfl⟩ := h
  · exact bodyRdHeader_reads (s := accept s) (t := u) hbody
  · simp at herrf

end Sys2Proof.Machine
end

