-- ==== Sys2Proof/Proofs/DeepHeader.lean ====
section
/-! PROOF. RD_HEADER on zero bits: every one opens a node, and the 257th is refused (R152, R153, R154). -/

namespace Sys2Proof.Machine

/-- `n` more nodes opened by `n` tag bits 0 (R152). -/
def openNodes (n : Nat) (seen : Vector Bool 257) (stack : List (Option NodeIdx)) (s : State) : State :=
  { advance n s with hdr := some ⟨seen, List.replicate n none ++ stack⟩ }

section
variable {s : State} {seen : Vector Bool 257} {rest : List Bool}

/-- While there is room for them, tag bits 0 open nodes and do nothing else. -/
theorem readRest_zeros (n : Nat) {stack : List (Option NodeIdx)} (hhdr : s.hdr = some ⟨seen, stack⟩)
    (hdepth : stack.length + n ≤ 256) (h : unread s = List.replicate n false ++ rest) :
    readRest s = readRest (openNodes n seen stack s) := by
  induction n generalizing s stack with
  | zero =>
    have hsame : openNodes 0 seen stack s = s := by
      simp only [openNodes, List.replicate_zero, List.nil_append, ← hhdr, advance, Nat.add_zero]
    rw [hsame]
  | succ n ih =>
    let t : State := openNodes 1 seen stack s
    rw [List.replicate_succ, List.cons_append] at h
    have hstep : readRest s = readRest t := by
      rw [readRest_token (k := .internal) h]
      exact congrArg (·.bind readOnRest) (applyToken_internal (s := advance 1 s) hhdr (by omega))
    have hunread : unread t = List.replicate n false ++ rest := (unread_advance 1 s).trans (by rw [h]; rfl)
    have hopened : openNodes n seen (none :: stack) t = openNodes (n + 1) seen stack s := by
      simp [openNodes, t, advance, List.replicate_succ']
      omega
    rw [hstep, ih (s := t) (stack := none :: stack) rfl (by simp only [List.length_cons]; omega) hunread, hopened]

/-- The 257th tag bit 0 is read and raises `TOO_DEEP` (R153). -/
theorem bodyRdHeader_tooDeep (h : unread s = List.replicate 257 false ++ rest) : bodyRdHeader s =
    .raised .tooDeep (advance 1 (openNodes 256 (Vector.replicate 257 false) [] (startHeader s))) := by
  have hsplit : List.replicate 257 false ++ rest = List.replicate 256 false ++ (false :: rest) := by
    rw [List.replicate_succ' (n := 256), List.append_assoc, List.singleton_append]
  rw [hsplit] at h
  rw [bodyRdHeader_eq_readRest, readRest_zeros (s := startHeader s) 256 rfl (by simp) h]
  refine readRest_tooDeep rfl (by simp only [List.append_nil, List.length_replicate, le_refl]) (rest := rest) ?_
  exact (unread_advance 256 (startHeader s)).trans
    ((congrArg (List.drop 256) h).trans (List.drop_left' List.length_replicate))

/-- With no bit after at most 256 tag bits 0 the next one is missing (R153). -/
theorem bodyRdHeader_zeros_eofTag {n : Nat} (hn : n ≤ 256) (h : unread s = List.replicate n false) :
    bodyRdHeader s = .raised .eofTag (openNodes n (Vector.replicate 257 false) [] (startHeader s)) := by
  rw [bodyRdHeader_eq_readRest, readRest_zeros (s := startHeader s) (rest := []) n rfl (by simpa using hn) (by simpa)]
  refine readRest_eofTag ?_
  exact (unread_advance n (startHeader s)).trans ((congrArg (List.drop n) h).trans (by simp))

end

/-- Settles O35: the nodes opened are dropped at fault entry, so that only the flags, `NCOUNT` and the position show. -/
theorem deepHeaderIsRefused : Obligations.DeepHeaderIsRefused := by
  intro s hs
  have hexec := exec_ready (i := .rdHeader) rfl (by decide) hs (failedNeed_needsNothing s)
  rw [bodyOf] at hexec
  obtain ⟨⟨hbusy, hpq, hhdr⟩, -⟩ := hs
  refine ⟨fun rest h => ?_, fun n hn h => ?_⟩
  · rw [hexec, bodyRdHeader_tooDeep (s := accept s) h]
    simp only [finish, enterFault, openNodes, advance, startHeader, accept, hbusy, hpq, hhdr, BlockFault.toErr]
  · rw [hexec, bodyRdHeader_zeros_eofTag (s := accept s) hn h]
    simp only [finish, enterFault, openNodes, advance, startHeader, accept, hbusy, hpq, hhdr, BlockFault.toErr]

end Sys2Proof.Machine
end

