-- ==== Sys2Proof/Proofs/HeaderTokens.lean ====
section
/-! PROOF. The header tokens as steps of the finer machine (R153, R154, R155; log entry 8). -/

namespace Sys2Proof.Machine

section
variable {s : State} {seen : Vector Bool 257} {stack : List (Option NodeIdx)} {v : BitVec 9} {x : Sym}

theorem exec_hdrInternal (s : State) : exec .hdrInternal s = finishToken (applyToken .internal s) := rfl

/-- HDR_LEAF inside a header (R155). -/
theorem exec_hdrLeaf (hhdr : s.hdr = some ⟨seen, stack⟩) :
    exec (.hdrLeaf v) s = finishToken (readLeaf ⟨seen, stack⟩ v s) := by
  have hexec : exec (.hdrLeaf v) s = finishToken (applyToken (.leaf v) s) := rfl
  rw [hexec, applyToken, hhdr]

/-- A leaf whose field fails a check raises that fault (R155, R231). -/
theorem exec_hdrLeaf_error {f : BlockFault} (hhdr : s.hdr = some ⟨seen, stack⟩) (hf : checkSymbol seen v = .error f) :
    exec (.hdrLeaf v) s = .next (enterFault f s) := by
  rw [exec_hdrLeaf hhdr, readLeaf, hf]
  rfl

theorem checkSymbol_range (hv : 256 < v.toNat) : checkSymbol seen v = .error (.symRange v) := by
  have hnot : ¬ v.toNat < 257 := by omega
  simp [checkSymbol, hnot]

theorem eq_ofNat_of_val_eq (hx : x.val = v.toNat) : BitVec.ofNat 9 x.val = v := by
  rw [hx, BitVec.ofNat_toNat, BitVec.setWidth_eq]

theorem checkSymbol_seen (hx : x.val = v.toNat) (hseen : seen[x] = true) :
    checkSymbol seen v = .error (.dupSymbol x) := by
  have hlt : v.toNat < 257 := hx ▸ x.isLt
  have hseen' : seen[v.toNat] = true := by simpa [hx] using hseen
  obtain rfl : x = ⟨v.toNat, hlt⟩ := Fin.ext hx
  simp [checkSymbol, hlt, hseen']

/-- A leaf of a symbol not seen before is constructed and handed on, if the store has room (R155). -/
theorem exec_hdrLeaf_unseen (hhdr : s.hdr = some ⟨seen, stack⟩) (hx : x.val = v.toNat) (hseen : seen[x] = false)
    (hroom : s.ncount.val < 513) : exec (.hdrLeaf v) s =
      finishToken (closeSubtree (seen.set x.val true) stack ⟨s.ncount.val, hroom⟩ (withNode (.leaf x 0) s hroom)) := by
  have hcheck : checkSymbol seen v = .ok x := eq_ofNat_of_val_eq hx ▸ checkSymbol_unseen hseen
  rw [exec_hdrLeaf hhdr, readLeaf, hcheck]
  simp only [alloc_eq_withNode _ hroom, ok_bind]

theorem exec_hdrLeaf_full (hhdr : s.hdr = some ⟨seen, stack⟩) (hx : x.val = v.toNat) (hseen : seen[x] = false)
    (hfull : ¬ s.ncount.val < 513) : exec (.hdrLeaf v) s = .fault .nodeStoreFull := by
  have hcheck : checkSymbol seen v = .ok x := eq_ofNat_of_val_eq hx ▸ checkSymbol_unseen hseen
  rw [exec_hdrLeaf hhdr, readLeaf, hcheck]
  simp only [alloc_full _ hfull, stuck_bind]
  rfl

end

/-- Allocation changes the entry at `NCOUNT` alone. -/
theorem withNode_getElem_of_ne {s : State} {nd : Node} (h : s.ncount.val < 513) {j : NodeIdx}
    (hj : s.ncount.val ≠ j.val) : (withNode nd s h).node[j] = s.node[j] := by
  simp [withNode, Vector.getElem_set_ne _ _ hj]

/-- Settles O32: the depth is checked first, and a fault drops the open nodes. -/
theorem internalTokenOpensANode : Obligations.InternalTokenOpensANode := by
  intro s h hhdr
  refine ⟨fun hdepth => ?_, fun hdepth => ?_⟩
  · rw [exec_hdrInternal, applyToken_internal hhdr hdepth]
    rfl
  · have htoken : applyToken .internal s = .raised .tooDeep s := by simp [applyToken, hhdr, readInternal, hdepth]
    rw [exec_hdrInternal, htoken]
    rfl

/-- Settles O33: a checked leaf is allocated, and closes the nodes on top of the stack whose left children are known. -/
theorem leafTokenConstructsALeaf : Obligations.LeafTokenConstructsALeaf := by
  rintro s seen stack v _ hhdr rfl
  refine ⟨fun hv => ?_, fun x hx hseen => ?_, fun x lefts hx hseen => ⟨fun hm => ?_, fun hm hstack => ?_⟩⟩
  · rw [exec_hdrLeaf_error hhdr (checkSymbol_range hv)]
    rfl
  · rw [exec_hdrLeaf_error hhdr (checkSymbol_seen hx hseen)]
    simp [enterFault, BlockFault.toErr, symAux, eq_ofNat_of_val_eq hx]
  · have hroom : s.ncount.val < 513 := by omega
    have hexec := exec_hdrLeaf_unseen hhdr hx hseen hroom
    obtain ⟨hclose, -⟩ := closeSubtree_lefts (seen.set x.val true) lefts (stack.drop lefts.length)
      ⟨s.ncount.val, hroom⟩ (withNode (.leaf x 0) s hroom) rfl
    obtain ⟨node, hmade, hkept, hnext⟩ := hclose hm
    refine ⟨node, ?_, hmade, fun i hi => ?_, fun hstack => ?_, fun below hstack => ?_⟩
    · exact (hkept ⟨s.ncount.val, hroom⟩ (.inl le_rfl)).trans (withNode_getElem_new hroom)
    · rw [hkept i (hi.imp_left Nat.le_of_lt), withNode_getElem_of_ne hroom (by omega)]
    · have hrest : stack.drop lefts.length = [] := by simp [hstack]
      rw [hrest, List.append_nil, ← hstack] at hnext
      rw [hexec, hnext]
      rfl
    · have hrest : stack.drop lefts.length = none :: below := by simp [hstack]
      rw [hrest, ← hstack] at hnext
      rw [hexec, hnext]
      rfl
  · by_cases hroom : s.ncount.val < 513
    · have hexec := exec_hdrLeaf_unseen hhdr hx hseen hroom
      obtain ⟨-, hfull⟩ := closeSubtree_lefts (seen.set x.val true) lefts (stack.drop lefts.length)
        ⟨s.ncount.val, hroom⟩ (withNode (.leaf x 0) s hroom) rfl
      have hall : lefts.map some ++ stack.drop lefts.length = stack := by
        obtain hstack | ⟨below, hstack⟩ := hstack <;> simp [hstack]
      rw [hexec, ← hall, hfull hm]
      rfl
    · exact exec_hdrLeaf_full hhdr hx hseen hroom

/-- Settles O34: with no bit left no tag bit can be fetched; a cut symbol leaves its tag bit read. -/
theorem headerEndOfInputIsReported : Obligations.HeaderEndOfInputIsReported := by
  intro s h hhdr
  refine ⟨fun hend => ?_, fun q hq hshort => ?_⟩
  · rw [step_token hhdr, fetchToken_eofTag hend]
    rfl
  · rw [step_token hhdr, fetchToken_eofSymbol hq hshort]
    rfl

end Sys2Proof.Machine
end

