-- ==== Sys2Proof/Proofs/PrefixCode.lean ====
section
/-! PROOF. No code of a tree starts another's, and each is shorter than it has leaves (R143, R144). -/

namespace Sys2Proof.Machine

/-- A symbol's path in a tree that is no leaf goes to one side and on there (R140). -/
theorem Tree.path_node {l r : Tree} {x : Sym} {p : List Bool} (h : (Tree.node l r).path x = some p) :
    (∃ q, l.path x = some q ∧ p = false :: q) ∨ ∃ q, r.path x = some q ∧ p = true :: q := by
  rw [Tree.path] at h
  split at h
  next q hq => exact .inl ⟨q, hq, (Option.some.inj h).symm⟩
  next =>
    split at h
    next q hq => exact .inr ⟨q, hq, (Option.some.inj h).symm⟩
    next => cases h

/-- A path passes an internal node for each bit, and a tree has more leaves than internal nodes. -/
theorem Tree.path_length_lt {t : Tree} {x : Sym} {p : List Bool} (h : t.path x = some p) :
    p.length < t.leaves.length := by
  induction t generalizing p with
  | leaf y =>
    rw [Tree.path] at h
    split at h <;> cases h
    exact Nat.one_pos
  | node l r ihl ihr =>
    have hl := l.leaves_pos
    have hr := r.leaves_pos
    rw [Tree.leaves, List.length_append]
    obtain ⟨q, hq, rfl⟩ | ⟨q, hq, rfl⟩ := Tree.path_node h
    · have := ihl hq
      rw [List.length_cons]
      omega
    · have := ihr hq
      rw [List.length_cons]
      omega

/-- No path goes on where another ends: it ends at a leaf (R143). -/
theorem Tree.path_not_prefix {t : Tree} {x y : Sym} {p q : List Bool} (hxy : x ≠ y) (hp : t.path x = some p)
    (hq : t.path y = some q) : ¬ p <+: q := by
  induction t generalizing p q with
  | leaf z =>
    rw [Tree.path] at hp hq
    split at hp <;> cases hp
    split at hq <;> cases hq
    exact absurd (by simp_all) hxy
  | node l r ihl ihr =>
    obtain ⟨p', hp', rfl⟩ | ⟨p', hp', rfl⟩ := Tree.path_node hp <;>
      obtain ⟨q', hq', rfl⟩ | ⟨q', hq', rfl⟩ := Tree.path_node hq
    · simpa using ihl hp' hq'
    · simp
    · simp
    · simpa using ihr hp' hq'

/-- A present entry of a tree's code table is a symbol's path (R27). -/
theorem path_of_entryOf_present {T : Tree} {x : Sym} (h : (entryOf T x).present = true) :
    T.path x = some (entryOf T x).code := by
  cases hp : T.path x with
  | none => simp [entryOf, hp, CtEntry.absent] at h
  | some p => rw [entryOf_of_path hp]

/-- The codes of a tree with distinct symbols have at most 256 bits (R144). -/
theorem entryOf_len_le {T : Tree} (hT : T.leaves.Nodup) (x : Sym) : (entryOf T x).len ≤ 256 := by
  cases hp : T.path x with
  | none => simp [entryOf, hp, CtEntry.absent, CtEntry.len]
  | some p =>
    have hleaves : T.leaves.length ≤ 257 := by simpa using hT.length_le_card
    have hlength := Tree.path_length_lt hp
    rw [entryOf_of_path hp]
    exact Nat.le_of_lt_succ (hlength.trans_le hleaves)

/-- Settles O25: GENCODES stores paths of the tree, which end at different leaves. -/
theorem gencodesMakesAPrefixCode : Obligations.GencodesMakesAPrefixCode := by
  intro s t hs hvalid hwf h
  obtain ⟨T, hT, hexec⟩ := (gencodesStoresThePaths s hs).1 hvalid hwf
  rw [hexec, Host.Outcome.next.injEq] at h
  have hentry : ∀ x : Sym, t.ct[x] = entryOf T x := fun x => by simp [← h]
  refine ⟨fun x y hxy hx hy => ?_, fun x => ?_⟩
  · rw [hentry] at hx hy ⊢
    rw [hentry]
    exact Tree.path_not_prefix hxy (path_of_entryOf_present hx) (path_of_entryOf_present hy)
  · rw [hentry]
    exact entryOf_len_le (treeOf_leaves_nodup hwf hT) x

end Sys2Proof.Machine
end

