-- ==== Sys2Proof/Proofs/Vouched.lean ====
section
/-! PROOF. The part of the invariant that is about the tables and the channels holds inside a command too: every body
keeps it, whether it completes or faults (R25, R27, R61, R62). -/

namespace Sys2Proof.Machine

/-! ## Its three parts -/

/-- What the table clauses of the invariant speak of. -/
def tablePart (s : State) : Vector Node 513 × Fin 514 × NodeIdx × Vector CtEntry 257 × Bool × Bool :=
  (s.node, s.ncount, s.root, s.ct, s.treeValid, s.ctValid)

/-- The clauses of the invariant about the tree and the code table (R25, R27, R144). -/
structure TablesVouched (s : State) : Prop where
  tree : s.treeValid = true → TreeWf s
  ct_needs_tree : s.ctValid = true → s.treeValid = true
  ct : s.ctValid = true → CtWf s
  code_len : ∀ x : Sym, (s.ct[x]).len ≤ 256

/-- The source is a byte stream and the position is inside it (R61). -/
def InputShaped (c : InChannel) : Prop := c.data.length % 8 = 0 ∧ c.pos ≤ c.data.length

/-- A closed destination is a whole number of bytes (R62). -/
def OutputShaped (c : OutChannel) : Prop := c.closed = true → c.bits.length % 8 = 0

/-- What the invariant says of the tables and the channels. -/
structure Vouched (s : State) : Prop where
  tables : TablesVouched s
  input : InputShaped s.input
  output : OutputShaped s.output

section
variable {s t : State}

theorem ctWf_congr (hnode : t.node = s.node) (hroot : t.root = s.root) (hct : t.ct = s.ct) (h : CtWf s) : CtWf t := by
  obtain ⟨T, hT, hentry⟩ := h
  exact ⟨T, by rw [treeOf, hnode, hroot]; exact hT, fun x => by rw [hct]; exact hentry x⟩

/-- The table clauses depend on the tables and their flags alone. -/
theorem TablesVouched.congr (h : TablesVouched s) (e : tablePart t = tablePart s) : TablesVouched t := by
  simp only [tablePart, Prod.mk.injEq] at e
  obtain ⟨hnode, hncount, hroot, hct, htree, hctv⟩ := e
  obtain ⟨tree, needs, ct, len⟩ := h
  refine ⟨fun hv => ?_, fun hv => ?_, fun hv => ?_, fun x => ?_⟩
  · exact treeWf_congr hnode hncount hroot (tree (htree ▸ hv))
  · rw [htree]
    exact needs (hctv ▸ hv)
  · exact ctWf_congr hnode hroot hct (ct (hctv ▸ hv))
  · rw [hct]
    exact len x

/-- A well-formed tree with the code table not valid is vouched for. -/
theorem tablesVouched_of_treeWf (htree : t.treeValid = true → TreeWf t) (hctv : t.ctValid = false)
    (hlen : ∀ x : Sym, (t.ct[x]).len ≤ 256) : TablesVouched t :=
  ⟨htree, fun h => by simp [hctv] at h, fun h => by simp [hctv] at h, hlen⟩

theorem Vouched.congr (h : Vouched s) (htables : tablePart t = tablePart s) (hinput : t.input = s.input)
    (houtput : t.output = s.output) : Vouched t :=
  ⟨h.tables.congr htables, hinput ▸ h.input, houtput ▸ h.output⟩

/-- Reading no more bits than are left keeps the position inside the source (R63). -/
theorem InputShaped.advance (h : InputShaped s.input) {n : Nat} (hn : n ≤ bitsLeft s) :
    InputShaped (advance n s).input := by
  obtain ⟨hbytes, hpos⟩ := h
  rw [bitsLeft] at hn
  exact ⟨hbytes, by simp only [Machine.advance]; omega⟩

theorem InputShaped.reset (h : InputShaped s.input) : InputShaped (inReset s).input := ⟨h.1, Nat.zero_le _⟩

/-- Appending to a channel that is open, or nothing at all, leaves a closed one whole (R66, R67). -/
theorem OutputShaped.append {c : OutChannel} {q : List Bool} (h : OutputShaped c) (hq : q = [] ∨ c.closed = false) :
    OutputShaped ⟨c.bits ++ q, c.closed⟩ := by
  intro hclosed
  obtain rfl | hopen := hq
  · simpa using h hclosed
  · simp [hopen] at hclosed

/-! ## The position stays inside the source -/

/-- A body, or a part of one, ends with the input in shape, with or without a fault. -/
def Result.KeepsInput (r : Result State) : Prop :=
  r.Meets (fun t => InputShaped t.input) fun _ t => InputShaped t.input

theorem Result.KeepsInput.bind {r : Result State} {f : State → Result State} (h : r.KeepsInput)
    (hf : ∀ t, InputShaped t.input → (f t).KeepsInput) : (r.bind f).KeepsInput :=
  Result.Meets.bind h (fun _ _ h => h) hf

/-- A body that leaves the input alone. -/
theorem Result.Meets.keepsInput {r : Result State} {p : State → Prop} {q : BlockFault → State → Prop}
    (h : r.Meets p q) (hs : InputShaped s.input) (hp : ∀ t, p t → t.input = s.input)
    (hq : ∀ f t, q f t → t.input = s.input) : r.KeepsInput :=
  h.imp (fun t ht => hp t ht ▸ hs) fun f t ht => hq f t ht ▸ hs

/-- `InRead(n)` keeps the position inside the source (R63, R64). -/
theorem inRead_keepsInput {n v : Nat} (hs : InputShaped s.input) (h : inRead n s = some (v, t)) :
    InputShaped t.input := by
  rw [inRead] at h
  split at h
  next hn =>
    obtain ⟨-, rfl⟩ := Prod.mk.inj (Option.some.inj h)
    exact hs.advance hn
  next => cases h

theorem outBits_keepsInput (q : List Bool) (hs : InputShaped s.input) : (outBits q s).KeepsInput :=
  (outBits_frame q s).keepsInput hs (fun t ht => by rw [ht.1]) fun _ _ h => h.elim

theorem countLoop_keepsInput (k : Nat) (hs : InputShaped s.input) : (countLoop k s).KeepsInput := by
  induction k generalizing s with
  | zero => exact hs
  | succ k ih =>
    rw [countLoop]
    split
    next => exact hs
    next r s₁ hread =>
      have hs₁ := inRead_keepsInput hs hread
      dsimp only
      split
      · exact hs₁
      · refine ih ?_
        rw [ftWrite_eq]
        exact hs₁

theorem bodyCount_keepsInput (hs : InputShaped s.input) : (bodyCount s).KeepsInput :=
  (countLoop_keepsInput _ (s := ftClear s) hs).bind fun _ ht => ht.reset

theorem applyToken_keepsInput (k : HdrToken) (hs : InputShaped s.input) : (applyToken k s).KeepsInput :=
  (applyToken_frame k s).keepsInput hs (fun _ ht => ht.2.1) fun _ _ ht => by rw [ht.2]

theorem readTokens_keepsInput (k : Nat) (hs : InputShaped s.input) : (readTokens k s).KeepsInput := by
  induction k generalizing s with
  | zero => exact hs
  | succ k ih =>
    rw [readTokens]
    obtain ⟨tk, n, -, hn, e⟩ | ⟨-, e⟩ | ⟨hne, e⟩ := fetchToken_frame s <;> simp only [e]
    · refine (applyToken_keepsInput tk (hs.advance hn)).bind fun t ht => ?_
      split
      · exact ih ht
      · exact ht
    · exact hs
    · exact hs.advance (Nat.one_le_iff_ne_zero.mpr hne)

theorem bodyRdHeader_keepsInput (hs : InputShaped s.input) : (bodyRdHeader s).KeepsInput :=
  readTokens_keepsInput _ (s := startHeader s) hs

theorem writeCode_keepsInput (x : Sym) (hs : InputShaped s.input) : (writeCode x s).KeepsInput := by
  rw [writeCode]
  split
  · exact outBits_keepsInput _ hs
  · exact hs

theorem encLoop_keepsInput (k : Nat) (hs : InputShaped s.input) : (encLoop k s).KeepsInput := by
  induction k generalizing s with
  | zero => exact hs
  | succ k ih =>
    rw [encLoop]
    split
    next => exact hs
    next r s₁ hread => exact (writeCode_keepsInput _ (inRead_keepsInput hs hread)).bind fun _ ht => ih ht

theorem bodyEncPayload_keepsInput (hs : InputShaped s.input) : (bodyEncPayload s).KeepsInput :=
  (encLoop_keepsInput _ hs.reset).bind fun _ ht => writeCode_keepsInput _ ht

theorem bodyRdMagic_keepsInput (m : Word) (hs : InputShaped s.input) : (bodyRdMagic m s).KeepsInput := by
  rw [bodyRdMagic]
  split
  next => exact hs
  next r s₁ hread =>
    have hs₁ := inRead_keepsInput hs hread
    split <;> exact hs₁

theorem arrive_keepsInput (c : NodeIdx) (hs : InputShaped s.input) : (arrive c s).KeepsInput := by
  rw [arrive]
  split
  · exact hs
  · split
    · exact hs
    · exact (outBits_keepsInput _ hs).bind fun _ ht => ht

theorem decStep_keepsInput (hs : InputShaped s.input) : (decStep s).KeepsInput := by
  rw [decStep]
  split
  · split
    next => exact hs
    next b s₁ hread => exact arrive_keepsInput _ (inRead_keepsInput hs hread)
  · split <;> exact hs

theorem decRun_keepsInput (k : Nat) (hs : InputShaped s.input) : (decRun k s).KeepsInput := by
  induction k generalizing s with
  | zero => exact decStep_keepsInput hs
  | succ k ih =>
    refine (decStep_keepsInput hs).bind fun t ht => ?_
    split
    · exact ht
    · exact ih ht

theorem bodyDecPayload_keepsInput (hs : InputShaped s.input) : (bodyDecPayload s).KeepsInput :=
  decRun_keepsInput _ (s := toRoot s) hs

/-! ## The bodies -/

/-- A body, or a part of one, ends with the tables and the channels vouched for, with or without a fault. -/
def Result.Vouches (r : Result State) : Prop := r.Meets Vouched fun _ => Vouched

theorem Result.Vouches.bind {r : Result State} {f : State → Result State} (h : r.Vouches)
    (hf : ∀ t, Vouched t → (f t).Vouches) : (r.bind f).Vouches :=
  Result.Meets.bind h (fun _ _ h => h) hf

/-- How a body's frame and its way with the input make it keep what is vouched for. -/
theorem Result.KeepsInput.vouches {r : Result State} {p : State → Prop} {q : BlockFault → State → Prop}
    (hin : r.KeepsInput) (h : r.Meets p q)
    (hp : ∀ t, p t → TablesVouched t ∧ OutputShaped t.output)
    (hq : ∀ f t, q f t → TablesVouched t ∧ OutputShaped t.output) : r.Vouches := by
  cases r with
  | ok t =>
    obtain ⟨htables, hout⟩ := hp t h
    exact ⟨htables, hin, hout⟩
  | raised f t =>
    obtain ⟨htables, hout⟩ := hq f t h
    exact ⟨htables, hin, hout⟩
  | refused => trivial
  | stuck => trivial

/-- Reading the input and appending to the output keeps the tables and the shape of the output. -/
theorem streamWrites.vouched (h : streamWrites s t) (hs : Vouched s) : TablesVouched t ∧ OutputShaped t.output := by
  obtain ⟨pos, q, rfl, hq⟩ := h
  exact ⟨hs.tables.congr rfl, hs.output.append hq⟩

theorem walkWrites.vouched (h : walkWrites s t) (hs : Vouched s) : TablesVouched t ∧ OutputShaped t.output := by
  obtain ⟨u, hu, ht⟩ := h
  obtain ⟨htables, hout⟩ := hu.vouched hs
  rw [ht]
  exact ⟨htables.congr rfl, hout⟩

section
variable (hs : Vouched s)
include hs

theorem bodyCount_vouches : (bodyCount s).Vouches :=
  (bodyCount_keepsInput hs.input).vouches (bodyCount_frame s)
    (fun t ht => by rw [ht]; exact ⟨hs.tables.congr rfl, hs.output⟩)
    fun f t ht => by rw [ht.2]; exact ⟨hs.tables.congr rfl, hs.output⟩

theorem bodyFtClr_vouches : (bodyFtClr s).Vouches := hs.congr rfl rfl rfl

/-- BUILD leaves a well-formed tree (R130). -/
theorem bodyBuild_vouches : (bodyBuild s).Vouches := by
  obtain ⟨t, T, hbody, hbuilt⟩ := bodyBuild_builtTree s
  have hframe := (bodyBuild_frame s).of_ok hbody
  rw [hbody]
  refine ⟨tablesVouched_of_treeWf (fun _ => hbuilt.treeWf) (by rw [hframe]) ?_, ?_, ?_⟩ <;> rw [hframe]
  · exact hs.tables.code_len
  · exact hs.input
  · exact hs.output

/-- GENCODES makes the table of the tree in the store (R140). -/
theorem bodyGencodes_vouches (hvalid : s.treeValid = true) : (bodyGencodes s).Vouches := by
  have hwf := hs.tables.tree hvalid
  obtain ⟨T, hT⟩ := exists_treeOf hwf
  have hnodup := treeOf_leaves_nodup hwf hT
  have hentry : ∀ x : Sym, (withCodes T s).ct[x] = entryOf T x := fun x => by
    simp only [withCodes, walk_absent hnodup, Fin.getElem_fin, Vector.getElem_ofFn]
  rw [bodyGencodes_of_treeOf hT]
  refine ⟨⟨fun _ => treeWf_congr (s := s) rfl rfl rfl hwf, fun _ => hvalid, fun _ => ⟨T, hT, hentry⟩, fun x => ?_⟩,
    hs.input, hs.output⟩
  rw [hentry]
  exact entryOf_len_le hnodup x

theorem outBits_vouches (q : List Bool) : (outBits q s).Vouches :=
  (outBits_keepsInput q hs.input).vouches (outBits_stream q s) (fun _ ht => ht.vouched hs) fun _ _ h => h.elim

theorem bodyWrMagic_vouches (m : Word) : (bodyWrMagic m s).Vouches := outBits_vouches hs _

theorem bodyWrHeader_vouches : (bodyWrHeader s).Vouches := by
  rw [bodyWrHeader]
  split
  · trivial
  · exact outBits_vouches hs _

theorem bodyEncPayload_vouches : (bodyEncPayload s).Vouches :=
  (bodyEncPayload_keepsInput hs.input).vouches (bodyEncPayload_frame s) (fun _ ht => ht.vouched hs)
    fun _ _ ht => ht.2.vouched hs

/-- CLOSE_OUT pads to whole bytes (R68, R173). -/
theorem bodyCloseOut_vouches : (bodyCloseOut s).Vouches := by
  refine (bodyCloseOut_frame s).imp (fun t ht => ?_) fun _ _ h => h.elim
  rw [ht.2]
  refine ⟨hs.tables.congr rfl, hs.input, fun _ => ?_⟩
  rw [List.length_append, List.length_replicate]
  exact (padCount_spec _).2

theorem bodyRdMagic_vouches (m : Word) : (bodyRdMagic m s).Vouches :=
  (bodyRdMagic_keepsInput m hs.input).vouches (bodyRdMagic_frame m s)
    (fun t ht => by rw [ht]; exact ⟨hs.tables.congr rfl, hs.output⟩)
    fun f t ht => by obtain ⟨-, rfl⟩ | ⟨-, rfl⟩ := ht <;> exact ⟨hs.tables.congr rfl, hs.output⟩

/-- RD_HEADER leaves a well-formed tree, or a fault with `TREE_VALID` down; the code table is not valid (R152, R223). -/
theorem bodyRdHeader_vouches : (bodyRdHeader s).Vouches := by
  have hin := bodyRdHeader_keepsInput hs.input
  have hframe := bodyRdHeader_frame s
  obtain ⟨t, hbody, hwf⟩ | ⟨f, t, hbody⟩ := bodyRdHeader_ends s <;> rw [hbody] at hin hframe ⊢
  · obtain ⟨-, ht⟩ := hframe
    refine ⟨tablesVouched_of_treeWf (fun _ => hwf) (by rw [ht]) ?_, hin, ?_⟩ <;> rw [ht]
    · exact hs.tables.code_len
    · exact hs.output
  · obtain ⟨-, -, ht⟩ := hframe
    refine ⟨tablesVouched_of_treeWf (fun h => ?_) (by rw [ht]) ?_, hin, ?_⟩
    · rw [ht] at h
      cases h
    all_goals rw [ht]
    · exact hs.tables.code_len
    · exact hs.output

theorem bodyDecPayload_vouches : (bodyDecPayload s).Vouches :=
  (bodyDecPayload_keepsInput hs.input).vouches (bodyDecPayload_frame s) (fun _ ht => ht.vouched hs)
    fun _ _ ht => ht.2.vouched hs

/-- COMPRESS runs GENCODES on the tree BUILD has just made (R174). -/
theorem bodyCompress_vouches (m : Word) : (bodyCompress m s).Vouches := by
  refine (bodyCount_vouches hs).bind fun s₁ h₁ => ?_
  obtain ⟨s₂, -, hbuild, -⟩ := bodyBuild_builtTree s₁
  have hframe := (bodyBuild_frame s₁).of_ok hbuild
  have h₂ := bodyBuild_vouches h₁
  rw [hbuild] at h₂ ⊢
  exact (bodyGencodes_vouches h₂ (by rw [hframe])).bind fun _ h => (bodyWrMagic_vouches h m).bind fun _ h =>
    (bodyWrHeader_vouches h).bind fun _ h => (bodyEncPayload_vouches h).bind fun _ h => bodyCloseOut_vouches h

theorem bodyDecompress_vouches (m : Word) : (bodyDecompress m s).Vouches :=
  (bodyRdMagic_vouches hs m).bind fun _ h => (bodyRdHeader_vouches h).bind fun _ h =>
    (bodyDecPayload_vouches h).bind fun _ h => bodyCloseOut_vouches h

end

theorem treeValid_of_failedNeed (h : failedNeed needsTree s = none) : s.treeValid = true := by
  simpa [failedNeed, needsTree] using h

/-- Every body whose command's checks pass keeps what is vouched for. -/
theorem bodyOf_vouches {i : Instr} (hn : failedNeed (needsOf i) s = none) (hs : Vouched s) : (bodyOf i s).Vouches := by
  cases i with
  | ftClr => exact bodyFtClr_vouches hs
  | count => exact bodyCount_vouches hs
  | build => exact bodyBuild_vouches hs
  | gencodes => exact bodyGencodes_vouches hs (treeValid_of_failedNeed hn)
  | wrMagic => exact bodyWrMagic_vouches hs magic
  | wrHeader => exact bodyWrHeader_vouches hs
  | encPayload => exact bodyEncPayload_vouches hs
  | closeOut => exact bodyCloseOut_vouches hs
  | rdMagic => exact bodyRdMagic_vouches hs magic
  | rdHeader => exact bodyRdHeader_vouches hs
  | decPayload => exact bodyDecPayload_vouches hs
  | compress => exact bodyCompress_vouches hs magic
  | decompress => exact bodyDecompress_vouches hs magic
  | nop | sreset | hdrInternal | hdrLeaf _ => exact hs

end

end Sys2Proof.Machine
end

