-- ==== Sys2Proof/Proofs/StepInvariant.lean ====
section
/-! PROOF. Every step keeps the invariant: its common part by the common steps of a command, its part about the tables
and the channels by the bodies (R8, R221, R271). -/

namespace Sys2Proof.Machine

/-- `ERR` is 0 or a value of R221's table (U10). -/
def ErrListed (e : ErrReg) : Prop := e = ⟨0, 0, 0⟩ ∨ ∃ f : BlockFault, e = f.toErr

section
variable {s t : State}

theorem inv_iff : Inv s ↔ Idle s ∧ (s.done = true → s.err.code = 0) ∧ ErrListed s.err ∧ Vouched s :=
  ⟨fun ⟨idle, done, err, tree, needs, ct, len, bytes, pos, out⟩ =>
      ⟨idle, done, err, ⟨tree, needs, ct, len⟩, ⟨bytes, pos⟩, out⟩,
    fun ⟨idle, done, err, ⟨tree, needs, ct, len⟩, ⟨bytes, pos⟩, out⟩ =>
      ⟨idle, done, err, tree, needs, ct, len, bytes, pos, out⟩⟩

theorem vouched_of_inv (h : Inv s) : Vouched s := (inv_iff.mp h).2.2.2

/-- The invariant speaks of no field but these. -/
theorem inv_congr (h : Inv s) (hidle : Idle t) (hdone : t.done = s.done) (herr : t.err = s.err) (hv : Vouched t) :
    Inv t := by
  obtain ⟨-, done, err, -⟩ := inv_iff.mp h
  exact inv_iff.mpr ⟨hidle, by rw [hdone, herr]; exact done, herr ▸ err, hv⟩

/-- Taking a fault leaves the block idle, with a listed value in `ERR` and `DONE` down (R221, R232). -/
theorem inv_enterFault (f : BlockFault) (h : Vouched s) : Inv (enterFault f s) :=
  inv_iff.mpr ⟨⟨rfl, rfl, rfl⟩, fun hd => (nomatch hd), .inr ⟨f, rfl⟩, h.congr rfl rfl rfl⟩

/-- Completion without a fault (R214). -/
theorem inv_complete (h : Vouched s) (hcode : s.err.code = 0) (herr : ErrListed s.err) : Inv (complete s) :=
  inv_iff.mpr ⟨⟨rfl, rfl, rfl⟩, fun _ => hcode, herr, h.congr rfl rfl rfl⟩

/-- A reset leaves both flags down and codes of at most 256 bits (R39). -/
theorem inv_blockReset (hin : InputShaped s.input) (hout : OutputShaped s.output) : Inv (blockReset s) := by
  refine inv_iff.mpr ⟨⟨rfl, rfl, rfl⟩, fun _ => rfl, .inl rfl,
    tablesVouched_of_treeWf (fun h => (nomatch h)) rfl fun x => ?_, hin, hout⟩
  simp only [blockReset, unspecifiedCt, CtEntry.len, Fin.getElem_fin, Vector.getElem_ofFn, List.length_take]
  exact Nat.min_le_left _ _

/-- A word that is no command is ignored or raises `ILLEGAL_CMD` (R93). -/
theorem inv_illegalCommand (h : Inv s) : Inv (illegalCommand s) := by
  rw [illegalCommand]
  split
  · exact h
  · exact inv_enterFault _ (vouched_of_inv h)

theorem errListed_of_inv (h : Inv s) : ErrListed s.err := (inv_iff.mp h).2.2.1

theorem err_code_of_not_ignored (h : ignores s = false) : s.err.code = 0 := by
  by_contra hne
  rw [ignored_of_fault hne] at h
  cases h

/-- Every command keeps the invariant. -/
theorem inv_exec {i : Instr} (hc : i.isCommand = true) (h : Inv s) (hexec : exec i s = .next t) : Inv t := by
  have hv := vouched_of_inv h
  have hva : Vouched (accept s) := hv.congr rfl rfl rfl
  by_cases hi : i = .sreset
  · subst hi
    rw [exec_sreset] at hexec
    split at hexec <;> obtain rfl := Host.Outcome.next.inj hexec
    · exact h
    · exact inv_blockReset hv.input hv.output
  · rw [exec_command hc hi] at hexec
    obtain ⟨-, e⟩ | ⟨-, f, -, e⟩ | ⟨hready, hn, e⟩ := runCommand_cases (needsOf i) (bodyOf i) s <;> rw [e] at hexec
    · obtain rfl := Host.Outcome.next.inj hexec
      exact h
    · obtain rfl := Host.Outcome.next.inj hexec
      exact inv_enterFault f hva
    · have hbody := bodyOf_vouches (s := accept s) (i := i) (by simpa [failedNeed] using hn) hva
      obtain ⟨u, hu, rfl⟩ | ⟨f, u, hu, rfl⟩ := finish_eq_next.mp hexec
      · have herr : u.err = s.err := (bodyOf_keepsErr (accept s) i).of_ok hu
        refine inv_complete (hbody.of_ok hu) ?_ ?_ <;> rw [herr]
        · exact err_code_of_not_ignored hready
        · exact errListed_of_inv h
      · exact inv_enterFault f (hbody.of_raised hu)

/-- A host read changes only the record and the count of free values (R36). -/
theorem inv_hostRead (a : Addr) (h : Inv s) : Inv (hostRead a s) := by
  rw [hostRead]
  split <;> exact inv_congr h h.idle rfl rfl ((vouched_of_inv h).congr rfl rfl rfl)

/-- A host write to any register but `CMD` changes at most the frequency table (R36). -/
theorem hostWrite_eq (a : Addr) (v : Word) (s : State) : hostWrite a v s = { s with ft := (hostWrite a v s).ft } := by
  simp only [hostWrite]
  split
  · rfl
  · split
    · exact ftWrite_eq s _ v
    · rfl

theorem inv_hostWrite (a : Addr) (v : Word) (h : Inv s) : Inv (hostWrite a v s) := by
  rw [hostWrite_eq]
  exact inv_congr h h.idle rfl rfl ((vouched_of_inv h).congr rfl rfl rfl)

end

/-- Settles O3: between commands a step runs a command or takes an action of the host or the environment. -/
theorem stepKeepsInvariant : Obligations.StepKeepsInvariant := by
  intro s t h hstep
  obtain ⟨-, -, hhdr⟩ := h.idle
  cases hhost : s.host with
  | nil =>
    rw [step_nothing hhdr hhost] at hstep
    exact Host.Outcome.next.inj hstep ▸ h
  | cons a rest =>
    have h' : Inv { s with host := rest } := inv_congr h h.idle rfl rfl ((vouched_of_inv h).congr rfl rfl rfl)
    obtain ⟨htables, hinput, houtput⟩ := vouched_of_inv h'
    rw [step_host hhdr hhost] at hstep
    cases a with
    | read addr => exact Host.Outcome.next.inj hstep ▸ inv_hostRead addr h'
    | write addr v =>
      rw [fetchHost] at hstep
      by_cases haddr : addr = cmdAddr
      · rw [if_pos haddr, fetchCommand] at hstep
        cases hdecode : decodeCommand v with
        | ok i =>
          rw [hdecode] at hstep
          exact inv_exec (decodeCommand_isCommand hdecode) h' hstep
        | error e =>
          rw [hdecode] at hstep
          exact Host.Outcome.next.inj hstep ▸ inv_illegalCommand h'
      · rw [if_neg haddr] at hstep
        exact Host.Outcome.next.inj hstep ▸ inv_hostWrite addr v h'
    | reset => exact Host.Outcome.next.inj hstep ▸ inv_blockReset hinput houtput
    | openSource bytes =>
      refine Host.Outcome.next.inj hstep ▸
        inv_congr h' h'.idle rfl rfl ⟨htables.congr rfl, ⟨?_, Nat.zero_le _⟩, houtput⟩
      rw [bytesToBits_length]
      exact Nat.mul_mod_right 8 _
    | openDestination =>
      exact Host.Outcome.next.inj hstep ▸ inv_congr h' h'.idle rfl rfl
        ⟨htables.congr rfl, hinput, fun hclosed => (nomatch hclosed)⟩

/-- Settles O2: reset leaves no flag up, an empty code table and empty channels. -/
theorem invariantHoldsAtReset : Obligations.InvariantHoldsAtReset := by
  refine inv_iff.mpr ⟨⟨rfl, rfl, rfl⟩, fun _ => rfl, .inl rfl,
    tablesVouched_of_treeWf (fun h => (nomatch h)) rfl fun x => ?_, ⟨rfl, Nat.le_refl 0⟩, fun h => (nomatch h)⟩
  simp [State.reset, CtEntry.absent, CtEntry.len]

end Sys2Proof.Machine
end

