-- ==== Sys2Proof/Proofs/NeverStuck.lean ====
section
/-! PROOF. No body gets stuck on a well-formed tree, and only a write to a closed channel is refused (R132, R157, R273,
U16). -/

namespace Sys2Proof.Machine

/-- A body, or a part of one, does not get stuck, and is refused only if `c`. -/
def Result.Answers {α : Type} (c : Bool) (r : Result α) : Prop :=
  match r with
  | .ok _ => True
  | .raised _ _ => True
  | .refused _ => c = true
  | .stuck _ => False

section
variable {s t : State} {c : Bool}

/-- The rule of sequencing: what comes after starts from a state the first part's frame describes. -/
theorem Result.Answers.bind {r : Result State} {f : State → Result State} {p : State → Prop}
    {q : BlockFault → State → Prop} (h : r.Answers c) (hframe : r.Meets p q) (hf : ∀ t, p t → (f t).Answers c) :
    (r.bind f).Answers c := by
  cases r with
  | ok t => exact hf t hframe
  | raised => trivial
  | refused => exact h
  | stuck => exact h

/-- A body that completes or faults is not refused. -/
theorem Result.Ends.answers {r : Result State} {p : State → Prop} (h : r.Ends p) (c : Bool) : r.Answers c := by
  obtain ⟨t, rfl, -⟩ | ⟨f, t, rfl⟩ := h <;> trivial

theorem streamWrites.closed (h : streamWrites s t) : t.output.closed = s.output.closed := by
  obtain ⟨_, _, rfl, -⟩ := h
  rfl

theorem walkWrites.closed (h : walkWrites s t) : t.output.closed = s.output.closed := by
  obtain ⟨u, hu, ht⟩ := h
  rw [ht]
  exact hu.closed

theorem outBits_answers (q : List Bool) (hc : s.output.closed = c) : (outBits q s).Answers c := by
  obtain ⟨h, -⟩ | ⟨h, -, hclosed⟩ := outBits_cases q s <;> rw [h]
  · trivial
  · exact hc ▸ hclosed

theorem countLoop_answers (k : Nat) (s : State) : (countLoop k s).Answers c := by
  induction k generalizing s with
  | zero => trivial
  | succ k ih =>
    rw [countLoop]
    split
    · trivial
    · dsimp only
      split
      · trivial
      · exact ih _

theorem bodyCount_answers (s : State) : (bodyCount s).Answers c :=
  (countLoop_answers _ _).bind (countLoop_frame _ _) fun _ _ => trivial

theorem bodyBuild_answers (s : State) : (bodyBuild s).Answers c := by
  obtain ⟨t, T, hbody, -⟩ := bodyBuild_builtTree s
  rw [hbody]
  trivial

theorem bodyGencodes_answers (hwf : TreeWf s) : (bodyGencodes s).Answers c := by
  obtain ⟨T, hT⟩ := exists_treeOf hwf
  rw [bodyGencodes_of_treeOf hT]
  trivial

theorem bodyWrHeader_answers (hwf : TreeWf s) (hc : s.output.closed = c) : (bodyWrHeader s).Answers c := by
  obtain ⟨T, hT⟩ := exists_treeOf hwf
  rw [bodyWrHeader, hT]
  exact outBits_answers T.header hc

theorem writeCode_answers (x : Sym) (hc : s.output.closed = c) : (writeCode x s).Answers c := by
  rw [writeCode]
  split
  · exact outBits_answers _ hc
  · trivial

theorem inRead_closed {n v : Nat} (h : inRead n s = some (v, t)) : t.output.closed = s.output.closed := by
  rw [inRead] at h
  split at h <;> cases h
  rfl

theorem encLoop_answers (k : Nat) (hc : s.output.closed = c) : (encLoop k s).Answers c := by
  induction k generalizing s with
  | zero => trivial
  | succ k ih =>
    rw [encLoop]
    split
    next => trivial
    next r s₁ hread =>
      have hc₁ : s₁.output.closed = c := (inRead_closed hread).trans hc
      exact (writeCode_answers _ hc₁).bind (writeCode_frame _ s₁) fun _ h => ih (h.closed.trans hc₁)

theorem bodyEncPayload_answers (hc : s.output.closed = c) : (bodyEncPayload s).Answers c :=
  (encLoop_answers _ (s := inReset s) hc).bind (encLoop_frame _ _) fun _ h =>
    writeCode_answers _ (h.closed.trans hc)

theorem bodyCloseOut_answers (hc : s.output.closed = c) : (bodyCloseOut s).Answers c := by
  rw [bodyCloseOut, outClose]
  split
  next hclosed => exact hc ▸ hclosed
  next => trivial

theorem bodyRdMagic_answers (m : Word) (s : State) : (bodyRdMagic m s).Answers c := by
  rw [bodyRdMagic]
  split
  · trivial
  · split <;> trivial

theorem bodyRdHeader_answers (s : State) : (bodyRdHeader s).Answers c := (bodyRdHeader_ends s).answers c

theorem arrive_answers (i : NodeIdx) (hc : s.output.closed = c) : (arrive i s).Answers c := by
  rw [arrive]
  split
  · trivial
  · split
    · trivial
    · exact (outBits_answers _ hc).bind (outBits_frame _ s) fun _ _ => trivial

theorem decStep_answers (hc : s.output.closed = c) : (decStep s).Answers c := by
  rw [decStep]
  split
  · split
    next => trivial
    next hread => exact arrive_answers _ ((inRead_closed hread).trans hc)
  · split <;> trivial

theorem decRun_answers (k : Nat) (hc : s.output.closed = c) : (decRun k s).Answers c := by
  induction k generalizing s with
  | zero => exact decStep_answers hc
  | succ k ih =>
    refine (decStep_answers hc).bind (decStep_frame s) fun t ht => ?_
    split
    · trivial
    · exact ih (ht.closed.trans hc)

theorem bodyDecPayload_answers (hc : s.output.closed = c) : (bodyDecPayload s).Answers c :=
  decRun_answers _ (s := toRoot s) hc

theorem streamWrites.treeWf (h : streamWrites s t) (hwf : TreeWf s) : TreeWf t := by
  obtain ⟨_, _, rfl, -⟩ := h
  exact treeWf_congr (s := s) rfl rfl rfl hwf

/-- The steps of COMPRESS from WR_MAGIC on, with a tree in the store. -/
theorem writeBlob_answers (m : Word) (hwf : TreeWf s) (hc : s.output.closed = c) : (writeBlob m s).Answers c := by
  refine (outBits_answers _ hc).bind (outBits_stream _ s) fun s₁ h₁ => ?_
  have hc₁ := h₁.closed.trans hc
  refine (bodyWrHeader_answers (h₁.treeWf hwf) hc₁).bind (bodyWrHeader_frame s₁) fun s₂ h₂ => ?_
  obtain ⟨q, h₂, -⟩ := h₂
  have hc₂ : s₂.output.closed = c := by rw [h₂]; exact hc₁
  exact (bodyEncPayload_answers hc₂).bind (bodyEncPayload_frame s₂) fun s₃ h₃ =>
    bodyCloseOut_answers (h₃.closed.trans hc₂)

theorem bodyCompress_answers (m : Word) (hc : s.output.closed = c) : (bodyCompress m s).Answers c := by
  refine (bodyCount_answers s).bind (bodyCount_frame s) fun s₁ h₁ => ?_
  obtain ⟨s₂, T, hbuild, hbuilt⟩ := bodyBuild_builtTree s₁
  have hwf := hbuilt.treeWf
  have h₂ := (bodyBuild_frame s₁).of_ok hbuild
  have hc₂ : s₂.output.closed = c := by rw [h₂, h₁]; exact hc
  rw [hbuild]
  refine (bodyGencodes_answers hwf).bind (bodyGencodes_frame s₂) fun s₃ h₃ => ?_
  exact writeBlob_answers m (treeWf_congr (s := s₂) (by rw [h₃]) (by rw [h₃]) (by rw [h₃]) hwf) (by rw [h₃]; exact hc₂)

theorem bodyDecompress_answers (m : Word) (hc : s.output.closed = c) : (bodyDecompress m s).Answers c := by
  refine (bodyRdMagic_answers m s).bind (bodyRdMagic_frame m s) fun s₁ h₁ => ?_
  refine (bodyRdHeader_answers s₁).bind (bodyRdHeader_frame s₁) fun s₂ h₂ => ?_
  have hc₂ : s₂.output.closed = c := by rw [h₂.2, h₁]; exact hc
  exact (bodyDecPayload_answers hc₂).bind (bodyDecPayload_frame s₂) fun s₃ h₃ =>
    bodyCloseOut_answers (h₃.closed.trans hc₂)

theorem treeValid_of_failedNeed_out (h : failedNeed needsTreeOut s = none) : s.treeValid = true := by
  by_contra hinvalid
  rw [Bool.not_eq_true] at hinvalid
  simp [failedNeed, needsTreeOut, hinvalid] at h

/-- A body whose command's checks pass answers; it is refused only of a command that needs the output open. -/
theorem bodyOf_answers {i : Instr} (hn : failedNeed (needsOf i) s = none) (hwf : s.treeValid = true → TreeWf s) :
    (bodyOf i s).Answers ((needsOf i).out && s.output.closed) := by
  cases i with
  | count => exact bodyCount_answers s
  | build => exact bodyBuild_answers s
  | gencodes => exact bodyGencodes_answers (hwf (treeValid_of_failedNeed hn))
  | wrMagic => exact outBits_answers (bitsMSB 32 magic.toNat) rfl
  | wrHeader => exact bodyWrHeader_answers (hwf (treeValid_of_failedNeed_out hn)) rfl
  | encPayload => exact bodyEncPayload_answers rfl
  | closeOut => exact bodyCloseOut_answers rfl
  | rdMagic => exact bodyRdMagic_answers magic s
  | rdHeader => exact bodyRdHeader_answers s
  | decPayload => exact bodyDecPayload_answers rfl
  | compress => exact bodyCompress_answers magic rfl
  | decompress => exact bodyDecompress_answers magic rfl
  | nop | sreset | ftClr | hdrInternal | hdrLeaf _ => trivial

/-- A passed check of `OCLOSED` (R213). -/
theorem oclosed_of_failedNeed {n : Needs} (h : failedNeed n s = none) (hout : n.out = true) : s.oclosed = false := by
  rw [failedNeed] at h
  repeat' split at h
  · cases h
  · cases h
  · cases h
  next hclosed => simpa [hout] using hclosed

/-- How a command ends whose body answers. -/
theorem Result.Answers.finish {r : Result State} (h : r.Answers c) :
    (∃ t, finish r = .next t) ∨ (c = true ∧ ∃ x, finish r = .refused x) := by
  cases r with
  | ok t => exact .inl ⟨_, rfl⟩
  | raised f t => exact .inl ⟨_, rfl⟩
  | refused x => exact .inr ⟨h, x, rfl⟩
  | stuck => exact h.elim

end

/-- Settles O4: an ignored command, a failed check and SRESET answer at once, and no body gets stuck. -/
theorem commandsNeverGetStuck : Obligations.CommandsNeverGetStuck := by
  intro s i h hc
  by_cases hi : i = .sreset
  · subst hi
    rw [exec_sreset]
    split <;> exact .inl ⟨_, rfl⟩
  · rw [exec_command hc hi]
    obtain ⟨-, e⟩ | ⟨-, f, -, e⟩ | ⟨-, hn, e⟩ := runCommand_cases (needsOf i) (bodyOf i) s <;> rw [e]
    · exact .inl ⟨s, rfl⟩
    · exact .inl ⟨_, rfl⟩
    · have hbody := bodyOf_answers (i := i) (s := accept s) (by simpa [failedNeed] using hn)
        fun hv => treeWf_congr (s := s) rfl rfl rfl (h.tree hv)
      obtain hnext | ⟨hrefused, x, hx⟩ := hbody.finish
      · exact .inl hnext
      · obtain ⟨hout, hclosed⟩ := Bool.and_eq_true_iff.mp hrefused
        exact .inr ⟨hclosed, oclosed_of_failedNeed hn hout, x, hx⟩

end Sys2Proof.Machine
end

