-- ==== Sys2Proof/Proofs/Steps.lean ====
section
/-! PROOF. What a step runs: a command word, a header token, an event of the environment (R31, R152, R212, R263). -/

namespace Sys2Proof.Machine

section
variable {s : State} {rest : List HostAction}

/-- A step on a word written to `CMD` (R31). -/
theorem step_command {w : Word} {i : Instr} (hhdr : s.hdr = none) (hhost : s.host = .write 0x0000 w :: rest)
    (hw : decodeCommand w = .ok i) : step s = exec i { s with host := rest } := by
  rw [step_host hhdr hhost, fetchHost_cmd, fetchCommand, hw]

/-- A step on a word that is no command (R93). -/
theorem step_noCommand {w : Word} {e : DecodeError} (hhdr : s.hdr = none) (hhost : s.host = .write 0x0000 w :: rest)
    (hw : decodeCommand w = .error e) : step s = .next (illegalCommand { s with host := rest }) := by
  rw [step_host hhdr hhost, fetchHost_cmd, fetchCommand, hw]

/-- A step on a word written to any address but that of `CMD` (R36). -/
theorem step_write {a : Addr} {v : Word} (hhdr : s.hdr = none) (hhost : s.host = .write a v :: rest) (ha : a ≠ 0x0000) :
    step s = .next (hostWrite a v { s with host := rest }) := by
  rw [step_host hhdr hhost, fetchHost, cmdAddr, if_neg ha]

theorem step_read {a : Addr} (hhdr : s.hdr = none) (hhost : s.host = .read a :: rest) :
    step s = .next (hostRead a { s with host := rest }) := by
  rw [step_host hhdr hhost, fetchHost]

/-- Settles O7: between commands a step takes the host's next action, and the word is decoded. -/
theorem stepRunsTheCommandWritten : Obligations.StepRunsTheCommandWritten :=
  fun _ _ _ _ => step_command

/-- Settles O8: inside a header a step fetches the token at the position. -/
theorem stepRunsTheHeaderToken : Obligations.StepRunsTheHeaderToken := by
  intro s h k n hhdr htoken
  have hfetch : fetchToken s = .ok (k, advance n s) := by rw [fetchToken, unread, htoken]
  rw [step_token hhdr, hfetch]
  rfl

/-! ## Commands that are ignored -/

/-- A word that is no command changes nothing where commands are ignored (R212). -/
theorem illegalCommand_ignored (h : ignores s = true) : illegalCommand s = s := by
  rw [illegalCommand, if_pos h]

/-- A word written to `CMD` changes nothing where commands are ignored, if SRESET is too or the word is another's
(R31, R236, R264). -/
theorem step_ignored {w : Word} (hhdr : s.hdr = none) (hhost : s.host = .write 0x0000 w :: rest)
    (h : ignores s = true) (hw : w ≠ 0x00000001 ∨ s.busy = true) : step s = .next { s with host := rest } := by
  have h' : ignores { s with host := rest } = true := h
  cases hdecode : decodeCommand w with
  | error e => rw [step_noCommand hhdr hhost hdecode, illegalCommand_ignored h']
  | ok i =>
    rw [step_command hhdr hhost hdecode]
    by_cases hi : i = .sreset
    · subst hi
      have hword : w = 0x00000001 := by simpa [encode] using (encode_of_decodeCommand hdecode).symm
      rw [exec_sreset, if_pos (hw.resolve_left (not_not_intro hword))]
    · exact exec_ignored (decodeCommand_isCommand hdecode) hi h'

/-- Settles O10: only SRESET is accepted while `ERR.CODE` is not 0. -/
theorem faultedBlockIgnoresCommands : Obligations.FaultedBlockIgnoresCommands :=
  fun _ _ _ hhdr hfault hw hhost => step_ignored hhdr hhost (ignored_of_fault hfault) (.inl hw)

theorem ignores_of_busy (h : s.busy = true) : ignores s = true := by
  rw [ignores, h, Bool.true_or]

theorem hostWrite_busy (a : Addr) (v : Word) (h : s.busy = true) : hostWrite a v s = s := by
  simp [hostWrite, h]

/-- Settles O11: a busy block ignores every command, SRESET among them, and every other write. -/
theorem busyBlockIgnoresHostWrites : Obligations.BusyBlockIgnoresHostWrites := by
  intro s a v rest hhdr hbusy hhost
  by_cases ha : a = 0x0000
  · subst ha
    exact step_ignored hhdr hhost (ignores_of_busy hbusy) (.inr hbusy)
  · rw [step_write hhdr hhost ha, hostWrite_busy a v (s := { s with host := rest }) hbusy]

/-- Settles O59: these actions are events of a step. -/
theorem environmentSuppliesFreshChannels : Obligations.EnvironmentSuppliesFreshChannels :=
  fun _ hhdr => ⟨fun _ _ hhost => by rw [step_host hhdr hhost, fetchHost],
    fun _ hhost => by rw [step_host hhdr hhost, fetchHost], step_nothing hhdr⟩

end

end Sys2Proof.Machine
end

