-- ==== Sys2Proof/Proofs/HostAccess.lean ====
section
/-! PROOF. The host's reads and writes of the register space (R35, R36, R102, R103). -/

namespace Sys2Proof.Machine

section
variable {s : State} {a : Addr} {v : Word}

/-! ## Writes -/

/-- A write to the address of a symbol's count (R35). -/
theorem hostWrite_count {x : Sym} (hbusy : s.busy = false) (ha : a.toNat = 0x0100 + x.val) :
    hostWrite a v s = ftWrite s x v := by
  have hx := x.isLt
  have hrange : 0x100 ≤ a.toNat ∧ a.toNat - 0x100 < 257 := by omega
  have hsym : (⟨a.toNat - 0x100, hrange.2⟩ : Sym) = x := Fin.ext (by simp only; omega)
  simp only [hostWrite, hbusy, Bool.false_eq_true, if_false, dif_pos hrange, hsym]

/-- A write to no byte value's count is ignored: the marker's is hardwired (R23, R36). -/
theorem hostWrite_other (ha : ∀ x : Sym, x.val < 256 → a.toNat ≠ 0x0100 + x.val) : hostWrite a v s = s := by
  simp only [hostWrite]
  split
  · rfl
  · split
    next hrange =>
      have hmarker : ¬ a.toNat - 0x100 < 256 := fun hlt => ha ⟨a.toNat - 0x100, hrange.2⟩ hlt (by simp only; omega)
      rw [ftWrite, dif_neg hmarker]
    next => rfl

/-- Settles O55: the counts of the byte values are all the host can write. -/
theorem hostWritesOnlyTheByteCounts : Obligations.HostWritesOnlyTheByteCounts := by
  intro s a v rest hhdr hbusy hhost ha
  have hstep := step_write hhdr hhost ha
  refine ⟨fun x hx hax => ⟨_, hstep, ?_, fun y => ?_⟩, fun hother => ?_, ftRead_eos s⟩
  · exact hostWrite_eq a v _
  · rw [hostWrite_count (s := { s with host := rest }) hbusy hax, ftRead_ftWrite]
    simp only [hx, and_true]
    rfl
  · rw [hstep, hostWrite_other hother]

/-! ## Reads -/

/-- A read of an address that has a value puts it on the record (R104). -/
theorem hostRead_of_regWord (h : regWord s a = some v) :
    hostRead a s = { s with record := s.record ++ [⟨a, v⟩] } := by
  rw [hostRead, h]

/-- Settles O54: an address without a value gives a free word. -/
theorem hostReadsHaveNoSideEffect : Obligations.HostReadsHaveNoSideEffect := by
  intro s a rest hhdr hhost
  rw [step_read hhdr hhost, hostRead]
  split
  next v _ => exact ⟨v, s.free, rfl⟩
  next => exact ⟨_, s.free + 1, rfl⟩

section
variable (hbusy : s.busy = false)
include hbusy

/-- A symbol's count (R35). -/
theorem regWord_count {x : Sym} (ha : a.toNat = 0x0100 + x.val) : regWord s a = some (ftRead s x) := by
  have hx := x.isLt
  have hrange : 256 + x.val - 256 < 257 := by omega
  have hsym : (⟨256 + x.val - 256, hrange⟩ : Sym) = x := Fin.ext (by simp only; omega)
  simp (disch := omega) only [regWord, ha, hbusy, Bool.false_eq_true, if_neg, dif_pos hrange, hsym, if_false]

/-- A word of a used entry of a valid tree's node store (R102). -/
theorem regWord_node {i : NodeIdx} {k : Fin 4} (ha : a.toNat = 0x1000 + 4 * i.val + k.val) (hvalid : s.treeValid = true)
    (hi : i.val < s.ncount.val) : regWord s a = some (nodeWord s.node[i] k.val) := by
  have hk := k.isLt
  have hlt := i.isLt
  have hindex : (0x1000 + 4 * i.val + k.val - 0x1000) / 4 = i.val := by omega
  have hword : (0x1000 + 4 * i.val + k.val - 0x1000) % 4 = k.val := by omega
  simp (disch := omega) only [regWord, ha, hbusy, Bool.false_eq_true, if_false, if_neg, dif_neg, hindex, hword,
    dif_pos hlt, hvalid, decide_eq_true hi, Bool.and_self, if_true]
  rfl

/-- A word of an entry of a valid code table (R103). -/
theorem regWord_code {x : Sym} {k : Fin 16} (ha : a.toNat = 0x2000 + 16 * x.val + k.val) (hvalid : s.ctValid = true) :
    regWord s a = some (entryWord s.ct[x] k.val) := by
  have hk := k.isLt
  have hx := x.isLt
  have hindex : (0x2000 + 16 * x.val + k.val - 0x2000) / 16 = x.val := by omega
  have hword : (0x2000 + 16 * x.val + k.val - 0x2000) % 16 = k.val := by omega
  simp (disch := omega) only [regWord, ha, hbusy, Bool.false_eq_true, if_false, if_neg, dif_neg, hindex, hword,
    dif_pos hx, hvalid, if_true]
  rfl

/-- Every address R35 does not list reads 0. -/
theorem regWord_unlisted (ha : 0x0007 ≤ a.toNat ∧ a.toNat < 0x0100 ∨ 0x0201 ≤ a.toNat ∧ a.toNat < 0x1000 ∨
    0x1804 ≤ a.toNat ∧ a.toNat < 0x2000 ∨ 0x3010 ≤ a.toNat) : regWord s a = some 0 := by
  simp only [regWord, hbusy]
  rw [if_neg (by omega), if_neg (by simp), if_neg (by omega), if_neg (by omega), if_neg (by omega), if_neg (by omega),
    if_neg (by omega)]
  obtain h | h | h | h := ha
  · rw [if_pos h.2]
  · rw [if_neg (by omega), dif_neg (by omega), if_pos h.2]
  · rw [if_neg (by omega), dif_neg (by omega), if_neg (by omega), dif_neg (by omega), if_pos h.2]
  · rw [if_neg (by omega), dif_neg (by omega), if_neg (by omega), dif_neg (by omega), if_neg (by omega),
      dif_neg (by omega)]

end

/-- Settles O53: the register map, address by address. -/
theorem hostReadsTheRegisterMap : Obligations.HostReadsTheRegisterMap := by
  intro s a v rest hhdr hbusy hhost hmap
  have hb : ({ s with host := rest } : State).busy = false := hbusy
  rw [step_read hhdr hhost]
  refine congrArg _ (hostRead_of_regWord (s := { s with host := rest }) ?_)
  obtain ⟨rfl, rfl⟩ | ⟨rfl, rfl⟩ | ⟨rfl, rfl⟩ | ⟨rfl, rfl⟩ | ⟨rfl, rfl⟩ | ⟨rfl, rfl⟩ | ⟨rfl, rfl⟩ |
    ⟨x, ha, rfl⟩ | ⟨i, k, ha, hvalid, hi, rfl⟩ | ⟨x, k, ha, hvalid, rfl⟩ | ⟨ha, rfl⟩ := hmap
  · simp [regWord, hbusy]
  · rfl
  · simp [regWord, hbusy]
  · simp [regWord, hbusy]
  · simp [regWord, hbusy]
  · simp [regWord, hbusy]; rfl
  · exact regWord_magicr hb
  · exact regWord_count hb ha
  · exact regWord_node hb ha hvalid hi
  · exact regWord_code hb ha hvalid
  · exact regWord_unlisted hb ha

end

end Sys2Proof.Machine
end

