-- ==== Sys2Proof/Proofs/Words.lean ====
section
/-! PROOF. The fields of the words the host reads (R30, R32, R33, R35, R102, R103). -/

namespace Sys2Proof.Machine

/-! ## Fields of a word given as a number -/

/-- A bit field of the word with the value `n`. -/
theorem extractLsb'_ofNat_toNat (n k m : Nat) :
    ((BitVec.ofNat 32 n).extractLsb' k m).toNat = n % 2 ^ 32 / 2 ^ k % 2 ^ m := by
  rw [BitVec.extractLsb'_toNat, BitVec.toNat_ofNat, Nat.shiftRight_eq_div_pow]

theorem extractLsb'_ofNat_eq {n k m : Nat} {v : BitVec m} (h : n % 2 ^ 32 / 2 ^ k % 2 ^ m = v.toNat) :
    (BitVec.ofNat 32 n).extractLsb' k m = v :=
  BitVec.eq_of_toNat_eq ((extractLsb'_ofNat_toNat n k m).trans h)

theorem extractLsb'_ofNat_eq_ofNat {n k m : Nat} (c : Nat) (h : n % 2 ^ 32 / 2 ^ k % 2 ^ m = c % 2 ^ m) :
    (BitVec.ofNat 32 n).extractLsb' k m = BitVec.ofNat m c :=
  extractLsb'_ofNat_eq (h.trans (BitVec.toNat_ofNat c m).symm)

/-! ## Node words -/

section
variable {x y : Sym} {w v : Weight} {l r : NodeIdx}

theorem nodeWord_leaf_symbol (x : Sym) (w : Weight) : ((nodeWord (.leaf x w) 0).extractLsb' 0 9).toNat = x.val := by
  have hx := x.isLt
  rw [nodeWord, extractLsb'_ofNat_toNat]
  omega

theorem nodeWord_leaf_kind (x : Sym) (w : Weight) : (nodeWord (.leaf x w) 0).getLsbD 31 = false := by
  have hx : x.val < 2 ^ 31 := x.isLt.trans (by decide)
  rw [nodeWord, BitVec.getLsbD_ofNat, Nat.testBit_lt_two_pow hx, Bool.and_false]

theorem nodeWord_internal_kind (w : Weight) (l r : NodeIdx) : (nodeWord (.internal w l r) 0).getLsbD 31 = true := by
  rw [nodeWord]
  decide

/-- The children of an internal node are at bits 9:0 and 25:16 of its word 3, the bits between and above 0 (R102). -/
theorem nodeWord_internal_children (w : Weight) (l r : NodeIdx) :
    ((nodeWord (.internal w l r) 3).extractLsb' 0 10).toNat = l.val ∧
    ((nodeWord (.internal w l r) 3).extractLsb' 16 10).toNat = r.val ∧
    (nodeWord (.internal w l r) 3).extractLsb' 10 6 = 0 ∧ (nodeWord (.internal w l r) 3).extractLsb' 26 6 = 0 := by
  have hl := l.isLt
  have hr := r.isLt
  rw [nodeWord]
  refine ⟨?_, ?_, extractLsb'_ofNat_eq_ofNat 0 ?_, extractLsb'_ofNat_eq_ofNat 0 ?_⟩
  · rw [extractLsb'_ofNat_toNat]
    omega
  · rw [extractLsb'_ofNat_toNat]
    omega
  · omega
  · omega

/-- The high part of a weight is in bits 8:0 of word 2, the rest of which is 0 (R102). -/
theorem nodeWord_weight_high (n : Node) : (nodeWord n 2).extractLsb' 0 9 = (nodeWeight n).extractLsb' 32 9 ∧
    (nodeWord n 2).extractLsb' 9 23 = 0 := by
  have hword : nodeWord n 2 = ((nodeWeight n).extractLsb' 32 9).setWidth 32 := by cases n <;> rfl
  rw [hword]
  generalize (nodeWeight n).extractLsb' 32 9 = h
  have hh := h.isLt
  constructor <;> apply BitVec.eq_of_toNat_eq <;>
    simp only [BitVec.extractLsb'_toNat, BitVec.toNat_setWidth, Nat.shiftRight_eq_div_pow, BitVec.ofNat_eq_ofNat,
      BitVec.toNat_ofNat] <;> omega

theorem nodeWord_weight_low (n : Node) : nodeWord n 1 = (nodeWeight n).extractLsb' 0 32 := by cases n <;> rfl

/-- Words 1 and 2 tell the weight (R102). -/
theorem nodeWeight_eq_of_words {m n : Node} (h₁ : nodeWord m 1 = nodeWord n 1) (h₂ : nodeWord m 2 = nodeWord n 2) :
    nodeWeight m = nodeWeight n := by
  have hlow : (nodeWeight m).extractLsb' 0 32 = (nodeWeight n).extractLsb' 0 32 := by
    rw [← nodeWord_weight_low, h₁, nodeWord_weight_low]
  have hhigh : (nodeWeight m).extractLsb' 32 9 = (nodeWeight n).extractLsb' 32 9 := by
    rw [← (nodeWord_weight_high m).1, h₂, (nodeWord_weight_high n).1]
  apply BitVec.eq_of_toNat_eq
  have hlow := congrArg BitVec.toNat hlow
  have hhigh := congrArg BitVec.toNat hhigh
  have hm := (nodeWeight m).isLt
  have hn := (nodeWeight n).isLt
  simp only [BitVec.extractLsb'_toNat, Nat.shiftRight_eq_div_pow] at hlow hhigh
  omega

/-- The four words tell a node whole (R102). -/
theorem node_eq_of_words {m n : Node} (h : ∀ k < 4, nodeWord m k = nodeWord n k) : m = n := by
  have hweight := nodeWeight_eq_of_words (h 1 (by decide)) (h 2 (by decide))
  have hkind := congrArg (·.getLsbD 31) (h 0 (by decide))
  cases m with
  | leaf x w =>
    cases n with
    | leaf y v =>
      have hsymbol := congrArg (fun u : Word => (u.extractLsb' 0 9).toNat) (h 0 (by decide))
      simp only [nodeWord_leaf_symbol] at hsymbol
      obtain rfl := Fin.ext hsymbol
      exact congrArg (Node.leaf x) hweight
    | internal v l r => simp only [nodeWord_leaf_kind, nodeWord_internal_kind, Bool.false_eq_true] at hkind
  | internal w l r =>
    cases n with
    | leaf y v => simp only [nodeWord_leaf_kind, nodeWord_internal_kind, Bool.true_eq_false] at hkind
    | internal v l' r' =>
      obtain ⟨hl, hr, -⟩ := nodeWord_internal_children w l r
      obtain ⟨hl', hr', -⟩ := nodeWord_internal_children v l' r'
      rw [h 3 (by decide)] at hl hr
      obtain rfl := Fin.ext (hl.symm.trans hl')
      obtain rfl := Fin.ext (hr.symm.trans hr')
      exact congrArg (Node.internal · l r) hweight

end

/-- Settles O56: each field is read off its own bits. -/
theorem nodeWordsTellTheNode : Obligations.NodeWordsTellTheNode := by
  refine ⟨fun x w => ⟨nodeWord_leaf_kind x w, nodeWord_leaf_symbol x w, ?_, rfl⟩,
    fun w l r => ⟨nodeWord_internal_kind w l r, by rw [nodeWord]; rfl, nodeWord_internal_children w l r⟩,
    fun n => ⟨nodeWord_weight_low n, nodeWord_weight_high n⟩, fun m n => node_eq_of_words⟩
  have hx := x.isLt
  exact extractLsb'_ofNat_eq_ofNat 0 (by omega)

/-! ## Code words -/

theorem bitsMSB_getElem? {n i : Nat} (v : Nat) (h : i < n) : (bitsMSB n v)[i]? = some (v.testBit (n - 1 - i)) := by
  induction n generalizing i with
  | zero => exact absurd h (Nat.not_lt_zero i)
  | succ n ih =>
    rw [bitsMSB]
    cases i with
    | zero => rfl
    | succ i =>
      rw [List.getElem?_cons_succ, ih (by omega)]
      congr 2
      omega

/-- The bits of the number a sequence stands for, first bit most significant (R6). -/
theorem testBit_valMSB {q : List Bool} {i : Nat} (h : i < q.length) :
    (valMSB q).testBit (q.length - 1 - i) = (q[i]?).getD false := by
  have hbit := bitsMSB_getElem? (valMSB q) h
  rw [bitsMSB_valMSB] at hbit
  rw [hbit, Option.getD_some]

/-- Zeros past the end of a sequence are what reading past its end gives. -/
theorem getElem?_padded_getD (q : List Bool) (n i : Nat) :
    ((q ++ List.replicate n false)[i]?).getD false = (q[i]?).getD false := by
  by_cases hi : i < q.length
  · rw [List.getElem?_append_left hi]
  · rw [List.getElem?_append_right (by omega), List.getElem?_eq_none (l := q) (by omega), List.getElem?_replicate]
    split <;> rfl

/-- Bit `31 - i` of code word `j` is code bit `32·j + i` (R103). -/
theorem codeWord_getLsbD (code : List Bool) (j : Nat) {i : Nat} (hi : i < 32) :
    (codeWord code j).getLsbD (31 - i) = (code[32 * j + i]?).getD false := by
  rw [codeWord, BitVec.getLsbD_ofNat, decide_eq_true (by omega), Bool.true_and]
  have hcode : ((code.drop (32 * j)).take 32)[i]? = code[32 * j + i]? := by
    rw [List.getElem?_take_of_lt hi, List.getElem?_drop]
  rw [← hcode]
  generalize hq : (code.drop (32 * j)).take 32 = q
  have hlen : (q ++ List.replicate (32 - q.length) false).length = 32 := by
    have : q.length ≤ 32 := hq ▸ List.length_take_le 32 _
    rw [List.length_append, List.length_replicate]
    omega
  have hbit := testBit_valMSB (q := q ++ List.replicate (32 - q.length) false) (i := i) (by rw [hlen]; exact hi)
  rwa [hlen, getElem?_padded_getD] at hbit

/-- Settles O57: word `1 + j / 32` is code word `j / 32`. -/
theorem codeWordsHoldTheCode : Obligations.CodeWordsHoldTheCode := by
  intro e he
  refine ⟨fun j hj => ?_, ?_, fun k hk _ => ?_⟩
  · have hword : entryWord e (1 + j / 32) = codeWord e.code (j / 32) := by
      rw [entryWord, if_neg (by omega), if_pos (by omega), Nat.add_sub_cancel_left]
    rw [hword, codeWord_getLsbD _ _ (Nat.mod_lt j (by decide)), Nat.div_add_mod]
  · have hpresent := e.present.toNat_le
    rw [entryWord, if_pos rfl, BitVec.toNat_ofNat, CtEntry.len]
    omega
  · rw [entryWord, if_neg (by omega), if_neg (by omega)]

/-! ## Register words -/

/-- A number put together from bits, least significant first, has those bits and no other. -/
theorem testBit_foldr_bit (bs : List Bool) (k : Nat) : (bs.foldr Nat.bit 0).testBit k = bs.getD k false := by
  induction bs generalizing k with
  | nil => simp
  | cons b bs ih =>
    cases k with
    | zero => simp
    | succ k => simpa [Nat.testBit_bit_succ] using ih k

/-- The flags of `STATUS`, bit 0 first (R32). -/
def statusBits (s : State) : List Bool :=
  [s.busy, s.done, s.errf, s.treeValid, s.ctValid, s.decDone, s.oclosed]

theorem statusWord_eq (s : State) : statusWord s = BitVec.ofNat 32 ((statusBits s).foldr Nat.bit 0) := by
  rw [statusWord]
  congr 1
  simp only [statusBits, List.foldr_cons, List.foldr_nil, Nat.bit_val]
  omega

theorem statusWord_getLsbD (s : State) (k : Nat) : (statusWord s).getLsbD k = (statusBits s).getD k false := by
  rw [statusWord_eq, BitVec.getLsbD_ofNat, testBit_foldr_bit]
  by_cases hk : k < 32
  · rw [decide_eq_true hk, Bool.true_and]
  · rw [decide_eq_false hk, Bool.false_and, List.getD_eq_default _ _ (by simp [statusBits]; omega)]

/-- Settles O58: each word is the sum of its fields, shifted to their bits. -/
theorem registerWordsHoldTheFields : Obligations.RegisterWordsHoldTheFields := by
  refine ⟨fun s k => ?_, fun e => ?_, fun s => ?_⟩
  · rw [statusWord_getLsbD, statusBits, State.errf, State.decDone, bne, Bool.beq_eq_decide_eq, decide_not]
    rfl
  · have hcode := e.code.isLt
    have hinfo := e.info.isLt
    have haux := e.aux.isLt
    exact ⟨extractLsb'_ofNat_eq (by omega), extractLsb'_ofNat_eq (by omega), extractLsb'_ofNat_eq (by omega),
      extractLsb'_ofNat_eq_ofNat 0 (by omega)⟩
  · have hcur := s.cur.isLt
    have hcode : s.dstate.code ≤ 2 := by cases s.dstate <;> decide
    have hfield : ∀ d, s.dstate = d → (dwalkWord s).extractLsb' 10 2 = BitVec.ofNat 2 d.code := by
      rintro _ rfl
      exact extractLsb'_ofNat_eq_ofNat s.dstate.code (by omega)
    refine ⟨?_, hfield .atRoot, hfield .atInternal, hfield .done, extractLsb'_ofNat_eq_ofNat 0 (by omega)⟩
    rw [dwalkWord, extractLsb'_ofNat_toNat]
    omega

end Sys2Proof.Machine
end

