-- ==== Sys2Proof/Proofs/Count.lean ====
section
/-! PROOF. COUNT on whole bytes: what it stores, and that it completes only if no count overflows (R122, R123). -/

namespace Sys2Proof.Machine

section
variable {b : List Byte}

/-- Every byte is one of the 256 byte values, so their numbers of occurrences add up to the length. -/
theorem sum_count_ofNat (b : List Byte) : ∑ i : Fin 256, b.count (BitVec.ofNat 8 i.val) = b.length := by
  induction b with
  | nil => simp
  | cons x b ih =>
    have hx : ∀ i : Fin 256, x = BitVec.ofNat 8 i.val ↔ i = x.toFin := fun i =>
      ⟨fun h => Fin.ext (by rw [h]; exact (Nat.mod_eq_of_lt i.isLt).symm), fun h => by
        rw [h]
        exact (byte_ofNat_toNat x).symm⟩
    simp only [List.count_cons, beq_iff_eq, hx, Finset.sum_add_distrib, ih, Finset.sum_ite_eq', Finset.mem_univ,
      if_true, List.length_cons]

/-- A count that fits its word is the word's value (R123). -/
theorem countsOf_toNat {x : Byte} (h : b.count x < 2 ^ 32) : ((countsOf b)[x.toNat]'x.isLt).toNat = b.count x := by
  rw [countsOf_getElem]
  exact (eq_toNat_of_ofNat_eq h rfl).symm

theorem countsOf_ne_zero_iff {x : Byte} (h : b.count x < 2 ^ 32) : (countsOf b)[x.toNat]'x.isLt ≠ 0 ↔ x ∈ b := by
  rw [← List.count_pos_iff, ← countsOf_toNat h, Nat.pos_iff_ne_zero, ne_eq, ne_eq, ← BitVec.toNat_inj]
  rfl

/-- The counts add up to the number of bytes (R123). -/
theorem countsOf_sum (h : ∀ x : Byte, b.count x < 2 ^ 32) : ((countsOf b).toList.map BitVec.toNat).sum = b.length := by
  have hcounts :
      (countsOf b).toList.map BitVec.toNat = List.ofFn fun i : Fin 256 => b.count (BitVec.ofNat 8 i.val) := by
    rw [countsOf, Vector.toList_ofFn, List.map_ofFn]
    congr 1
    funext i
    exact Nat.mod_eq_of_lt (h _)
  rw [hcounts, List.sum_ofFn, sum_count_ofNat]

/-- If some byte occurs `N` times there is a first one to do so. -/
theorem exists_first_full {N : Nat} {x : Byte} (h : N ≤ b.count x) (hN : 0 < N) :
    ∃ c y rest, b = c ++ [y] ++ rest ∧ (∀ z, c.count z < N) ∧ c.count y + 1 = N := by
  induction b using List.reverseRecOn generalizing x with
  | nil =>
    rw [List.count_nil] at h
    omega
  | append_singleton b y ih =>
    by_cases hb : ∃ z, N ≤ b.count z
    · obtain ⟨z, hz⟩ := hb
      obtain ⟨c, w, rest, rfl, hsmall, hfull⟩ := ih hz
      exact ⟨c, w, rest ++ [y], by rw [List.append_assoc], hsmall, hfull⟩
    · simp only [not_exists, not_le] at hb
      refine ⟨b, y, [], by rw [List.append_nil], hb, ?_⟩
      have hx := hb x
      rw [List.count_append, List.count_singleton] at h
      split at h
      next heq =>
        obtain rfl := beq_iff_eq.mp heq
        omega
      next => omega

end

/-- Settles O17: on bytes whose counts fit COUNT stores them; on others the first byte to overflow stops it. -/
theorem countCountsTheBytes : Obligations.CountCountsTheBytes := by
  intro s b tail hs hunread htail
  refine ⟨fun hsmall => ⟨?_, fun x => countsOf_toNat (hsmall x), fun x => countsOf_ne_zero_iff (hsmall x),
    countsOf_sum hsmall⟩, fun t hexec herrf x => ?_⟩
  · have hbody := bodyCount_bytes (s := accept s) hunread htail hsmall
    rw [exec_ready_ok (i := .count) (t := withCounts b (inReset s)) rfl (by decide) hs (failedNeed_needsNothing s)
      (ready_withCounts b hs) hbody]
    simp only [withCounts, inReset]
  · by_contra hfull
    obtain ⟨c, y, rest, rfl, hsmall, hy⟩ := exists_first_full (not_lt.mp hfull) (Nat.two_pow_pos 32)
    rw [bytesToBits_append, List.append_assoc] at hunread
    rw [countOverflowIsReported s c y _ hs hunread hsmall (Nat.eq_sub_of_add_eq hy), Host.Outcome.next.injEq] at hexec
    subst hexec
    exact absurd herrf (by simp [State.errf])

end Sys2Proof.Machine
end

