-- ==== Sys2Proof/Proofs/Output.lean ====
section
/-! PROOF. ENC_PAYLOAD with a code for every byte, and the commands that write, on a closed channel (R66, R171, U16). -/

namespace Sys2Proof.Machine

/-- Settles O37: the loop writes the codes of the bytes, and the marker's code follows. -/
theorem encPayloadAppendsTheCodes : Obligations.EncPayloadAppendsTheCodes := by
  intro s b tail hs hvalid hoclosed hopen hdata htail hpresent heos
  have hbody := bodyEncPayload_present (s := accept s) hdata htail hpresent heos hopen
  rw [exec_ready_ok (i := .encPayload)
    (t := appendOutput (tableCodes s.ct b ++ (s.ct[Config.eos]).code) { s with input := ⟨s.input.data, 8 * b.length⟩ })
    rfl (by decide) hs (failedNeed_needsCtOut hvalid hoclosed) hs hbody]
  simp only [appendOutput, tableCodes, List.append_assoc]

/-- A write of some bits to a closed channel is refused (R66). -/
theorem outBits_closed {s : State} {q : List Bool} (hq : q ≠ []) (hclosed : s.output.closed = true) :
    outBits q s = .refused .writeToClosedOutput := by
  rw [outBits, if_neg hq, if_pos hclosed]

theorem Tree.header_ne_nil (T : Tree) : T.header ≠ [] := by
  intro h
  have hlength := T.header_length
  have hleaves := T.leaves_pos
  rw [h, List.length_nil] at hlength
  omega

/-- A command on a ready block whose checks pass and whose body is refused. -/
theorem exec_ready_refused {i : Instr} (hc : i.isCommand = true) (hi : i ≠ .sreset) {s : State} {x : Refusal}
    (hs : Ready s) (hn : failedNeed (needsOf i) s = none) (hbody : bodyOf i (accept s) = .refused x) :
    exec i s = .refused x := by
  rw [exec_ready hc hi hs hn, hbody, finish]

/-- Settles O40: the magic and a header have bits to write, and closing is refused whatever there is to pad. -/
theorem closedChannelIsRefused : Obligations.ClosedChannelIsRefused := by
  intro s hs hoclosed hclosed
  have hout := failedNeed_needsOut hoclosed
  refine ⟨exec_ready_refused rfl (by decide) hs hout ?_, exec_ready_refused rfl (by decide) hs hout ?_,
    fun hvalid hwf => exec_ready_refused rfl (by decide) hs (failedNeed_needsTreeOut hvalid hoclosed) ?_⟩
  · exact outBits_closed (s := accept s) (q := bitsMSB 32 magic.toNat) (by simp [bitsMSB]) hclosed
  · rw [bodyOf, bodyCloseOut, outClose, if_pos (show (accept s).output.closed = true from hclosed), refused_bind]
  · obtain ⟨T, hT⟩ := exists_treeOf hwf
    have hT' : treeOf (accept s) = some T := hT
    rw [bodyOf, bodyWrHeader, hT']
    exact outBits_closed (s := accept s) T.header_ne_nil hclosed

end Sys2Proof.Machine
end

