-- ==== Sys2Proof/Proofs/Composites.lean ====
section
/-! PROOF. A composite command is its steps as commands of their own: each step's body leaves what acceptance sets up
and what the next step's checks need, and after a fault the rest are ignored (R105, R174, R195, R236). -/

namespace Sys2Proof.Machine

/-- The flags the checks of R213 look at. -/
def flagsOf (s : State) : Bool × Bool × Bool := (s.treeValid, s.ctValid, s.oclosed)

/-- A command is running and nothing that lives only inside one of its parts is there (R28, R29, R212). -/
def Running (s : State) : Prop := s.busy = true ∧ s.done = false ∧ s.pq = [] ∧ s.hdr = none

/-- A body that completes leaves a command running, with the flags `f`. -/
def Result.Leaves (f : Bool × Bool × Bool) (r : Result State) : Prop :=
  r.Meets (fun t => Running t ∧ flagsOf t = f) fun _ _ => True

section
variable {s t : State} {f : Bool × Bool × Bool}

theorem running_accept (hs : Ready s) : Running (accept s) := by
  obtain ⟨⟨-, hpq, hhdr⟩, -⟩ := hs
  exact ⟨rfl, rfl, hpq, hhdr⟩

/-- Completing a part of a command and accepting the next one leaves the state as it was. -/
theorem accept_complete (h : Running s) : accept (complete s) = s := by
  obtain ⟨hbusy, hdone, hpq, hhdr⟩ := h
  simp only [accept, complete, ← hbusy, ← hdone, ← hpq, ← hhdr]

/-! ## The bodies -/

theorem Result.Meets.leaves {r : Result State} {p : State → Prop} {q : BlockFault → State → Prop} (h : r.Meets p q)
    (hp : ∀ t, p t → Running t ∧ flagsOf t = f) : r.Leaves f :=
  h.imp hp fun _ _ _ => trivial

theorem streamWrites.running (h : streamWrites s t) (hs : Running s) : Running t ∧ flagsOf t = flagsOf s := by
  obtain ⟨_, _, rfl, -⟩ := h
  exact ⟨hs, rfl⟩

theorem walkWrites.running (h : walkWrites s t) (hs : Running s) : Running t ∧ flagsOf t = flagsOf s := by
  obtain ⟨_, hu, ht⟩ := h
  rw [ht]
  exact hu.running hs

section
variable (hs : Running s)
include hs

theorem bodyCount_leaves : (bodyCount s).Leaves (flagsOf s) :=
  (bodyCount_frame s).leaves fun t ht => by rw [ht]; exact ⟨hs, rfl⟩

theorem bodyBuild_leaves : (bodyBuild s).Leaves (true, false, s.oclosed) :=
  (bodyBuild_frame s).leaves fun t ht => by
    obtain ⟨hbusy, hdone, -, hhdr⟩ := hs
    rw [ht]
    exact ⟨⟨hbusy, hdone, rfl, hhdr⟩, rfl⟩

theorem bodyGencodes_leaves : (bodyGencodes s).Leaves (s.treeValid, true, s.oclosed) :=
  (bodyGencodes_frame s).leaves fun t ht => by rw [ht]; exact ⟨hs, rfl⟩

theorem bodyWrMagic_leaves (m : Word) : (bodyWrMagic m s).Leaves (flagsOf s) :=
  (outBits_stream _ s).leaves fun _ ht => ht.running hs

theorem bodyWrHeader_leaves : (bodyWrHeader s).Leaves (flagsOf s) :=
  (bodyWrHeader_frame s).leaves fun t ⟨_, ht, _⟩ => by rw [ht]; exact ⟨hs, rfl⟩

theorem bodyEncPayload_leaves : (bodyEncPayload s).Leaves (flagsOf s) :=
  (bodyEncPayload_frame s).leaves fun _ ht => ht.running hs

theorem bodyRdMagic_leaves (m : Word) : (bodyRdMagic m s).Leaves (flagsOf s) :=
  (bodyRdMagic_frame m s).leaves fun t ht => by rw [ht]; exact ⟨hs, rfl⟩

theorem bodyRdHeader_leaves : (bodyRdHeader s).Leaves (true, false, s.oclosed) :=
  (bodyRdHeader_frame s).leaves fun t ht => by
    obtain ⟨hbusy, hdone, hpq, -⟩ := hs
    rw [ht.2]
    exact ⟨⟨hbusy, hdone, hpq, rfl⟩, rfl⟩

theorem bodyDecPayload_leaves : (bodyDecPayload s).Leaves (flagsOf s) :=
  (bodyDecPayload_frame s).leaves fun _ ht => ht.running hs

end

/-! ## The sequence -/

/-- After a fault every command but SRESET is ignored (R236). -/
theorem execSeq_of_fault {is : List Instr} (his : ∀ i ∈ is, i.isCommand = true ∧ i ≠ .sreset) (h : s.err.code ≠ 0) :
    execSeq is s = .next s := by
  induction is with
  | nil => rfl
  | cons i is ih =>
    obtain ⟨⟨hc, hi⟩, his⟩ := List.forall_mem_cons.mp his
    rw [execSeq, exec_ignored hc hi (ignored_of_fault h)]
    exact ih his

/-- One step of a composite: its body inside the composite does what the command on its own does, and what follows
starts as it would after the command. -/
theorem finish_bind_eq_execSeq {i : Instr} {is : List Instr} {g : State → Result State} (hs : Ready s)
    (hc : i.isCommand = true) (hi : i ≠ .sreset) (hn : failedNeed (needsOf i) s = none)
    (his : ∀ i ∈ is, i.isCommand = true ∧ i ≠ .sreset) (hbody : (bodyOf i (accept s)).Leaves f)
    (hg : ∀ u, Ready u → flagsOf u = f → finish (g (accept u)) = execSeq is u) :
    finish ((bodyOf i (accept s)).bind g) = execSeq (i :: is) s := by
  rw [execSeq, exec_ready hc hi hs hn]
  cases hr : bodyOf i (accept s) with
  | ok t =>
    obtain ⟨hrunning, hflags⟩ := hbody.of_ok hr
    have herr : t.err = s.err := (bodyOf_keepsErr (accept s) i).of_ok hr
    have hready : Ready (complete t) := ⟨⟨rfl, rfl, rfl⟩, (congrArg ErrReg.code herr).trans hs.2⟩
    have hnext := hg (complete t) hready hflags
    rwa [accept_complete hrunning] at hnext
  | raised f t => exact (execSeq_of_fault his (by simpa using toErr_code_ne_zero f)).symm
  | refused => rfl
  | stuck => rfl

/-- The last step of a composite. -/
theorem finish_eq_execSeq {i : Instr} (hs : Ready s) (hc : i.isCommand = true) (hi : i ≠ .sreset)
    (hn : failedNeed (needsOf i) s = none) : finish (bodyOf i (accept s)) = execSeq [i] s := by
  rw [execSeq, exec_ready hc hi hs hn]
  cases finish (bodyOf i (accept s)) <;> rfl

/-- With both tables valid and `OCLOSED` 0 no check fails (R213). -/
theorem failedNeed_of_flagsOf (n : Needs) {c : Bool} (h : flagsOf s = (true, c, false)) (hct : n.ct = true → c = true) :
    failedNeed n s = none := by
  simp only [flagsOf, Prod.mk.injEq] at h
  obtain ⟨htree, hctv, hoclosed⟩ := h
  rw [failedNeed, htree, hctv, hoclosed]
  cases hn : n.ct
  · simp
  · simp [hct hn]

end

/-- Settles O41: after BUILD and GENCODES both tables are valid, and no step before CLOSE_OUT sets `OCLOSED`. -/
theorem compressIsItsSevenSteps : Obligations.CompressIsItsSevenSteps := by
  intro s hs hoclosed
  rw [exec_ready (i := .compress) rfl (by decide) hs (failedNeed_needsOut hoclosed), bodyOf, bodyCompress]
  refine finish_bind_eq_execSeq (i := .count) hs rfl (by decide) (failedNeed_needsNothing s) (by decide)
    (bodyCount_leaves (running_accept hs)) fun s₁ hs₁ h₁ => ?_
  have hoclosed₁ : s₁.oclosed = false := (congrArg (·.2.2) h₁).trans hoclosed
  refine finish_bind_eq_execSeq (i := .build) hs₁ rfl (by decide) (failedNeed_needsNothing s₁) (by decide)
    (bodyBuild_leaves (running_accept hs₁)) fun s₂ hs₂ h₂ => ?_
  have h₂ : flagsOf s₂ = (true, false, false) := h₂.trans (congrArg (true, false, ·) hoclosed₁)
  refine finish_bind_eq_execSeq (i := .gencodes) hs₂ rfl (by decide) (failedNeed_of_flagsOf _ h₂ (by decide))
    (by decide) (bodyGencodes_leaves (running_accept hs₂)) fun s₃ hs₃ h₃ => ?_
  have h₃ : flagsOf s₃ = (true, true, false) := h₃.trans (congrArg (fun f => (f.1, true, f.2.2)) h₂)
  refine finish_bind_eq_execSeq (i := .wrMagic) hs₃ rfl (by decide) (failedNeed_of_flagsOf _ h₃ fun _ => rfl)
    (by decide) (bodyWrMagic_leaves (running_accept hs₃) magic) fun s₄ hs₄ h₄ => ?_
  have h₄ : flagsOf s₄ = (true, true, false) := h₄.trans h₃
  refine finish_bind_eq_execSeq (i := .wrHeader) hs₄ rfl (by decide) (failedNeed_of_flagsOf _ h₄ fun _ => rfl)
    (by decide) (bodyWrHeader_leaves (running_accept hs₄)) fun s₅ hs₅ h₅ => ?_
  have h₅ : flagsOf s₅ = (true, true, false) := h₅.trans h₄
  refine finish_bind_eq_execSeq (i := .encPayload) hs₅ rfl (by decide) (failedNeed_of_flagsOf _ h₅ fun _ => rfl)
    (by decide) (bodyEncPayload_leaves (running_accept hs₅)) fun s₆ hs₆ h₆ => ?_
  have h₆ : flagsOf s₆ = (true, true, false) := h₆.trans h₅
  exact finish_eq_execSeq (i := .closeOut) hs₆ rfl (by decide) (failedNeed_of_flagsOf _ h₆ fun _ => rfl)

/-- Settles O47: after RD_HEADER the tree is valid, and no step before CLOSE_OUT sets `OCLOSED`. -/
theorem decompressIsItsFourSteps : Obligations.DecompressIsItsFourSteps := by
  intro s hs hoclosed
  rw [exec_ready (i := .decompress) rfl (by decide) hs (failedNeed_needsOut hoclosed), bodyOf, bodyDecompress]
  refine finish_bind_eq_execSeq (i := .rdMagic) hs rfl (by decide) (failedNeed_needsNothing s) (by decide)
    (bodyRdMagic_leaves (running_accept hs) magic) fun s₁ hs₁ h₁ => ?_
  have hoclosed₁ : s₁.oclosed = false := (congrArg (·.2.2) h₁).trans hoclosed
  refine finish_bind_eq_execSeq (i := .rdHeader) hs₁ rfl (by decide) (failedNeed_needsNothing s₁) (by decide)
    (bodyRdHeader_leaves (running_accept hs₁)) fun s₂ hs₂ h₂ => ?_
  have h₂ : flagsOf s₂ = (true, false, false) := h₂.trans (congrArg (true, false, ·) hoclosed₁)
  refine finish_bind_eq_execSeq (i := .decPayload) hs₂ rfl (by decide) (failedNeed_of_flagsOf _ h₂ (by decide))
    (by decide) (bodyDecPayload_leaves (running_accept hs₂)) fun s₃ hs₃ h₃ => ?_
  have h₃ : flagsOf s₃ = (true, false, false) := h₃.trans h₂
  exact finish_eq_execSeq (i := .closeOut) hs₃ rfl (by decide) (failedNeed_of_flagsOf _ h₃ (by decide))

end Sys2Proof.Machine
end

