-- ==== Sys2Proof/Proofs/Frames.lean ====
section
/-! PROOF. What no instruction changes: the channels but forwards, the output's end after a fault, and the tables but by
their writers (R22 to R32, R40, R76, R234). -/

namespace Sys2Proof.Machine

/-! ## From a body to its command -/

/-- However a body, or a part of one, started in `s` ends, it ends in a state related to `s`. -/
def Result.Relates (R : State → State → Prop) (s : State) (r : Result State) : Prop := r.Meets (R s) fun _ => R s

section
variable {s t u : State} {i : Instr} {r : Result State} {R : State → State → Prop}

theorem Result.Meets.relates {p : State → Prop} {q : BlockFault → State → Prop} (h : r.Meets p q)
    (hp : ∀ t, p t → R s t) (hq : ∀ f t, q f t → R s t) : r.Relates R s :=
  h.imp hp hq

theorem Result.Relates.bind {f : State → Result State} (h : r.Relates R s) (htrans : ∀ {s t u}, R s t → R t u → R s u)
    (hf : ∀ t, (f t).Relates R t) : (r.bind f).Relates R s :=
  Result.Meets.bind h (fun _ _ h => h) fun t ht => (hf t).imp (fun _ hu => htrans ht hu) fun _ _ hu => htrans ht hu

/-- How a command but SRESET answers: ignored, refused by a check, or as its body ends (R212 to R214). -/
theorem exec_eq_next (hc : i.isCommand = true) (hi : i ≠ .sreset) (h : exec i s = .next t) :
    t = s ∨ (∃ f, t = enterFault f (accept s)) ∨ (∃ u, bodyOf i (accept s) = .ok u ∧ t = complete u) ∨
      ∃ f u, bodyOf i (accept s) = .raised f u ∧ t = enterFault f u := by
  rw [exec_command hc hi] at h
  obtain ⟨-, e⟩ | ⟨-, f, -, e⟩ | ⟨-, -, e⟩ := runCommand_cases (needsOf i) (bodyOf i) s <;> rw [e] at h
  · exact .inl (Host.Outcome.next.inj h).symm
  · exact .inr (.inl ⟨f, (Host.Outcome.next.inj h).symm⟩)
  · obtain h | h := finish_eq_next.mp h
    · exact .inr (.inr (.inl h))
    · exact .inr (.inr (.inr h))

/-- What every body of `i` relates the common steps of a command relate too, if they touch nothing the relation looks
at (R212, R214, R232). -/
theorem exec_relates (hc : i.isCommand = true) (hi : i ≠ .sreset) (h : exec i s = .next t)
    (hbody : (bodyOf i (accept s)).Relates R (accept s)) (hself : R s s) (hfault : ∀ f, R s (enterFault f (accept s)))
    (hcomplete : ∀ u, R (accept s) u → R s (complete u)) (hraise : ∀ f u, R (accept s) u → R s (enterFault f u)) :
    R s t := by
  obtain rfl | ⟨f, rfl⟩ | ⟨u, hu, rfl⟩ | ⟨f, u, hu, rfl⟩ := exec_eq_next hc hi h
  · exact hself
  · exact hfault f
  · exact hcomplete u (hbody.of_ok hu)
  · exact hraise f u (hbody.of_raised hu)

/-- How SRESET answers (R211). -/
theorem exec_sreset_eq_next (h : exec .sreset s = .next t) : t = s ∨ t = blockReset s := by
  rw [exec_sreset] at h
  split at h
  · exact .inl (Host.Outcome.next.inj h).symm
  · exact .inr (Host.Outcome.next.inj h).symm

/-! ## The channels -/

/-- What the channel clauses speak of. -/
def channelPart (s : State) : InChannel × OutChannel × Bool := (s.input, s.output, s.oclosed)

/-- From `s` to `t` the input's data stay and the output is at most written to: not taken back, closed or reopened. -/
structure Proceeds (s t : State) : Prop where
  data : t.input.data = s.input.data
  bits : s.output.bits <+: t.output.bits
  of_closed : s.output.closed = true → t.output = s.output
  closed : t.output.closed = s.output.closed
  oclosed : t.oclosed = s.oclosed

theorem Proceeds.of_output (hdata : t.input.data = s.input.data) (hout : t.output = s.output)
    (hoclosed : t.oclosed = s.oclosed) : Proceeds s t :=
  ⟨hdata, hout ▸ List.prefix_rfl, fun _ => hout, congrArg _ hout, hoclosed⟩

theorem Proceeds.refl (s : State) : Proceeds s s := .of_output rfl rfl rfl

theorem Proceeds.trans (h : Proceeds s t) (h' : Proceeds t u) : Proceeds s u where
  data := h'.data.trans h.data
  bits := h.bits.trans h'.bits
  of_closed hc := (h'.of_closed (h.closed.trans hc)).trans (h.of_closed hc)
  closed := h'.closed.trans h.closed
  oclosed := h'.oclosed.trans h.oclosed

/-- Only the channels and `OCLOSED` count. -/
theorem Proceeds.congr {s' t' : State} (h : Proceeds s t) (hs : channelPart s' = channelPart s)
    (ht : channelPart t' = channelPart t) : Proceeds s' t' := by
  simp only [channelPart, Prod.mk.injEq] at hs ht
  obtain ⟨hin, hout, hoclosed⟩ := hs
  obtain ⟨hin', hout', hoclosed'⟩ := ht
  constructor
  · rw [hin, hin']
    exact h.data
  · rw [hout, hout']
    exact h.bits
  · rw [hout, hout']
    exact h.of_closed
  · rw [hout, hout']
    exact h.closed
  · rw [hoclosed, hoclosed']
    exact h.oclosed

theorem streamWrites.proceeds (h : streamWrites s t) : Proceeds s t := by
  obtain ⟨pos, q, rfl, hq⟩ := h
  refine ⟨rfl, List.prefix_append _ _, fun hc => ?_, rfl, rfl⟩
  obtain rfl | hopen := hq
  · simp only [List.append_nil]
  · rw [hopen] at hc
    cases hc

theorem walkWrites.proceeds (h : walkWrites s t) : Proceeds s t := by
  obtain ⟨u, hu, ht⟩ := h
  have hp := hu.proceeds
  rw [ht]
  exact ⟨hp.data, hp.bits, hp.of_closed, hp.closed, hp.oclosed⟩

section
variable (s)

theorem bodyCount_proceeds : (bodyCount s).Relates Proceeds s :=
  (bodyCount_frame s).relates (fun t ht => by rw [ht]; exact .of_output rfl rfl rfl)
    fun f t ht => by rw [ht.2]; exact .of_output rfl rfl rfl

theorem bodyBuild_proceeds : (bodyBuild s).Relates Proceeds s :=
  (bodyBuild_frame s).relates (fun t ht => by rw [ht]; exact .of_output rfl rfl rfl) fun _ _ h => h.elim

theorem bodyGencodes_proceeds : (bodyGencodes s).Relates Proceeds s :=
  (bodyGencodes_frame s).relates (fun t ht => by rw [ht]; exact .of_output rfl rfl rfl) fun _ _ h => h.elim

theorem bodyWrMagic_proceeds (m : Word) : (bodyWrMagic m s).Relates Proceeds s :=
  (outBits_stream _ s).relates (fun _ ht => ht.proceeds) fun _ _ h => h.elim

theorem bodyWrHeader_stream : (bodyWrHeader s).Meets (streamWrites s) fun _ _ => False :=
  (bodyWrHeader_frame s).imp (fun _ ⟨q, ht⟩ => ⟨s.input.pos, q, ht⟩) fun _ _ h => h

theorem bodyWrHeader_proceeds : (bodyWrHeader s).Relates Proceeds s :=
  (bodyWrHeader_stream s).relates (fun _ ht => ht.proceeds) fun _ _ h => h.elim

theorem bodyEncPayload_proceeds : (bodyEncPayload s).Relates Proceeds s :=
  (bodyEncPayload_frame s).relates (fun _ ht => ht.proceeds) fun _ _ ht => ht.2.proceeds

theorem bodyRdMagic_proceeds (m : Word) : (bodyRdMagic m s).Relates Proceeds s :=
  (bodyRdMagic_frame m s).relates (fun t ht => by rw [ht]; exact .of_output rfl rfl rfl)
    fun f t ht => by obtain ⟨-, rfl⟩ | ⟨-, rfl⟩ := ht <;> exact .of_output rfl rfl rfl

theorem bodyRdHeader_proceeds : (bodyRdHeader s).Relates Proceeds s :=
  (bodyRdHeader_frame s).relates (fun t ⟨hdata, ht⟩ => .of_output hdata (by rw [ht]) (by rw [ht]))
    fun f t ⟨_, hdata, ht⟩ => .of_output hdata (by rw [ht]) (by rw [ht])

theorem bodyDecPayload_proceeds : (bodyDecPayload s).Relates Proceeds s :=
  (bodyDecPayload_frame s).relates (fun _ ht => ht.proceeds) fun _ _ ht => ht.2.proceeds

end

/-- The channels of `t` are those of `s` with the output, which was open, padded and closed (R173). -/
def Closes (s t : State) : Prop := s.output.closed = false ∧ channelPart t = channelPart (padAndClose s)

/-- A body that does not fault may close the output at its end; until then, and when it faults, it only proceeds. -/
def Result.ProceedsAndCloses (s : State) (r : Result State) : Prop :=
  r.Meets (fun t => Proceeds s t ∨ ∃ u, Proceeds s u ∧ Closes u t) fun _ => Proceeds s

theorem Result.Relates.proceedsAndCloses (h : r.Relates Proceeds s) : r.ProceedsAndCloses s :=
  h.imp (fun _ ht => .inl ht) fun _ _ ht => ht

/-- CLOSE_OUT after what only proceeds. -/
theorem Result.Relates.bind_closeOut (h : r.Relates Proceeds s) : (r.bind bodyCloseOut).ProceedsAndCloses s :=
  Result.Meets.bind h (fun _ _ h => h) fun t ht =>
    (bodyCloseOut_frame t).imp (fun _ hu => .inr ⟨t, ht, hu.1, congrArg channelPart hu.2⟩) fun _ _ h => h.elim

/-- COMPRESS and DECOMPRESS close the output at their end only (R174, R195); they are reassociated so that what comes
before CLOSE_OUT stands together. -/
theorem bodyCompress_eq (m : Word) (s : State) : bodyCompress m s =
    ((bodyCount s).bind fun s => (bodyBuild s).bind fun s => (bodyGencodes s).bind fun s => (bodyWrMagic m s).bind
      fun s => (bodyWrHeader s).bind bodyEncPayload).bind bodyCloseOut := by
  simp only [bodyCompress, bind_assoc]

theorem bodyDecompress_eq (m : Word) (s : State) : bodyDecompress m s =
    ((bodyRdMagic m s).bind fun s => (bodyRdHeader s).bind bodyDecPayload).bind bodyCloseOut := by
  simp only [bodyDecompress, bind_assoc]

theorem bodyCompress_proceedsAndCloses (m : Word) (s : State) : (bodyCompress m s).ProceedsAndCloses s := by
  rw [bodyCompress_eq]
  exact ((bodyCount_proceeds s).bind .trans fun s => (bodyBuild_proceeds s).bind .trans fun s =>
    (bodyGencodes_proceeds s).bind .trans fun s => (bodyWrMagic_proceeds s m).bind .trans fun s =>
      (bodyWrHeader_proceeds s).bind .trans bodyEncPayload_proceeds).bind_closeOut

theorem bodyDecompress_proceedsAndCloses (m : Word) (s : State) : (bodyDecompress m s).ProceedsAndCloses s := by
  rw [bodyDecompress_eq]
  exact ((bodyRdMagic_proceeds s m).bind .trans fun s => (bodyRdHeader_proceeds s).bind .trans
    bodyDecPayload_proceeds).bind_closeOut

theorem bodyOf_proceedsAndCloses (i : Instr) (s : State) : (bodyOf i s).ProceedsAndCloses s := by
  cases i with
  | count => exact (bodyCount_proceeds s).proceedsAndCloses
  | build => exact (bodyBuild_proceeds s).proceedsAndCloses
  | gencodes => exact (bodyGencodes_proceeds s).proceedsAndCloses
  | wrMagic => exact (bodyWrMagic_proceeds s magic).proceedsAndCloses
  | wrHeader => exact (bodyWrHeader_proceeds s).proceedsAndCloses
  | encPayload => exact (bodyEncPayload_proceeds s).proceedsAndCloses
  | closeOut => exact Result.Relates.bind_closeOut (r := .ok s) (Proceeds.refl s)
  | rdMagic => exact (bodyRdMagic_proceeds s magic).proceedsAndCloses
  | rdHeader => exact (bodyRdHeader_proceeds s).proceedsAndCloses
  | decPayload => exact (bodyDecPayload_proceeds s).proceedsAndCloses
  | compress => exact bodyCompress_proceedsAndCloses magic s
  | decompress => exact bodyDecompress_proceedsAndCloses magic s
  | nop | sreset | hdrInternal | hdrLeaf _ => exact .inl (.refl s)
  | ftClr => exact .inl (.of_output rfl rfl rfl)

/-! ## Header tokens -/

/-- How a header token answers: its effect, completed if the header is over, or a fault (R154, R155). -/
theorem finishToken_eq_next (h : finishToken r = .next t) :
    (∃ u, r = .ok u ∧ (t = u ∨ t = complete u)) ∨ ∃ f u, r = .raised f u ∧ t = enterFault f u := by
  cases r with
  | ok u =>
    refine .inl ⟨u, rfl, ?_⟩
    rw [finishToken] at h
    split at h
    · exact .inl (Host.Outcome.next.inj h).symm
    · exact .inr (Host.Outcome.next.inj h).symm
  | raised f u => exact .inr ⟨f, u, rfl, (Host.Outcome.next.inj h).symm⟩
  | refused => cases h
  | stuck => cases h

/-- Running a token touches neither channel nor `OCLOSED` (log entry 8). -/
theorem token_channelPart (k : HdrToken) (h : finishToken (applyToken k s) = .next t) :
    channelPart t = channelPart s := by
  obtain ⟨u, hu, ht⟩ | ⟨f, u, hu, rfl⟩ := finishToken_eq_next h
  · obtain ⟨⟨hframe, -⟩, hinput, -⟩ := (applyToken_frame k s).of_ok hu
    have hpart : channelPart u = channelPart s := by
      rw [hframe, channelPart, hinput]
      rfl
    obtain rfl | rfl := ht <;> exact hpart
  · obtain ⟨-, rfl⟩ := (applyToken_frame k s).of_raised hu
    rfl

/-! ## Every instruction -/

/-- A command but SRESET only proceeds, or it closes the output at its end and leaves `ERR` as it was. -/
theorem exec_proceeds_or_closes (hc : i.isCommand = true) (hi : i ≠ .sreset) (h : exec i s = .next t) :
    Proceeds s t ∨ t.err = s.err ∧ ∃ u, Proceeds s u ∧ Closes u t := by
  have hbody := bodyOf_proceedsAndCloses i (accept s)
  obtain rfl | ⟨f, rfl⟩ | ⟨u, hu, rfl⟩ | ⟨f, u, hu, rfl⟩ := exec_eq_next hc hi h
  · exact .inl (.refl _)
  · exact .inl (.of_output rfl rfl rfl)
  · obtain hp | ⟨v, hv, hopen, hpart⟩ := hbody.of_ok hu
    · exact .inl (hp.congr rfl rfl)
    · exact .inr ⟨((bodyOf_keepsErr (accept s) i).of_ok hu : u.err = _), v, hv.congr rfl rfl, hopen, hpart⟩
  · exact .inl ((hbody.of_raised hu).congr rfl rfl)

/-- A header token touches neither channel nor `OCLOSED`. -/
theorem exec_token_channelPart (hc : i.isCommand = false) (h : exec i s = .next t) : channelPart t = channelPart s := by
  cases i with
  | hdrInternal => exact token_channelPart .internal h
  | hdrLeaf v => exact token_channelPart (.leaf v) h
  | _ => cases hc

theorem Closes.data (h : Closes s t) : t.input.data = s.input.data := by
  rw [show t.input = s.input from congrArg (·.1) h.2]

theorem Closes.bits (h : Closes s t) : s.output.bits <+: t.output.bits := by
  rw [show t.output = (padAndClose s).output from congrArg (·.2.1) h.2]
  exact List.prefix_append _ _

theorem exec_sreset_channels (h : exec .sreset s = .next t) : t.input = s.input ∧ t.output = s.output := by
  obtain rfl | rfl := exec_sreset_eq_next h <;> exact ⟨rfl, rfl⟩

/-- No instruction changes the input's data, takes a bit back, or writes to a closed channel (R40, R60, R76). -/
theorem exec_moves_forward (h : exec i s = .next t) : t.input.data = s.input.data ∧
    s.output.bits <+: t.output.bits ∧ (s.output.closed = true → t.output = s.output) := by
  cases hc : i.isCommand with
  | false =>
    have hpart := exec_token_channelPart hc h
    have hp : Proceeds s t := (Proceeds.refl s).congr rfl hpart
    exact ⟨hp.data, hp.bits, hp.of_closed⟩
  | true =>
    by_cases hi : i = .sreset
    · subst hi
      obtain ⟨hin, hout⟩ := exec_sreset_channels h
      rw [hin, hout]
      exact ⟨rfl, List.prefix_rfl, fun _ => rfl⟩
    · obtain hp | ⟨-, u, hp, hclose⟩ := exec_proceeds_or_closes hc hi h
      · exact ⟨hp.data, hp.bits, hp.of_closed⟩
      · refine ⟨hclose.data.trans hp.data, hp.bits.trans hclose.bits, fun hclosed => ?_⟩
        rw [← hp.closed, hclose.1] at hclosed
        cases hclosed

/-- Settles O52: what closes the output ends without a fault. -/
theorem aFaultLeavesTheOutputOpen : Obligations.AFaultLeavesTheOutputOpen := by
  intro s t i hs h ht
  cases hc : i.isCommand with
  | false =>
    have hpart := exec_token_channelPart hc h
    exact ⟨congrArg (·.2.1.closed) hpart, congrArg (·.2.2) hpart⟩
  | true =>
    by_cases hi : i = .sreset
    · subst hi
      obtain rfl | rfl := exec_sreset_eq_next h
      · rw [hs] at ht
        cases ht
      · cases ht
    · obtain hp | ⟨herr, -⟩ := exec_proceeds_or_closes hc hi h
      · exact ⟨hp.closed, hp.oclosed⟩
      · rw [State.errf, herr, ← State.errf, hs] at ht
        cases ht

/-! ## The instructions without a channel, and those with one -/

theorem bodyOf_keeps_channels {i : Instr} (hi : i ∈ [Instr.nop, .ftClr, .build, .gencodes]) (s : State) :
    (bodyOf i s).Relates (fun s t => t.input = s.input ∧ t.output = s.output) s := by
  simp only [List.mem_cons, List.not_mem_nil, or_false] at hi
  obtain rfl | rfl | rfl | rfl := hi
  · exact ⟨rfl, rfl⟩
  · exact ⟨rfl, rfl⟩
  · exact (bodyBuild_frame s).relates (fun t ht => by rw [ht]; exact ⟨rfl, rfl⟩) fun _ _ h => h.elim
  · exact (bodyGencodes_frame s).relates (fun t ht => by rw [ht]; exact ⟨rfl, rfl⟩) fun _ _ h => h.elim

theorem bodyOf_keeps_input {i : Instr} (hi : i ∈ [Instr.wrMagic, .wrHeader, .closeOut]) (s : State) :
    (bodyOf i s).Relates (fun s t => t.input = s.input) s := by
  simp only [List.mem_cons, List.not_mem_nil, or_false] at hi
  obtain rfl | rfl | rfl := hi
  · exact (outBits_frame (bitsMSB 32 magic.toNat) s).relates (fun t ht => by rw [ht.1]) fun _ _ h => h.elim
  · exact (bodyWrHeader_frame s).relates (fun t ⟨_, ht, _⟩ => by rw [ht]) fun _ _ h => h.elim
  · exact (bodyCloseOut_frame s).relates (fun t ht => by rw [ht.2]) fun _ _ h => h.elim

theorem bodyOf_keeps_output {i : Instr} (hi : i ∈ [Instr.count, .rdMagic, .rdHeader]) (s : State) :
    (bodyOf i s).Relates (fun s t => t.output = s.output) s := by
  simp only [List.mem_cons, List.not_mem_nil, or_false] at hi
  obtain rfl | rfl | rfl := hi
  · exact (bodyCount_frame s).relates (fun t ht => by rw [ht]) fun f t ht => by rw [ht.2]
  · exact (bodyRdMagic_frame magic s).relates (fun t ht => by rw [ht]; rfl)
      fun f t ht => by obtain ⟨-, rfl⟩ | ⟨-, rfl⟩ := ht <;> rfl
  · exact (bodyRdHeader_frame s).relates (fun t ht => by rw [ht.2]) fun f t ht => by rw [ht.2.2]

/-- Settles O51: the channels move forward under every instruction, and those without a channel leave it. -/
theorem channelsOnlyMoveForward : Obligations.ChannelsOnlyMoveForward := by
  intro s t i h
  obtain ⟨hdata, hbits, hclosed⟩ := exec_moves_forward h
  refine ⟨hdata, hbits, hclosed, fun hi => ?_, fun hi => ?_, fun hi => ?_⟩
  · cases hc : i.isCommand with
    | false =>
      have hpart := exec_token_channelPart hc h
      exact ⟨congrArg (·.1) hpart, congrArg (·.2.1) hpart⟩
    | true =>
      by_cases hreset : i = .sreset
      · subst hreset
        exact exec_sreset_channels h
      · have hi' : i ∈ [Instr.nop, .ftClr, .build, .gencodes] := by
          obtain hi | ⟨v, rfl⟩ := hi
          · simp only [List.mem_cons, List.not_mem_nil, or_false] at hi ⊢
            obtain rfl | rfl | rfl | rfl | rfl | rfl := hi <;> simp_all [Instr.isCommand]
          · cases hc
        exact exec_relates (R := fun s t => t.input = s.input ∧ t.output = s.output) hc hreset h
          (bodyOf_keeps_channels hi' _) ⟨rfl, rfl⟩ (fun _ => ⟨rfl, rfl⟩) (fun _ h => h) fun _ _ h => h
  · obtain ⟨hc, hreset⟩ :=
      (by decide : ∀ i ∈ [Instr.wrMagic, .wrHeader, .closeOut], i.isCommand = true ∧ i ≠ .sreset) i hi
    exact exec_relates (R := fun s t => t.input = s.input) hc hreset h (bodyOf_keeps_input hi _) rfl (fun _ => rfl)
      (fun _ h => h) fun _ _ h => h
  · obtain ⟨hc, hreset⟩ :=
      (by decide : ∀ i ∈ [Instr.count, .rdMagic, .rdHeader], i.isCommand = true ∧ i ≠ .sreset) i hi
    exact exec_relates (R := fun s t => t.output = s.output) hc hreset h (bodyOf_keeps_output hi _) rfl (fun _ => rfl)
      (fun _ h => h) fun _ _ h => h

end

end Sys2Proof.Machine
end

