-- ==== Sys2Proof/Proofs/TableWriters.lean ====
section
/-! PROOF. Which commands write which table and its flag (R22, R24, R26, R27, R30, R32). -/

namespace Sys2Proof.Machine

/-- From `s` to `t` only what the command `i` may write has changed, of the tables and their flags. -/
structure TableFrame (i : Instr) (s t : State) : Prop where
  ft : i ∉ [.sreset, .ftClr, .count, .compress] → t.ft = s.ft
  tree : i ∉ [.sreset, .build, .rdHeader, .compress, .decompress] →
    t.node = s.node ∧ t.ncount = s.ncount ∧ t.root = s.root ∧ t.treeValid = s.treeValid
  ct : i ∉ [.sreset, .gencodes, .compress] → t.ct = s.ct
  ctValid : i ∉ [.sreset, .build, .rdHeader, .gencodes, .compress, .decompress] → t.ctValid = s.ctValid
  ctValid_not_set : i ∈ [.build, .rdHeader, .decompress] → t.ctValid = true → s.ctValid = true
  ctValid_not_cleared : i = .gencodes → s.ctValid = true → t.ctValid = true
  walk : i ∉ [.sreset, .decPayload, .decompress] → t.dstate = s.dstate ∧ t.cur = s.cur
  oclosed : i ∉ [.sreset, .closeOut, .compress, .decompress] → t.oclosed = s.oclosed

/-- The tables and their flags but the walk register, which the decoder alone writes. -/
def unwalkedPart (s : State) :
    Vector Word 256 × (Vector Node 513 × Fin 514 × NodeIdx × Bool) × Vector CtEntry 257 × Bool × Bool :=
  (s.ft, (s.node, s.ncount, s.root, s.treeValid), s.ct, s.ctValid, s.oclosed)

section
variable {s t u : State} {i : Instr}

/-- What writes none of them. -/
theorem tableFrame_of_unwritten (h : unwalkedPart t = unwalkedPart s) (hdstate : t.dstate = s.dstate)
    (hcur : t.cur = s.cur) : TableFrame i s t := by
  simp only [unwalkedPart, Prod.mk.injEq] at h
  obtain ⟨hft, htree, hct, hctv, hoclosed⟩ := h
  exact ⟨fun _ => hft, fun _ => htree, fun _ => hct, fun _ => hctv, fun _ h => hctv ▸ h, fun _ h => hctv.trans h,
    fun _ => ⟨hdstate, hcur⟩, fun _ => hoclosed⟩

theorem tableFrame_refl (i : Instr) (s : State) : TableFrame i s s := tableFrame_of_unwritten rfl rfl rfl

theorem streamWrites.tableFrame (h : streamWrites s t) : TableFrame i s t := by
  obtain ⟨_, _, rfl, -⟩ := h
  exact tableFrame_of_unwritten rfl rfl rfl

theorem walkWrites.tableFrame (h : walkWrites s t) : TableFrame .decPayload s t := by
  obtain ⟨u, ⟨_, _, rfl, -⟩, ht⟩ := h
  rw [ht]
  constructor <;> simp

/-- The commands that are no composites. -/
theorem bodyOf_tableFrame (hi : i ∉ [.compress, .decompress]) (s : State) :
    (bodyOf i s).Relates (TableFrame i) s := by
  cases i with
  | ftClr => exact (by constructor <;> simp : TableFrame .ftClr s (ftClear s))
  | count =>
    exact (bodyCount_frame s).relates (fun t ht => by rw [ht]; constructor <;> simp)
      fun f t ht => by rw [ht.2]; constructor <;> simp
  | build => exact (bodyBuild_frame s).relates (fun t ht => by rw [ht]; constructor <;> simp) fun _ _ h => h.elim
  | gencodes => exact (bodyGencodes_frame s).relates (fun t ht => by rw [ht]; constructor <;> simp) fun _ _ h => h.elim
  | wrMagic => exact (outBits_stream (bitsMSB 32 magic.toNat) s).relates (fun _ h => h.tableFrame) fun _ _ h => h.elim
  | wrHeader => exact (bodyWrHeader_stream s).relates (fun _ h => h.tableFrame) fun _ _ h => h.elim
  | encPayload => exact (bodyEncPayload_frame s).relates (fun _ h => h.tableFrame) fun _ _ h => h.2.tableFrame
  | closeOut =>
    exact (bodyCloseOut_frame s).relates (fun t ht => by rw [ht.2]; constructor <;> simp) fun _ _ h => h.elim
  | rdMagic =>
    exact (bodyRdMagic_frame magic s).relates (fun t ht => by rw [ht]; exact (streamWrites_advance 32 s).tableFrame)
      fun f t ht => by
        obtain ⟨-, rfl⟩ | ⟨-, rfl⟩ := ht
        · exact tableFrame_refl _ t
        · exact (streamWrites_advance 32 s).tableFrame
  | rdHeader =>
    exact (bodyRdHeader_frame s).relates (fun t ht => by rw [ht.2]; constructor <;> simp)
      fun f t ht => by rw [ht.2.2]; constructor <;> simp
  | decPayload => exact (bodyDecPayload_frame s).relates (fun _ h => h.tableFrame) fun _ _ h => h.2.tableFrame
  | compress | decompress => simp at hi
  | nop | sreset | hdrInternal | hdrLeaf _ => exact tableFrame_refl _ s

/-! ## The composites -/

/-- The walk register is left alone. -/
def KeepsWalk (s t : State) : Prop := t.dstate = s.dstate ∧ t.cur = s.cur

theorem KeepsWalk.trans (h : KeepsWalk s t) (h' : KeepsWalk t u) : KeepsWalk s u :=
  ⟨h'.1.trans h.1, h'.2.trans h.2⟩

theorem bodyOf_keepsWalk (hi : i ∉ [.sreset, .decPayload, .compress, .decompress]) (s : State) :
    (bodyOf i s).Relates KeepsWalk s := by
  simp only [List.mem_cons, List.not_mem_nil, or_false, not_or] at hi
  obtain ⟨hreset, hdec, hcompress, hdecompress⟩ := hi
  have hframe := bodyOf_tableFrame (i := i) (by simp [hcompress, hdecompress]) s
  have hwalk : i ∉ [Instr.sreset, .decPayload, .decompress] := by simp [hreset, hdec, hdecompress]
  exact hframe.imp (fun _ h => h.walk hwalk) fun _ _ h => h.walk hwalk

/-- No step of COMPRESS writes the walk register (R30, R174). -/
theorem bodyCompress_keepsWalk (s : State) : (bodyCompress magic s).Relates KeepsWalk s :=
  (bodyOf_keepsWalk (i := .count) (by decide) s).bind .trans fun s =>
    (bodyOf_keepsWalk (i := .build) (by decide) s).bind .trans fun s =>
      (bodyOf_keepsWalk (i := .gencodes) (by decide) s).bind .trans fun s =>
        (bodyOf_keepsWalk (i := .wrMagic) (by decide) s).bind .trans fun s =>
          (bodyOf_keepsWalk (i := .wrHeader) (by decide) s).bind .trans fun s =>
            (bodyOf_keepsWalk (i := .encPayload) (by decide) s).bind .trans
              (bodyOf_keepsWalk (i := .closeOut) (by decide))

/-- The frequency table and the code table are left alone, and `CT_VALID` is not set. -/
def KeepsCodes (s t : State) : Prop := t.ft = s.ft ∧ t.ct = s.ct ∧ (t.ctValid = true → s.ctValid = true)

theorem KeepsCodes.trans (h : KeepsCodes s t) (h' : KeepsCodes t u) : KeepsCodes s u := by
  obtain ⟨hft, hct, hctv⟩ := h
  obtain ⟨hft', hct', hctv'⟩ := h'
  exact ⟨hft'.trans hft, hct'.trans hct, hctv ∘ hctv'⟩

theorem TableFrame.keepsCodes (hi : i ∈ [.rdMagic, .rdHeader, .decPayload, .closeOut]) (h : TableFrame i s t) :
    KeepsCodes s t := by
  simp only [List.mem_cons, List.not_mem_nil, or_false] at hi
  obtain rfl | rfl | rfl | rfl := hi
  · exact ⟨h.ft (by decide), h.ct (by decide), fun hv => h.ctValid (by decide) ▸ hv⟩
  · exact ⟨h.ft (by decide), h.ct (by decide), h.ctValid_not_set (by decide)⟩
  · exact ⟨h.ft (by decide), h.ct (by decide), fun hv => h.ctValid (by decide) ▸ hv⟩
  · exact ⟨h.ft (by decide), h.ct (by decide), fun hv => h.ctValid (by decide) ▸ hv⟩

theorem bodyOf_keepsCodes (hi : i ∈ [.rdMagic, .rdHeader, .decPayload, .closeOut]) (s : State) :
    (bodyOf i s).Relates KeepsCodes s := by
  have hprimitive : i ∉ [Instr.compress, .decompress] :=
    (by decide : ∀ i ∈ [Instr.rdMagic, .rdHeader, .decPayload, .closeOut], i ∉ [Instr.compress, .decompress]) i hi
  exact (bodyOf_tableFrame hprimitive s).imp (fun _ h => h.keepsCodes hi) fun _ _ h => h.keepsCodes hi

/-- No step of DECOMPRESS writes the frequency table or the code table (R22, R27, R195). -/
theorem bodyDecompress_keepsCodes (s : State) : (bodyDecompress magic s).Relates KeepsCodes s :=
  (bodyOf_keepsCodes (i := .rdMagic) (by decide) s).bind .trans fun s =>
    (bodyOf_keepsCodes (i := .rdHeader) (by decide) s).bind .trans fun s =>
      (bodyOf_keepsCodes (i := .decPayload) (by decide) s).bind .trans
        (bodyOf_keepsCodes (i := .closeOut) (by decide))

theorem KeepsWalk.tableFrame (h : KeepsWalk s t) : TableFrame .compress s t := by
  constructor <;> simp
  exact h

theorem KeepsCodes.tableFrame (h : KeepsCodes s t) : TableFrame .decompress s t := by
  obtain ⟨hft, hct, hctv⟩ := h
  constructor <;> simp_all

/-! ## Every command -/

theorem bodyOf_relates_tableFrame (i : Instr) (s : State) : (bodyOf i s).Relates (TableFrame i) s := by
  by_cases hi : i ∈ [Instr.compress, .decompress]
  · simp only [List.mem_cons, List.not_mem_nil, or_false] at hi
    obtain rfl | rfl := hi
    · exact (bodyCompress_keepsWalk s).imp (fun _ h => h.tableFrame) fun _ _ h => h.tableFrame
    · exact (bodyDecompress_keepsCodes s).imp (fun _ h => h.tableFrame) fun _ _ h => h.tableFrame
  · exact bodyOf_tableFrame hi s

theorem exec_tableFrame (hc : i.isCommand = true) (hi : i ≠ .sreset) (h : exec i s = .next t) : TableFrame i s t :=
  exec_relates (R := TableFrame i) hc hi h (bodyOf_relates_tableFrame i _) (tableFrame_refl i s)
    (fun _ => tableFrame_of_unwritten rfl rfl rfl)
    (fun _ ⟨ft, tree, ct, ctv, set, cleared, walk, oclosed⟩ => ⟨ft, tree, ct, ctv, set, cleared, walk, oclosed⟩)
    fun _ _ ⟨ft, tree, ct, ctv, set, cleared, walk, oclosed⟩ => ⟨ft, tree, ct, ctv, set, cleared, walk, oclosed⟩

/-- No command but SRESET clears `OCLOSED` (R32). -/
theorem exec_keeps_oclosed (hc : i.isCommand = true) (hi : i ≠ .sreset) (h : exec i s = .next t)
    (hs : s.oclosed = true) : t.oclosed = true := by
  obtain hp | ⟨-, u, -, -, hpart⟩ := exec_proceeds_or_closes hc hi h
  · exact hp.oclosed.trans hs
  · exact congrArg (·.2.2) hpart

end

/-- Settles O50: every clause but SRESET's is one of the command's table frame. -/
theorem tablesHaveOnlyTheirWriters : Obligations.TablesHaveOnlyTheirWriters := by
  intro s t i hc h
  by_cases hi : i = .sreset
  · subst hi
    simp
  · obtain ⟨ft, tree, ct, ctv, set, cleared, walk, oclosed⟩ := exec_tableFrame hc hi h
    exact ⟨ft, tree, ct, ctv, set, cleared, walk, oclosed, fun _ => exec_keeps_oclosed hc hi h⟩

end Sys2Proof.Machine
end

