-- ==== Sys2Proof/Proofs/PayloadLength.lean ====
section
/-! PROOF. The symbols COMPRESS finds in bytes, and the length of their codes (R134, R151, R175). -/

namespace Sys2Proof.Machine

/-- The symbols whose codes make the payload of bytes: theirs, and the marker once (R171). -/
def payloadSymbols (b : List Byte) : List Sym := b.map byteSym ++ [Config.eos]

theorem byteSym_injective : Function.Injective byteSym := fun _ _ h =>
  BitVec.eq_of_toNat_eq (congrArg Fin.val h :)

/-- A symbol is a byte value or the marker (R12). -/
theorem eq_eos_or_byteSym (x : Sym) : x = Config.eos ∨ ∃ y, x = byteSym y := by
  by_cases hx : x.val < 256
  · exact .inr ⟨BitVec.ofNat 8 x.val, Fin.ext (Nat.mod_eq_of_lt hx).symm⟩
  · have hlt := x.isLt
    exact .inl (Fin.ext (Nat.le_antisymm (Nat.le_of_lt_succ hlt) (Nat.not_lt.mp hx)))

section
variable {s : State} {b : List Byte} {x : Sym}

theorem eos_notMem_map_byteSym (b : List Byte) : Config.eos ∉ b.map byteSym := fun h => by
  obtain ⟨y, -, hy⟩ := List.mem_map.mp h
  exact byteSym_ne_eos y hy

/-- With the counts of bytes in the frequency table a symbol's count says how often it is in the payload (R123). -/
theorem countOf_of_countsOf (hft : s.ft = countsOf b) (hsmall : ∀ y, b.count y < 2 ^ 32) (x : Sym) :
    countOf s x = (payloadSymbols b).count x := by
  rw [payloadSymbols, List.count_append]
  obtain rfl | ⟨y, rfl⟩ := eq_eos_or_byteSym x
  · rw [List.count_eq_zero_of_not_mem (eos_notMem_map_byteSym b), countOf, ftRead_eos]
    rfl
  · rw [List.count_map_of_injective b byteSym byteSym_injective, List.count_singleton, countOf, ftRead_byteSym hft,
      ← eq_toNat_of_ofNat_eq (hsmall y) rfl, if_neg (by simpa using (byteSym_ne_eos y).symm), Nat.add_zero]

theorem mem_usedSymbols_iff (hft : s.ft = countsOf b) (hsmall : ∀ y, b.count y < 2 ^ 32) :
    x ∈ usedSymbols s ↔ x ∈ payloadSymbols b := by
  rw [mem_usedSymbols, ← List.count_pos_iff, ← countOf_of_countsOf hft hsmall, countOf, Nat.pos_iff_ne_zero, ne_eq,
    ne_eq, ← BitVec.toNat_inj]
  rfl

/-- The used symbols are those of the distinct bytes, and the marker (R132, R151). -/
theorem usedSymbols_perm (hft : s.ft = countsOf b) (hsmall : ∀ y, b.count y < 2 ^ 32) :
    (usedSymbols s).Perm (payloadSymbols b.dedup) := by
  have hnodup : (payloadSymbols b.dedup).Nodup :=
    (b.nodup_dedup.map byteSym_injective).append (List.nodup_singleton _)
      (by simpa using eos_notMem_map_byteSym b.dedup)
  refine (List.perm_ext_iff_of_nodup (usedSymbols_nodup s) hnodup).mpr fun x => ?_
  rw [mem_usedSymbols_iff hft hsmall]
  simp only [payloadSymbols, List.mem_append, List.mem_map, List.mem_dedup]

end

/-! ## Weighted lengths -/

section
variable {f g : Sym → Nat} {x : Sym} {p : List Bool}

theorem Tree.weightedLength_congr {t : Tree} (h : ∀ x, f x = g x) (d : Nat) :
    t.weightedLength f d = t.weightedLength g d := by
  rw [funext h]

theorem Tree.weightedLength_add (f g : Sym → Nat) (d : Nat) (t : Tree) :
    t.weightedLength (fun x => f x + g x) d = t.weightedLength f d + t.weightedLength g d := by
  induction t generalizing d with
  | leaf x => simp only [Tree.weightedLength, Nat.add_mul]
  | node l r ihl ihr =>
    simp only [Tree.weightedLength, ihl, ihr]
    omega

theorem Tree.weightedLength_eq_zero {t : Tree} (h : ∀ x ∈ t.leaves, f x = 0) (d : Nat) : t.weightedLength f d = 0 := by
  induction t generalizing d with
  | leaf x => rw [Tree.weightedLength, h x (by simp [Tree.leaves]), Nat.zero_mul]
  | node l r ihl ihr =>
    rw [Tree.leaves] at h
    rw [Tree.weightedLength, ihl fun x hx => h x (List.mem_append_left _ hx),
      ihr fun x hx => h x (List.mem_append_right _ hx)]

theorem Tree.mem_leaves_of_path {t : Tree} (h : t.path x = some p) : x ∈ t.leaves :=
  (t.path_isSome_iff x).mp (h ▸ rfl)

/-- One symbol counted once weighs the length of its path (R134). -/
theorem Tree.weightedLength_single {t : Tree} (ht : t.leaves.Nodup) (h : t.path x = some p) (d : Nat) :
    t.weightedLength (fun y => if y = x then 1 else 0) d = d + p.length := by
  induction t generalizing p d with
  | leaf z =>
    rw [Tree.path] at h
    split at h
    next hz =>
      cases h
      rw [Tree.weightedLength, if_pos hz.symm, Nat.one_mul]
      rfl
    next => cases h
  | node l r ihl ihr =>
    rw [Tree.leaves] at ht
    obtain ⟨hl, hr, hdisjoint⟩ := List.nodup_append'.mp ht
    rw [Tree.weightedLength]
    obtain ⟨q, hq, rfl⟩ | ⟨q, hq, rfl⟩ := Tree.path_node h
    · have hx := Tree.mem_leaves_of_path hq
      rw [ihl hl hq, Tree.weightedLength_eq_zero fun y hy => if_neg fun e : y = x => hdisjoint hx (e ▸ hy),
        List.length_cons]
      omega
    · have hx := Tree.mem_leaves_of_path hq
      rw [ihr hr hq, Tree.weightedLength_eq_zero fun y hy => if_neg fun e : y = x => hdisjoint (e ▸ hy) hx,
        List.length_cons]
      omega

/-- One more occurrence of a symbol adds the length of its path. -/
theorem Tree.weightedLength_cons {t : Tree} (ht : t.leaves.Nodup) (h : t.path x = some p) (xs : List Sym) :
    t.weightedLength (fun y => (x :: xs).count y) 0 = p.length + t.weightedLength (fun y => xs.count y) 0 := by
  have hcount : ∀ y, (x :: xs).count y = (if y = x then 1 else 0) + xs.count y := fun y => by
    rw [List.count_cons, Nat.add_comm]
    simp only [beq_iff_eq, eq_comm (a := x) (b := y)]
  rw [Tree.weightedLength_congr hcount, Tree.weightedLength_add, Tree.weightedLength_single ht h, Nat.zero_add]

/-- The codes of bytes and the marker's code are as long as the tree weighs with their counts (R134, R175). -/
theorem payload_length {T : Tree} (hT : T.leaves.Nodup) {b : List Byte} {q e : List Bool} (hq : codesOf T b = some q)
    (he : T.path Config.eos = some e) :
    (q ++ e).length = T.weightedLength (fun x => (payloadSymbols b).count x) 0 := by
  induction b generalizing q with
  | nil =>
    obtain rfl : [] = q := Option.some.inj hq
    rw [payloadSymbols, List.map_nil, List.nil_append, List.nil_append, Tree.weightedLength_cons hT he,
      Tree.weightedLength_eq_zero fun _ _ => List.count_nil]
    rfl
  | cons x b ih =>
    obtain ⟨p, r, hp, hr, rfl⟩ := codesOf_cons.mp hq
    have htail := ih hr
    rw [payloadSymbols] at htail
    rw [payloadSymbols, List.map_cons, List.cons_append, Tree.weightedLength_cons hT hp, ← htail, List.append_assoc,
      List.length_append]

end

end Sys2Proof.Machine
end

