-- ==== Sys2Proof/Proofs/CompressBlob.lean ====
section
/-! PROOF. COMPRESS on the bits of bytes: the blob and the state it leaves (R174, R175). -/

namespace Sys2Proof.Machine

/-- What the steps of COMPRESS after BUILD make of the state `u` it leaves: the code table of `T`, the blob, the
position at the end of `b`'s bits (R174). -/
def compressed (m : Word) (T : Tree) (b : List Byte) (q e : List Bool) (u : State) : State :=
  padAndClose (appendOutput (blobBits m T q e) { withCodes T u with input := ⟨u.input.data, 8 * b.length⟩ })

/-- The body of COMPRESS on fewer than `2^32` bytes, by the state BUILD leaves (R174, R175). -/
theorem bodyCompress_builtTree (m : Word) {s : State} {b : List Byte} (hin : s.input = ⟨bytesToBits b, 0⟩)
    (hsmall : ∀ x, b.count x < 2 ^ 32) (hopen : s.output.closed = false) :
    ∃ u T q e, bodyBuild (withCounts b (inReset s)) = .ok u ∧ BuiltTree (withCounts b (inReset s)) u T ∧
      codesOf T b = some q ∧ T.path Config.eos = some e ∧ bodyCompress m s = .ok (compressed m T b q e u) := by
  have hcount : bodyCount s = .ok (withCounts b (inReset s)) :=
    bodyCount_bytes (rest := []) (by simp [unread, hin]) (by simp) hsmall
  obtain ⟨u, T, hbuild, hbuilt⟩ := bodyBuild_builtTree (withCounts b (inReset s))
  obtain ⟨hinput, houtput, -⟩ := bodyBuild_unchanged hbuild
  have hT : treeOf u = some T := hbuilt.stored.treeOf
  have hnodup : T.leaves.Nodup := hbuilt.leaves.nodup_iff.mpr (usedSymbols_nodup _)
  have hmem : ∀ x, x ∈ payloadSymbols b → x ∈ T.leaves := fun x hx =>
    hbuilt.leaves.mem_iff.mpr ((mem_usedSymbols_iff (withCounts_ft b _) hsmall).mpr hx)
  have hdata : u.input.data = bytesToBits b := by
    rw [hinput, (withCounts_unchanged b _).1, inReset, hin]
  obtain ⟨q, e, hq, he, hwrite⟩ := writeBlob_of_treeOf m (s := withCodes T u) hT (walk_absent hnodup) hdata
    (fun x hx => hmem _ (by simpa [payloadSymbols] using .inl ⟨x, hx, rfl⟩)) (hmem _ (by simp [payloadSymbols]))
    (houtput ▸ hopen)
  refine ⟨u, T, q, e, hbuild, hbuilt, hq, he, ?_⟩
  rw [bodyCompress, hcount, ok_bind, hbuild, ok_bind, bodyGencodes_of_treeOf hT, ok_bind]
  exact hwrite

/-- A tree whose only leaf is `x`. -/
theorem Tree.eq_leaf_of_leaves {T : Tree} {x : Sym} (h : T.leaves = [x]) : T = .leaf x := by
  cases T with
  | leaf y => rw [Tree.leaves, List.singleton_inj] at h; rw [h]
  | node l r =>
    have hlength := congrArg List.length h
    have hl := l.leaves_pos
    have hr := r.leaves_pos
    rw [Tree.leaves, List.length_append, List.length_singleton] at hlength
    omega

/-- COMPRESS of no bytes: the header is that of the marker alone, and the payload is empty (R141, R175). -/
theorem header_append_payload_nil {T : Tree} {q e : List Bool} (hleaves : T.leaves = [Config.eos])
    (hq : codesOf T [] = some q) (he : T.path Config.eos = some e) :
    T.header ++ (q ++ e) = [true, true, false, false, false, false, false, false, false, false] := by
  obtain rfl := Tree.eq_leaf_of_leaves hleaves
  obtain rfl : [] = q := Option.some.inj hq
  obtain rfl : [] = e := Option.some.inj he
  rfl

theorem padCount_blobBits (m : Word) (T : Tree) (q e : List Bool) :
    padCount (blobBits m T q e).length = (8 - (32 + T.header.length + (q ++ e).length) % 8) % 8 := by
  simp only [padCount, blobBits, List.length_append, bitsMSB_length, Nat.add_assoc]

/-- Settles O42: BUILD finds the bytes' symbols and the marker, and the steps after it write the blob. -/
theorem compressProducesTheBlob : Obligations.CompressProducesTheBlob := by
  intro s b hs hoclosed hout hin hlength
  have hsmall : ∀ x, b.count x < 2 ^ 32 := fun x => List.count_le_length.trans_lt hlength
  obtain ⟨u, T, q, e, hbuild, hbuilt, hq, he, hbody⟩ :=
    bodyCompress_builtTree magic (s := accept s) hin hsmall (by rw [accept, hout])
  have hexec := exec_ready (i := .compress) rfl (by decide) hs (failedNeed_needsOut hoclosed)
  rw [bodyOf, hbody, finish] at hexec
  have hframe := (bodyBuild_frame _).of_ok hbuild
  have hft : u.ft = countsOf b := by rw [hframe, withCounts_ft]
  have hnodup : T.leaves.Nodup := hbuilt.leaves.nodup_iff.mpr (usedSymbols_nodup _)
  have hleaves : T.leaves.Perm (payloadSymbols b.dedup) :=
    hbuilt.leaves.trans (usedSymbols_perm (withCounts_ft b _) hsmall)
  have houtput : (compressed magic T b q e u).output =
      ⟨blobBits magic T q e ++ List.replicate (padCount (blobBits magic T q e).length) false, true⟩ := by
    obtain ⟨-, hbuild_output, -⟩ := bodyBuild_unchanged hbuild
    obtain ⟨-, hcounts_output, -⟩ := withCounts_unchanged b (inReset (accept s))
    have hu : u.output = ⟨[], false⟩ := hbuild_output.trans (hcounts_output.trans hout)
    simp [compressed, padAndClose, appendOutput, withCodes, hu]
  refine ⟨_, T, q, e, padCount (blobBits magic T q e).length, hexec, hbuilt.stored.treeOf, hq, he, houtput,
    padCount_blobBits magic T q e, ?_, ?_, ?_, treeWf_congr (s := u) rfl rfl rfl hbuilt.treeWf,
    ⟨T, hbuilt.stored.treeOf, fun x => ?_⟩, ?_⟩
  · have hheader := T.header_length
    rw [hleaves.length_eq, payloadSymbols, List.length_append, List.length_map, List.length_singleton] at hheader
    omega
  · rw [payload_length hnodup hq he]
    exact Tree.weightedLength_congr (fun x => (countOf_of_countsOf (s := u) hft hsmall x).symm) 0
  · obtain ⟨⟨hbusy, hpq, hhdr⟩, -⟩ := hs
    have hdata : s.input.data.length = 8 * b.length := by rw [hin, bytesToBits_length]
    simp only [complete, compressed, padAndClose, appendOutput, withCodes]
    rw [hframe]
    simp only [withCounts, inReset, accept, hbusy, hpq, hhdr, hdata]
  · simp [compressed, padAndClose, appendOutput, withCodes, walk_absent hnodup]
  · rintro rfl
    have heos : T.leaves = [Config.eos] := List.perm_singleton.mp hleaves
    have hbits := header_append_payload_nil heos hq he
    have hpad : padCount (blobBits magic T q e).length = 6 := by
      rw [blobBits, List.append_assoc, List.append_assoc, hbits, List.length_append, bitsMSB_length]
      rfl
    refine (congrArg OutChannel.bits houtput).trans ?_
    rw [hpad, blobBits, List.append_assoc (bitsMSB 32 _ ++ _), List.append_assoc (bitsMSB 32 _), hbits]

end Sys2Proof.Machine
end
